-- ==== Sys2Proof/Word.lean ====
section
/-! DEFINITION. The word types of the machine (R10): bytes, 16-bit words, 13-bit cell addresses, and the pixel. -/

namespace Sys2Proof

/-- A byte: a memory cell, `A`, `X`, `Y`, `SP` (R10, R20 to R24). -/
abbrev Byte := BitVec 8

/-- A 16-bit value: `PC` and the effective addresses (R23, R189). -/
abbrev Word := BitVec 16

/-- A 13-bit address, the one every access is masked to (R30, R71). -/
abbrev Addr := BitVec 13

/-- One pixel of the frame buffer, "8-bit-per-channel RGB" (R40, R413). -/
structure RGB where
  r : Byte
  g : Byte
  b : Byte
  deriving DecidableEq, Repr, Inhabited

end Sys2Proof
end

