-- ==== Sys2Proof/Config.lean ====
section
/-! DEFINITION. The parameters of the machine, one constant for each row of R7's table: a value where the spec gives
or decides one, an opaque constant where it leaves the parameter OPEN (log 5, 6, 7). -/

namespace Sys2Proof.Config

/-- `CLOCK_RATIO`: chip cycles per Processor cycle. -/
abbrev clockRatio : Nat := 3
/-- `LINE_CYCLES`: chip cycles per scanline. -/
abbrev lineCycles : Nat := 228
/-- `HBLANK`: the blanking offset. -/
abbrev hblank : Nat := 68
/-- `WIDTH`: pixels per line. -/
abbrev width : Nat := 160
/-- `PLAYER_ADJ`: added to a player's reset position only. -/
abbrev playerAdj : Int := 5
/-- `POS_MIN`: the least value of a reset position before the adjustment. -/
abbrev posMin : Int := 1
/-- `STACK_BASE` (the spec's decision D3). -/
abbrev stackBase : Word := 0x0100
/-- `VEC_RESET` (D14). -/
abbrev vecReset : Word := 0xFFFC
/-- `VEC_BRK` (D6). -/
abbrev vecBrk : Word := 0xFFFE
/-- `BRK_LEN` (D6): the default, 1. -/
abbrev brkLen : Nat := 1
/-- `VIDEO_LO` (D11). -/
abbrev videoLo : Nat := 0x0000
/-- `VIDEO_HI` (D11). -/
abbrev videoHi : Nat := 0x002C
/-- `TIMER_LO` (D11). -/
abbrev timerLo : Nat := 0x0280
/-- `TIMER_HI` (D11). -/
abbrev timerHi : Nat := 0x0297
/-- The hardwired input port, the one member of `WRITE_IGNORE_SET` (D11, conflict C1). -/
abbrev inputPort : Addr := 0x0282
/-- `WRITE_IGNORE_SET` (D11): R75 is written for a set of any size. -/
abbrev writeIgnoreSet : List Addr := [inputPort]
/-- `ROM_BASE` (D11). -/
abbrev romBase : Nat := 0x1000
/-- The cells of the cartridge window, `ROM_BASE..ROM_TOP` (D11). -/
abbrev romSize : Nat := 0x1000
/-- `CX_BASE` (D17). -/
abbrev cxBase : Nat := 0x0030
/-- `PF_T_LEFT` for PF0, PF1, PF2 (D18). -/
abbrev pfTLeft : List Nat := [68, 84, 116]
/-- `PF_T_RIGHT` for PF0, PF1, PF2 (D18). -/
abbrev pfTRight : List Nat := [148, 164, 196]
/-- `MIRROR_T` (D19). -/
abbrev mirrorT : Nat := 148
/-- `HMOVE_SIGN`: "adds" (D21). -/
abbrev hmoveSign : Int := 1
/-- `LINE_RESET` (D27). -/
abbrev lineReset : Nat := 3
/-- `VIS_FIRST` (D27). -/
abbrev visFirst : Nat := 40
/-- `VIS_LAST`: the first line after the visible window (D27). -/
abbrev visLast : Nat := 232
/-- `FRAME_HEIGHT = VIS_LAST - VIS_FIRST` (D27). -/
abbrev frameHeight : Nat := 192
/-- `INTIM`: the countdown register's cell (D32). -/
abbrev intim : Addr := 0x0284
/-- What a cell reads as that nothing has loaded or stored: the spec leaves it open (R450).
DESIGN CHOICE, log 2. -/
abbrev unlistedByte : Byte := 0x00

/-- `PALETTE`, 128 RGB triples, OPEN (R363): "may assume nothing about its entries". Log 5. -/
opaque palette : BitVec 7 → RGB

/-- `RESMP_OFFSET`, OPEN (R333, D30). Log 6. -/
opaque resmpOffset : Int

/-- The four input cells of `INPUT_REGS`: "two fixed memory-mapped byte registers ... plus two single-bit trigger
registers" (R47, R412). -/
inductive InputReg
  | controller0 | controller1 | trigger0 | trigger1
  deriving DecidableEq, Repr

/-- The cells the CORE itself stores to: the motion registers (R336), the collision latches (R337, R357) and the
countdown (R400, R401). -/
def chipCell (a : Addr) : Bool :=
  (decide (0x20 ≤ a.toNat) && decide (a.toNat ≤ 0x24)) ||
    (decide (cxBase ≤ a.toNat) && decide (a.toNat < cxBase + 8)) || a == intim

/-- How many cells are none of the 14 of `chipCell`. -/
abbrev quietCells : Nat := 8192 - 14

/-- The cells that are none of `chipCell`, by rising address. -/
def quietCell (k : Fin quietCells) : Addr :=
  BitVec.ofNat 13
    (if k.val < 0x20 then k.val
     else if k.val < 0x30 - 5 then k.val + 5
     else if k.val < 0x284 - 13 then k.val + 13
     else k.val + 14)

/-- Which of the cells the CORE never stores to each input cell is, OPEN (R47, D37). Log 7. -/
opaque inputCell : InputReg → Fin quietCells

/-- `INPUT_REGS`: the addresses of the four input cells. "nothing in the CORE writes them, except a Processor store"
(R412), so none is a `chipCell`; beyond that they are OPEN (log 7). -/
def inputRegs (r : InputReg) : Addr := quietCell (inputCell r)

end Sys2Proof.Config
end

