-- ==== Sys2Proof/Machine/Bits.lean ====
section
/-! DEFINITION. Bit fields, byte order, sign extension and reduction modulo the line width (R10, R11, R77). -/

namespace Sys2Proof.Machine

/-- `lo8(v) = v & 0xFF` (R10). -/
def lo8 (w : Word) : Byte := w.setWidth 8

/-- `hi8(v) = (v >> 8) & 0xFF` (R10): the page of an address (R17). -/
def hi8 (w : Word) : Byte := (w >>> 8).setWidth 8

/-- The 16-bit value of two bytes, low byte first (R77). -/
def joinLE (lo hi : Byte) : Word := hi ++ lo

/-- A byte zero-extended to 16 bits (R11). -/
def zext (b : Byte) : Word := b.setWidth 16

/-- The masked address `a & 0x1FFF` every access uses (R71). -/
def maskAddr (w : Word) : Addr := w.setWidth 13

/-- `sext8` (R11): a byte as a signed displacement, -128..127. -/
def sext8 (b : Byte) : Int := if b.toNat < 128 then b.toNat else (b.toNat : Int) - 256

/-- `snib` of the high nibble (R11, R335): the signed motion nibble, -8..7. -/
def snibHi (b : Byte) : Int := if b.toNat / 16 < 8 then ↑(b.toNat / 16) else (↑(b.toNat / 16) : Int) - 16

/-- `b2n(f)` (R10). -/
def b2n (f : Bool) : Nat := if f then 1 else 0

/-- `x mod WIDTH`, the non-negative remainder (R10), as a pixel position. -/
def wrapPos (x : Int) : Fin Config.width :=
  ⟨(x % (Config.width : Int)).toNat, by
    have h1 := Int.emod_nonneg x (show (Config.width : Int) ≠ 0 by decide)
    have h2 := Int.emod_lt_of_pos x (show (0 : Int) < (Config.width : Int) by decide)
    omega⟩

end Sys2Proof.Machine
end

