-- ==== Sys2Proof/Syntax.lean ====
section
/-! DEFINITION. The instructions as syntax: 56 documented mnemonics with their operand forms, and the illegal-opcode
entry (R100, R103, R104). A row of spec/opcode_table.json is a constructor of `Instr` with one of its operand forms. -/

namespace Sys2Proof

/-- The thirteen addressing modes (R140 to R152). -/
inductive Mode
  | imp | acc | imm | zp | zpx | zpy | abs | abx | aby | ind | izx | izy | rel
  deriving DecidableEq, Repr

/-- The 57 mnemonics of the opcode table (R103, R104). -/
inductive Mnemonic
  -- loads, stores, transfers
  | lda | ldx | ldy | sta | stx | sty | tax | tay | txa | tya | tsx | txs
  -- arithmetic, logic, compares, bit test
  | adc | sbc | and | ora | eor | cmp | cpx | cpy | bit
  -- shifts, rotates, increments, decrements
  | asl | lsr | rol | ror | inc | dec | inx | iny | dex | dey
  -- control transfer
  | jmp | jsr | rts | rti | brk | bcc | bcs | beq | bne | bmi | bpl | bvc | bvs
  -- stack, flags, no operation, illegal opcode
  | pha | pla | php | plp | clc | sec | cli | sei | cld | sed | clv | nop | ill
  deriving DecidableEq, Repr

/-- A data operand with its operand bytes: the addressing modes other than implied, indirect and relative
(R141 to R148, R150, R151). -/
inductive Operand
  /-- accumulator -/
  | acc
  /-- immediate -/
  | imm (v : Byte)
  /-- zero page -/
  | zp (z : Byte)
  /-- zero page indexed by X -/
  | zpx (z : Byte)
  /-- zero page indexed by Y -/
  | zpy (z : Byte)
  /-- absolute -/
  | abs (w : Word)
  /-- absolute indexed by X -/
  | abx (w : Word)
  /-- absolute indexed by Y -/
  | aby (w : Word)
  /-- indirect-indexed-by-X, `(zp,X)` -/
  | izx (z : Byte)
  /-- indirect-indexed-by-Y, `(zp),Y` -/
  | izy (z : Byte)
  deriving DecidableEq, Repr

/-- The operand of JMP (R230): absolute, or indirect through a pointer (R149). -/
inductive JumpOperand
  | abs (w : Word)
  | ind (ptr : Word)
  deriving DecidableEq, Repr

/-- The instructions. A branch carries its displacement byte as encoded (R152); `ill` carries the unassigned opcode
byte (R272). -/
inductive Instr
  /-- load accumulator, R160 -/
  | lda (m : Operand)
  /-- load index X, R161 -/
  | ldx (m : Operand)
  /-- load index Y, R162 -/
  | ldy (m : Operand)
  /-- store accumulator, R163 -/
  | sta (m : Operand)
  /-- store index X, R164 -/
  | stx (m : Operand)
  /-- store index Y, R165 -/
  | sty (m : Operand)
  /-- A to X, R166 -/
  | tax
  /-- A to Y, R167 -/
  | tay
  /-- X to A, R168 -/
  | txa
  /-- Y to A, R169 -/
  | tya
  /-- SP to X, R170 -/
  | tsx
  /-- X to SP, R171 -/
  | txs
  /-- add with carry, R180 -/
  | adc (m : Operand)
  /-- subtract with borrow, R181 -/
  | sbc (m : Operand)
  /-- bitwise and, R182 -/
  | and (m : Operand)
  /-- bitwise or, R183 -/
  | ora (m : Operand)
  /-- bitwise exclusive or, R184 -/
  | eor (m : Operand)
  /-- compare A, R185 -/
  | cmp (m : Operand)
  /-- compare X, R186 -/
  | cpx (m : Operand)
  /-- compare Y, R187 -/
  | cpy (m : Operand)
  /-- bit test, R188 -/
  | bit (m : Operand)
  /-- shift left, R210 -/
  | asl (m : Operand)
  /-- shift right, R211 -/
  | lsr (m : Operand)
  /-- rotate left through carry, R212 -/
  | rol (m : Operand)
  /-- rotate right through carry, R213 -/
  | ror (m : Operand)
  /-- increment memory, R214 -/
  | inc (m : Operand)
  /-- decrement memory, R215 -/
  | dec (m : Operand)
  /-- increment X, R216 -/
  | inx
  /-- increment Y, R217 -/
  | iny
  /-- decrement X, R218 -/
  | dex
  /-- decrement Y, R219 -/
  | dey
  /-- jump, R230 -/
  | jmp (target : JumpOperand)
  /-- jump to subroutine, R231 -/
  | jsr (target : Word)
  /-- return from subroutine, R232 -/
  | rts
  /-- return from the software interrupt, R233 -/
  | rti
  /-- software interrupt, R234 -/
  | brk
  /-- branch if carry clear, R236 -/
  | bcc (offset : Byte)
  /-- branch if carry set, R237 -/
  | bcs (offset : Byte)
  /-- branch if zero set, R238 -/
  | beq (offset : Byte)
  /-- branch if zero clear, R239 -/
  | bne (offset : Byte)
  /-- branch if negative set, R240 -/
  | bmi (offset : Byte)
  /-- branch if negative clear, R241 -/
  | bpl (offset : Byte)
  /-- branch if overflow clear, R242 -/
  | bvc (offset : Byte)
  /-- branch if overflow set, R243 -/
  | bvs (offset : Byte)
  /-- push accumulator, R260 -/
  | pha
  /-- pull accumulator, R261 -/
  | pla
  /-- push flags, R262 -/
  | php
  /-- pull flags, R263 -/
  | plp
  /-- clear carry, R264 -/
  | clc
  /-- set carry, R265 -/
  | sec
  /-- clear interrupt-disable, R266 -/
  | cli
  /-- set interrupt-disable, R267 -/
  | sei
  /-- clear decimal, R268 -/
  | cld
  /-- set decimal, R269 -/
  | sed
  /-- clear overflow, R270 -/
  | clv
  /-- no operation, R271 -/
  | nop
  /-- an unassigned opcode byte, R272 -/
  | ill (opcode : Byte)
  deriving DecidableEq, Repr

/-- The addressing mode of a data operand. -/
def Operand.mode : Operand → Mode
  | .acc => .acc | .imm _ => .imm | .zp _ => .zp | .zpx _ => .zpx | .zpy _ => .zpy
  | .abs _ => .abs | .abx _ => .abx | .aby _ => .aby | .izx _ => .izx | .izy _ => .izy

/-- The addressing mode of JMP's operand. -/
def JumpOperand.mode : JumpOperand → Mode
  | .abs _ => .abs
  | .ind _ => .ind

/-- The mnemonic of an instruction. -/
def Instr.mnemonic : Instr → Mnemonic
  | .lda _ => .lda
  | .ldx _ => .ldx
  | .ldy _ => .ldy
  | .sta _ => .sta
  | .stx _ => .stx
  | .sty _ => .sty
  | .tax => .tax
  | .tay => .tay
  | .txa => .txa
  | .tya => .tya
  | .tsx => .tsx
  | .txs => .txs
  | .adc _ => .adc
  | .sbc _ => .sbc
  | .and _ => .and
  | .ora _ => .ora
  | .eor _ => .eor
  | .cmp _ => .cmp
  | .cpx _ => .cpx
  | .cpy _ => .cpy
  | .bit _ => .bit
  | .asl _ => .asl
  | .lsr _ => .lsr
  | .rol _ => .rol
  | .ror _ => .ror
  | .inc _ => .inc
  | .dec _ => .dec
  | .inx => .inx
  | .iny => .iny
  | .dex => .dex
  | .dey => .dey
  | .jmp _ => .jmp
  | .jsr _ => .jsr
  | .rts => .rts
  | .rti => .rti
  | .brk => .brk
  | .bcc _ => .bcc
  | .bcs _ => .bcs
  | .beq _ => .beq
  | .bne _ => .bne
  | .bmi _ => .bmi
  | .bpl _ => .bpl
  | .bvc _ => .bvc
  | .bvs _ => .bvs
  | .pha => .pha
  | .pla => .pla
  | .php => .php
  | .plp => .plp
  | .clc => .clc
  | .sec => .sec
  | .cli => .cli
  | .sei => .sei
  | .cld => .cld
  | .sed => .sed
  | .clv => .clv
  | .nop => .nop
  | .ill _ => .ill

/-- The addressing mode of an instruction; the illegal-opcode entry has none and reads no operand, as implied mode. -/
def Instr.mode : Instr → Mode
  | .lda m | .ldx m | .ldy m | .sta m | .stx m | .sty m | .adc m | .sbc m | .and m | .ora m | .eor m | .cmp m
  | .cpx m | .cpy m | .bit m | .asl m | .lsr m | .rol m | .ror m | .inc m | .dec m => m.mode
  | .jmp t => t.mode
  | .jsr _ => .abs
  | .bcc _ | .bcs _ | .beq _ | .bne _ | .bmi _ | .bpl _ | .bvc _ | .bvs _ => .rel
  | .tax | .tay | .txa | .tya | .tsx | .txs | .inx | .iny | .dex | .dey | .rts | .rti | .brk | .pha | .pla
  | .php | .plp | .clc | .sec | .cli | .sei | .cld | .sed | .clv | .nop | .ill _ => .imp

end Sys2Proof
end

