-- ==== Sys2Proof/Decode.lean ====
section
/-! DEFINITION. The opcode table and the decoder, then the encoder.

The table stands twice, from two places of the spec: `entriesOf` is R103 (by mnemonic, with length, cycles and
page-cross flag), `opcodeRow` is the 16 by 16 matrix of R110. The decoder reads the matrix, the encoder reads R103;
that they agree is a statement, not a definition. -/

namespace Sys2Proof

open Machine

/-- A table entry (R109): the addressing mode and opcode byte, and the entry's length in bytes, base cycle cost and
page-cross flag. -/
structure Entry where
  mode : Mode
  opcode : Byte
  length : Nat
  cycles : Nat
  pageCross : Bool
  deriving DecidableEq, Repr

/-- The 151 assigned opcodes, row by row of R103. -/
def entriesOf : Mnemonic → List Entry
  | .lda => [⟨.imm, 0xA9, 2, 2, false⟩, ⟨.zp, 0xA5, 2, 3, false⟩, ⟨.zpx, 0xB5, 2, 4, false⟩, ⟨.abs, 0xAD, 3, 4, false⟩,
      ⟨.abx, 0xBD, 3, 4, true⟩, ⟨.aby, 0xB9, 3, 4, true⟩, ⟨.izx, 0xA1, 2, 6, false⟩, ⟨.izy, 0xB1, 2, 5, true⟩]
  | .ldx => [⟨.imm, 0xA2, 2, 2, false⟩, ⟨.zp, 0xA6, 2, 3, false⟩, ⟨.zpy, 0xB6, 2, 4, false⟩,
      ⟨.abs, 0xAE, 3, 4, false⟩, ⟨.aby, 0xBE, 3, 4, true⟩]
  | .ldy => [⟨.imm, 0xA0, 2, 2, false⟩, ⟨.zp, 0xA4, 2, 3, false⟩, ⟨.zpx, 0xB4, 2, 4, false⟩,
      ⟨.abs, 0xAC, 3, 4, false⟩, ⟨.abx, 0xBC, 3, 4, true⟩]
  | .sta => [⟨.zp, 0x85, 2, 3, false⟩, ⟨.zpx, 0x95, 2, 4, false⟩, ⟨.abs, 0x8D, 3, 4, false⟩, ⟨.abx, 0x9D, 3, 5, false⟩,
      ⟨.aby, 0x99, 3, 5, false⟩, ⟨.izx, 0x81, 2, 6, false⟩, ⟨.izy, 0x91, 2, 6, false⟩]
  | .stx => [⟨.zp, 0x86, 2, 3, false⟩, ⟨.zpy, 0x96, 2, 4, false⟩, ⟨.abs, 0x8E, 3, 4, false⟩]
  | .sty => [⟨.zp, 0x84, 2, 3, false⟩, ⟨.zpx, 0x94, 2, 4, false⟩, ⟨.abs, 0x8C, 3, 4, false⟩]
  | .tax => [⟨.imp, 0xAA, 1, 2, false⟩]
  | .tay => [⟨.imp, 0xA8, 1, 2, false⟩]
  | .txa => [⟨.imp, 0x8A, 1, 2, false⟩]
  | .tya => [⟨.imp, 0x98, 1, 2, false⟩]
  | .tsx => [⟨.imp, 0xBA, 1, 2, false⟩]
  | .txs => [⟨.imp, 0x9A, 1, 2, false⟩]
  | .adc => [⟨.imm, 0x69, 2, 2, false⟩, ⟨.zp, 0x65, 2, 3, false⟩, ⟨.zpx, 0x75, 2, 4, false⟩, ⟨.abs, 0x6D, 3, 4, false⟩,
      ⟨.abx, 0x7D, 3, 4, true⟩, ⟨.aby, 0x79, 3, 4, true⟩, ⟨.izx, 0x61, 2, 6, false⟩, ⟨.izy, 0x71, 2, 5, true⟩]
  | .sbc => [⟨.imm, 0xE9, 2, 2, false⟩, ⟨.zp, 0xE5, 2, 3, false⟩, ⟨.zpx, 0xF5, 2, 4, false⟩, ⟨.abs, 0xED, 3, 4, false⟩,
      ⟨.abx, 0xFD, 3, 4, true⟩, ⟨.aby, 0xF9, 3, 4, true⟩, ⟨.izx, 0xE1, 2, 6, false⟩, ⟨.izy, 0xF1, 2, 5, true⟩]
  | .and => [⟨.imm, 0x29, 2, 2, false⟩, ⟨.zp, 0x25, 2, 3, false⟩, ⟨.zpx, 0x35, 2, 4, false⟩, ⟨.abs, 0x2D, 3, 4, false⟩,
      ⟨.abx, 0x3D, 3, 4, true⟩, ⟨.aby, 0x39, 3, 4, true⟩, ⟨.izx, 0x21, 2, 6, false⟩, ⟨.izy, 0x31, 2, 5, true⟩]
  | .ora => [⟨.imm, 0x09, 2, 2, false⟩, ⟨.zp, 0x05, 2, 3, false⟩, ⟨.zpx, 0x15, 2, 4, false⟩, ⟨.abs, 0x0D, 3, 4, false⟩,
      ⟨.abx, 0x1D, 3, 4, true⟩, ⟨.aby, 0x19, 3, 4, true⟩, ⟨.izx, 0x01, 2, 6, false⟩, ⟨.izy, 0x11, 2, 5, true⟩]
  | .eor => [⟨.imm, 0x49, 2, 2, false⟩, ⟨.zp, 0x45, 2, 3, false⟩, ⟨.zpx, 0x55, 2, 4, false⟩, ⟨.abs, 0x4D, 3, 4, false⟩,
      ⟨.abx, 0x5D, 3, 4, true⟩, ⟨.aby, 0x59, 3, 4, true⟩, ⟨.izx, 0x41, 2, 6, false⟩, ⟨.izy, 0x51, 2, 5, true⟩]
  | .cmp => [⟨.imm, 0xC9, 2, 2, false⟩, ⟨.zp, 0xC5, 2, 3, false⟩, ⟨.zpx, 0xD5, 2, 4, false⟩, ⟨.abs, 0xCD, 3, 4, false⟩,
      ⟨.abx, 0xDD, 3, 4, true⟩, ⟨.aby, 0xD9, 3, 4, true⟩, ⟨.izx, 0xC1, 2, 6, false⟩, ⟨.izy, 0xD1, 2, 5, true⟩]
  | .cpx => [⟨.imm, 0xE0, 2, 2, false⟩, ⟨.zp, 0xE4, 2, 3, false⟩, ⟨.abs, 0xEC, 3, 4, false⟩]
  | .cpy => [⟨.imm, 0xC0, 2, 2, false⟩, ⟨.zp, 0xC4, 2, 3, false⟩, ⟨.abs, 0xCC, 3, 4, false⟩]
  | .bit => [⟨.zp, 0x24, 2, 3, false⟩, ⟨.abs, 0x2C, 3, 4, false⟩]
  | .asl => [⟨.acc, 0x0A, 1, 2, false⟩, ⟨.zp, 0x06, 2, 5, false⟩, ⟨.zpx, 0x16, 2, 6, false⟩,
      ⟨.abs, 0x0E, 3, 6, false⟩, ⟨.abx, 0x1E, 3, 7, false⟩]
  | .lsr => [⟨.acc, 0x4A, 1, 2, false⟩, ⟨.zp, 0x46, 2, 5, false⟩, ⟨.zpx, 0x56, 2, 6, false⟩,
      ⟨.abs, 0x4E, 3, 6, false⟩, ⟨.abx, 0x5E, 3, 7, false⟩]
  | .rol => [⟨.acc, 0x2A, 1, 2, false⟩, ⟨.zp, 0x26, 2, 5, false⟩, ⟨.zpx, 0x36, 2, 6, false⟩,
      ⟨.abs, 0x2E, 3, 6, false⟩, ⟨.abx, 0x3E, 3, 7, false⟩]
  | .ror => [⟨.acc, 0x6A, 1, 2, false⟩, ⟨.zp, 0x66, 2, 5, false⟩, ⟨.zpx, 0x76, 2, 6, false⟩,
      ⟨.abs, 0x6E, 3, 6, false⟩, ⟨.abx, 0x7E, 3, 7, false⟩]
  | .inc => [⟨.zp, 0xE6, 2, 5, false⟩, ⟨.zpx, 0xF6, 2, 6, false⟩, ⟨.abs, 0xEE, 3, 6, false⟩, ⟨.abx, 0xFE, 3, 7, false⟩]
  | .dec => [⟨.zp, 0xC6, 2, 5, false⟩, ⟨.zpx, 0xD6, 2, 6, false⟩, ⟨.abs, 0xCE, 3, 6, false⟩, ⟨.abx, 0xDE, 3, 7, false⟩]
  | .inx => [⟨.imp, 0xE8, 1, 2, false⟩]
  | .iny => [⟨.imp, 0xC8, 1, 2, false⟩]
  | .dex => [⟨.imp, 0xCA, 1, 2, false⟩]
  | .dey => [⟨.imp, 0x88, 1, 2, false⟩]
  | .jmp => [⟨.abs, 0x4C, 3, 3, false⟩, ⟨.ind, 0x6C, 3, 5, false⟩]
  | .jsr => [⟨.abs, 0x20, 3, 6, false⟩]
  | .rts => [⟨.imp, 0x60, 1, 6, false⟩]
  | .rti => [⟨.imp, 0x40, 1, 6, false⟩]
  | .brk => [⟨.imp, 0x00, Config.brkLen, 7, false⟩]
  | .bcc => [⟨.rel, 0x90, 2, 2, false⟩]
  | .bcs => [⟨.rel, 0xB0, 2, 2, false⟩]
  | .beq => [⟨.rel, 0xF0, 2, 2, false⟩]
  | .bne => [⟨.rel, 0xD0, 2, 2, false⟩]
  | .bmi => [⟨.rel, 0x30, 2, 2, false⟩]
  | .bpl => [⟨.rel, 0x10, 2, 2, false⟩]
  | .bvc => [⟨.rel, 0x50, 2, 2, false⟩]
  | .bvs => [⟨.rel, 0x70, 2, 2, false⟩]
  | .pha => [⟨.imp, 0x48, 1, 3, false⟩]
  | .pla => [⟨.imp, 0x68, 1, 4, false⟩]
  | .php => [⟨.imp, 0x08, 1, 3, false⟩]
  | .plp => [⟨.imp, 0x28, 1, 4, false⟩]
  | .clc => [⟨.imp, 0x18, 1, 2, false⟩]
  | .sec => [⟨.imp, 0x38, 1, 2, false⟩]
  | .cli => [⟨.imp, 0x58, 1, 2, false⟩]
  | .sei => [⟨.imp, 0x78, 1, 2, false⟩]
  | .cld => [⟨.imp, 0xD8, 1, 2, false⟩]
  | .sed => [⟨.imp, 0xF8, 1, 2, false⟩]
  | .clv => [⟨.imp, 0xB8, 1, 2, false⟩]
  | .nop => [⟨.imp, 0xEA, 1, 2, false⟩]
  | .ill => []

/-- The entry of a mnemonic in an addressing mode, where the table has one. -/
def entry? (mn : Mnemonic) (mode : Mode) : Option Entry :=
  (entriesOf mn).find? (fun e => e.mode == mode)

/-- The entry of an instruction; the illegal-opcode entry has none ("no length, no cost", R272). -/
def Instr.entry? (i : Instr) : Option Entry := Sys2Proof.entry? i.mnemonic i.mode

/-- One row of the opcode matrix of R110, by the high nibble; `none` is an unassigned opcode. -/
def opcodeRow : Nat → List (Option (Mnemonic × Mode))
  | 0x0 => [
      some (.brk, .imp), some (.ora, .izx), none, none, none, some (.ora, .zp), some (.asl, .zp), none,
      some (.php, .imp), some (.ora, .imm), some (.asl, .acc), none, none, some (.ora, .abs), some (.asl, .abs),
      none]
  | 0x1 => [
      some (.bpl, .rel), some (.ora, .izy), none, none, none, some (.ora, .zpx), some (.asl, .zpx), none,
      some (.clc, .imp), some (.ora, .aby), none, none, none, some (.ora, .abx), some (.asl, .abx), none]
  | 0x2 => [
      some (.jsr, .abs), some (.and, .izx), none, none, some (.bit, .zp), some (.and, .zp), some (.rol, .zp),
      none, some (.plp, .imp), some (.and, .imm), some (.rol, .acc), none, some (.bit, .abs), some (.and, .abs),
      some (.rol, .abs), none]
  | 0x3 => [
      some (.bmi, .rel), some (.and, .izy), none, none, none, some (.and, .zpx), some (.rol, .zpx), none,
      some (.sec, .imp), some (.and, .aby), none, none, none, some (.and, .abx), some (.rol, .abx), none]
  | 0x4 => [
      some (.rti, .imp), some (.eor, .izx), none, none, none, some (.eor, .zp), some (.lsr, .zp), none,
      some (.pha, .imp), some (.eor, .imm), some (.lsr, .acc), none, some (.jmp, .abs), some (.eor, .abs),
      some (.lsr, .abs), none]
  | 0x5 => [
      some (.bvc, .rel), some (.eor, .izy), none, none, none, some (.eor, .zpx), some (.lsr, .zpx), none,
      some (.cli, .imp), some (.eor, .aby), none, none, none, some (.eor, .abx), some (.lsr, .abx), none]
  | 0x6 => [
      some (.rts, .imp), some (.adc, .izx), none, none, none, some (.adc, .zp), some (.ror, .zp), none,
      some (.pla, .imp), some (.adc, .imm), some (.ror, .acc), none, some (.jmp, .ind), some (.adc, .abs),
      some (.ror, .abs), none]
  | 0x7 => [
      some (.bvs, .rel), some (.adc, .izy), none, none, none, some (.adc, .zpx), some (.ror, .zpx), none,
      some (.sei, .imp), some (.adc, .aby), none, none, none, some (.adc, .abx), some (.ror, .abx), none]
  | 0x8 => [
      none, some (.sta, .izx), none, none, some (.sty, .zp), some (.sta, .zp), some (.stx, .zp), none,
      some (.dey, .imp), none, some (.txa, .imp), none, some (.sty, .abs), some (.sta, .abs), some (.stx, .abs),
      none]
  | 0x9 => [
      some (.bcc, .rel), some (.sta, .izy), none, none, some (.sty, .zpx), some (.sta, .zpx), some (.stx, .zpy),
      none, some (.tya, .imp), some (.sta, .aby), some (.txs, .imp), none, none, some (.sta, .abx), none, none]
  | 0xA => [
      some (.ldy, .imm), some (.lda, .izx), some (.ldx, .imm), none, some (.ldy, .zp), some (.lda, .zp),
      some (.ldx, .zp), none, some (.tay, .imp), some (.lda, .imm), some (.tax, .imp), none, some (.ldy, .abs),
      some (.lda, .abs), some (.ldx, .abs), none]
  | 0xB => [
      some (.bcs, .rel), some (.lda, .izy), none, none, some (.ldy, .zpx), some (.lda, .zpx), some (.ldx, .zpy),
      none, some (.clv, .imp), some (.lda, .aby), some (.tsx, .imp), none, some (.ldy, .abx), some (.lda, .abx),
      some (.ldx, .aby), none]
  | 0xC => [
      some (.cpy, .imm), some (.cmp, .izx), none, none, some (.cpy, .zp), some (.cmp, .zp), some (.dec, .zp),
      none, some (.iny, .imp), some (.cmp, .imm), some (.dex, .imp), none, some (.cpy, .abs), some (.cmp, .abs),
      some (.dec, .abs), none]
  | 0xD => [
      some (.bne, .rel), some (.cmp, .izy), none, none, none, some (.cmp, .zpx), some (.dec, .zpx), none,
      some (.cld, .imp), some (.cmp, .aby), none, none, none, some (.cmp, .abx), some (.dec, .abx), none]
  | 0xE => [
      some (.cpx, .imm), some (.sbc, .izx), none, none, some (.cpx, .zp), some (.sbc, .zp), some (.inc, .zp),
      none, some (.inx, .imp), some (.sbc, .imm), some (.nop, .imp), none, some (.cpx, .abs), some (.sbc, .abs),
      some (.inc, .abs), none]
  | 0xF => [
      some (.beq, .rel), some (.sbc, .izy), none, none, none, some (.sbc, .zpx), some (.inc, .zpx), none,
      some (.sed, .imp), some (.sbc, .aby), none, none, none, some (.sbc, .abx), some (.inc, .abx), none]
  | _ => []

/-- The table's cell for an opcode byte (R101: "reads byte 0, looks it up in the table"). -/
def cellAt (opcode : Byte) : Option (Mnemonic × Mode) :=
  (opcodeRow (opcode.toNat / 16)).getD (opcode.toNat % 16) none

/-- Operand assembly of a data operand from operand bytes 1 and 2 (R102); `none` for a mode that is no data operand. -/
def operandOf (mode : Mode) (b1 b2 : Byte) : Option Operand :=
  match mode with
  | .acc => some .acc
  | .imm => some (.imm b1)
  | .zp => some (.zp b1)
  | .zpx => some (.zpx b1)
  | .zpy => some (.zpy b1)
  | .abs => some (.abs (joinLE b1 b2))
  | .abx => some (.abx (joinLE b1 b2))
  | .aby => some (.aby (joinLE b1 b2))
  | .izx => some (.izx b1)
  | .izy => some (.izy b1)
  | .imp | .ind | .rel => none

/-- Operand assembly of JMP's operand (R102, R230). -/
def jumpOperandOf (mode : Mode) (b1 b2 : Byte) : Option JumpOperand :=
  match mode with
  | .abs => some (.abs (joinLE b1 b2))
  | .ind => some (.ind (joinLE b1 b2))
  | _ => none

/-- The instruction of a table cell with its operand bytes. -/
def assemble (mn : Mnemonic) (mode : Mode) (b1 b2 : Byte) : Option Instr :=
  match mn with
  | .lda => (operandOf mode b1 b2).map .lda
  | .ldx => (operandOf mode b1 b2).map .ldx
  | .ldy => (operandOf mode b1 b2).map .ldy
  | .sta => (operandOf mode b1 b2).map .sta
  | .stx => (operandOf mode b1 b2).map .stx
  | .sty => (operandOf mode b1 b2).map .sty
  | .tax => some .tax
  | .tay => some .tay
  | .txa => some .txa
  | .tya => some .tya
  | .tsx => some .tsx
  | .txs => some .txs
  | .adc => (operandOf mode b1 b2).map .adc
  | .sbc => (operandOf mode b1 b2).map .sbc
  | .and => (operandOf mode b1 b2).map .and
  | .ora => (operandOf mode b1 b2).map .ora
  | .eor => (operandOf mode b1 b2).map .eor
  | .cmp => (operandOf mode b1 b2).map .cmp
  | .cpx => (operandOf mode b1 b2).map .cpx
  | .cpy => (operandOf mode b1 b2).map .cpy
  | .bit => (operandOf mode b1 b2).map .bit
  | .asl => (operandOf mode b1 b2).map .asl
  | .lsr => (operandOf mode b1 b2).map .lsr
  | .rol => (operandOf mode b1 b2).map .rol
  | .ror => (operandOf mode b1 b2).map .ror
  | .inc => (operandOf mode b1 b2).map .inc
  | .dec => (operandOf mode b1 b2).map .dec
  | .inx => some .inx
  | .iny => some .iny
  | .dex => some .dex
  | .dey => some .dey
  | .jmp => (jumpOperandOf mode b1 b2).map .jmp
  | .jsr => some (.jsr (joinLE b1 b2))
  | .rts => some .rts
  | .rti => some .rti
  | .brk => some .brk
  | .bcc => some (.bcc b1)
  | .bcs => some (.bcs b1)
  | .beq => some (.beq b1)
  | .bne => some (.bne b1)
  | .bmi => some (.bmi b1)
  | .bpl => some (.bpl b1)
  | .bvc => some (.bvc b1)
  | .bvs => some (.bvs b1)
  | .pha => some .pha
  | .pla => some .pla
  | .php => some .php
  | .plp => some .plp
  | .clc => some .clc
  | .sec => some .sec
  | .cli => some .cli
  | .sei => some .sei
  | .cld => some .cld
  | .sed => some .sed
  | .clv => some .clv
  | .nop => some .nop
  | .ill => none

/-- The instruction an opcode byte and the two bytes after it stand for. Every byte has a table entry, an unassigned
one the illegal-opcode entry (R103, R104), so this never fails. -/
def decode3 (opcode b1 b2 : Byte) : Instr :=
  match cellAt opcode with
  | none => .ill opcode
  | some (mn, mode) => (assemble mn mode b1 b2).getD (.ill opcode)

/-- Why a byte string is no instruction: it ends before the instruction does. -/
inductive DecodeError
  /-- there is no opcode byte -/
  | empty
  /-- the entry's length asks for more bytes than there are -/
  | truncated (opcode : Byte)
  deriving DecidableEq, Repr

/-- The length in bytes of an instruction by its opcode alone (R101); an illegal-opcode entry stops before any operand
byte is read. -/
def lengthAt (opcode : Byte) : Nat :=
  match cellAt opcode with
  | none => 1
  | some (mn, mode) => ((entry? mn mode).map (·.length)).getD 1

/-- Decoding of a byte string: the instruction and the bytes after it. -/
def decode : List Byte → Except DecodeError (Instr × List Byte)
  | [] => .error .empty
  | opcode :: rest =>
    if rest.length + 1 < lengthAt opcode then .error (.truncated opcode)
    else .ok (decode3 opcode (rest.getD 0 0) (rest.getD 1 0), rest.drop (lengthAt opcode - 1))

/-- The bytes of a number of `n` bytes, the least significant first. -/
def bytesOf : Nat → Nat → List Byte
  | 0, _ => []
  | n + 1, w => BitVec.ofNat 8 w :: bytesOf n (w / 256)

/-- The longest instruction has three bytes (R100). -/
abbrev maxLength : Nat := 3

/-- The three bytes at an instruction's address when its first `nbits` bits are `w` and every further bit is 0. -/
def tableWordBytes (nbits w : Nat) : List Byte := bytesOf maxLength (w % 2 ^ nbits)

/-- The instruction the decoder reads from an instruction whose bits are `w`, numbered as spec/opcode_table.json
numbers them. -/
def decodeTableWord (nbits w : Nat) : Option Instr :=
  match decode (tableWordBytes nbits w) with
  | .ok (i, _) => some i
  | .error _ => none

/-! ### The encoder (R100, R102, R103) -/

/-- The operand bytes of a data operand, low byte first. -/
def Operand.bytes : Operand → List Byte
  | .acc => []
  | .imm b | .zp b | .zpx b | .zpy b | .izx b | .izy b => [b]
  | .abs w | .abx w | .aby w => [lo8 w, hi8 w]

/-- The operand bytes of JMP. -/
def JumpOperand.bytes : JumpOperand → List Byte
  | .abs w | .ind w => [lo8 w, hi8 w]

/-- The operand bytes of an instruction. -/
def Instr.operandBytes : Instr → List Byte
  | .lda m | .ldx m | .ldy m | .sta m | .stx m | .sty m | .adc m | .sbc m | .and m | .ora m | .eor m | .cmp m
  | .cpx m | .cpy m | .bit m | .asl m | .lsr m | .rol m | .ror m | .inc m | .dec m => m.bytes
  | .jmp t => t.bytes
  | .jsr t => [lo8 t, hi8 t]
  | .bcc d | .bcs d | .beq d | .bne d | .bmi d | .bpl d | .bvc d | .bvs d => [d]
  | .tax | .tay | .txa | .tya | .tsx | .txs | .inx | .iny | .dex | .dey | .rts | .rti | .brk | .pha | .pla
  | .php | .plp | .clc | .sec | .cli | .sei | .cld | .sed | .clv | .nop | .ill _ => []

/-- The opcode byte of an instruction, from R103. -/
def Instr.opcode? : Instr → Option Byte
  | .ill opcode => some opcode
  | i => i.entry?.map (·.opcode)

/-- The bytes of an instruction in memory order: opcode, then operand bytes. An operand form the table has no entry
for has no bytes. -/
def encode (i : Instr) : List Byte :=
  match i.opcode? with
  | some op => op :: i.operandBytes
  | none => []

end Sys2Proof
end

