-- ==== Sys2Proof/Machine/State.lean ====
section
/-! DEFINITION. The state of the machine: the Processor's registers and signals, the shared memory and cycle counter,
the VideoChip, the TimerChip, and the host's port (10_state.md). Plain data throughout. -/

namespace Sys2Proof.Machine

/-- The seven status flags, "each an independent boolean" (R25). -/
structure Flags where
  /-- carry -/
  c : Bool
  /-- zero -/
  z : Bool
  /-- interrupt-disable -/
  i : Bool
  /-- decimal -/
  d : Bool
  /-- break -/
  b : Bool
  /-- overflow -/
  v : Bool
  /-- negative -/
  n : Bool
  deriving DecidableEq, Repr

/-- A side-channel signal: the masked address and the value of a Processor write (R28). -/
structure Signal where
  addr : Addr
  value : Byte
  deriving DecidableEq, Repr

/-- The diagnostic pair of the halted state (R29): the opcode byte and the `PC` it was fetched through. -/
structure Diagnostic where
  opcode : Byte
  pc : Word
  deriving DecidableEq, Repr

/-- The shared memory (R30): the cells that differ from what an unlisted cell reads as, by rising address. -/
abbrev Memory := List Host.Cell

/-- Three values indexed 0..2: the playfield registers' halves (R34), the copy slots of an object (R37). -/
structure Triple (α : Type) where
  k0 : α
  k1 : α
  k2 : α
  deriving DecidableEq, Repr

/-- The five movable objects (R18). -/
inductive Obj
  | p0 | p1 | m0 | m1 | bl
  deriving DecidableEq, Repr

/-- `pos[o]`, the horizontal start pixel of each object, 0..159 (R36). -/
structure Positions where
  p0 : Fin Config.width
  p1 : Fin Config.width
  m0 : Fin Config.width
  m1 : Fin Config.width
  bl : Fin Config.width
  deriving DecidableEq, Repr

/-- `slot[o][k]`, the copy slots (R37): three bytes for a player or missile, one for the ball. -/
structure Slots where
  p0 : Triple Byte
  p1 : Triple Byte
  m0 : Triple Byte
  m1 : Triple Byte
  bl : Byte
  deriving DecidableEq, Repr

/-- One entry of the background-colour timeline: beam-cycle offset and colour byte (R33). -/
structure Span where
  off : Nat
  col : Byte
  deriving DecidableEq, Repr

/-- The background-colour timeline (R33): the colour of the entry at offset 0 that every line starts with, and the
entries recorded after it, in order. -/
structure Timeline where
  first : Byte
  later : List Span
  deriving DecidableEq, Repr

/-- A row of pixels (R40). -/
abbrev Row := Vector RGB Config.width

/-- The VideoChip (R32 to R40). -/
structure Video where
  /-- the line counter, R32 -/
  line : Nat
  /-- the background timeline, R33 -/
  bg : Timeline
  /-- the left-half latched playfield bytes, R34 -/
  pfLeft : Triple Byte
  /-- the right-half latched playfield bytes, R34 -/
  pfRight : Triple Byte
  /-- the mirror flag of the line, R35 -/
  mirror : Bool
  /-- the objects' positions, R36 -/
  pos : Positions
  /-- the copy slots, R37 -/
  slots : Slots
  /-- the vertical-sync register's value at its previous write, R38 -/
  vsyncPrev : Byte
  /-- the frame-completed event, R39 -/
  frameComplete : Bool
  /-- the number of completed frames, R39 -/
  frameCount : Nat
  /-- the frame buffer, R40 -/
  frame : Vector Row Config.frameHeight
  deriving DecidableEq, Repr

/-- The four intervals of the TimerChip (R42). -/
inductive Prescaler
  | every1 | every8 | every64 | every1024
  deriving DecidableEq, Repr

/-- The TimerChip beside its countdown cell (R42). -/
structure Timer where
  /-- `t_pre`, the selected interval -/
  pre : Prescaler
  /-- `t_acc`, the Processor cycles not yet turned into a decrement -/
  acc : Nat
  deriving DecidableEq, Repr

/-- A cell the host may store to in its frame service (R392): one of the input cells, or the hardwired input port. -/
inductive HostCell
  | input (r : Config.InputReg)
  | port
  deriving DecidableEq, Repr

/-- One answer of `Host.frame()` (R392): the stores it makes, in order, and whether it returns `quit`. -/
structure HostAnswer where
  stores : List (HostCell × Byte)
  quit : Bool
  deriving DecidableEq, Repr

/-- The model's own fields for the host (log 8, 9): the answers still to come, the first first, and the last answer. -/
structure HostPort where
  script : List HostAnswer
  quit : Bool
  deriving DecidableEq, Repr

/-- The state of the machine between two iterations (10_state.md). -/
structure State where
  /-- the accumulator, R20 -/
  a : Byte
  /-- index register X, R21 -/
  x : Byte
  /-- index register Y, R22 -/
  y : Byte
  /-- the stack pointer, R24 -/
  sp : Byte
  /-- the program counter, R23 -/
  pc : Word
  /-- the status flags, R25 -/
  flags : Flags
  /-- the pending video-register write, R28 -/
  vidPending : Option Signal
  /-- the pending timer-register write, R28 -/
  timPending : Option Signal
  /-- `halted` with its diagnostic pair; `none` is not halted, R29 -/
  halted : Option Diagnostic
  /-- the cost in Processor cycles that the last `step()` returned, R136, R431 (log 10) -/
  stepCost : Nat
  /-- the shared memory, R30 -/
  mem : Memory
  /-- the cycle counter, R31 -/
  cyc : Nat
  /-- the VideoChip -/
  video : Video
  /-- the TimerChip -/
  timer : Timer
  /-- the host's port, the model's own -/
  hostPort : HostPort
  deriving DecidableEq, Repr

/-- What stops the machine. -/
inductive Fault
  /-- Raised by `step` on a halted machine, which has no step (R29, R393, R425, U25). Safe: the spec's machine does
  nothing there either. -/
  | halted (d : Diagnostic)
  deriving DecidableEq, Repr

/-- Why a term has no meaning. -/
inductive Refusal
  /-- Raised by `exec` for an instruction that has no meaning yet; no arm of this model raises it. Safe. -/
  | notModelled (mnemonic : String)
  /-- Raised by a meaning for an operand form the opcode table has no entry for: a term no byte string decodes to
  (log 12). Safe. -/
  | noSuchForm
  deriving DecidableEq, Repr

/-- The machine right after reset (R48, R450), over a memory that lists nothing: the values R450 fixes, and for what it
leaves unspecified the values of log 1 (registers, flags), log 2 (memory, with PC and the re-latched descriptors that
follow from it) and log 3 (positions, frame buffer, timer interval). `boot` of Machine/Reset.lean is R450 with every
image and every unspecified value. -/
def State.reset : State where
  a := 0
  x := 0
  y := 0
  sp := 0
  pc := 0
  flags := { c := false, z := false, i := false, d := false, b := false, v := false, n := false }
  vidPending := none
  timPending := none
  halted := none
  stepCost := 0
  mem := []
  cyc := 0
  video :=
    { line := Config.lineReset
      bg := { first := 0, later := [] }
      pfLeft := ⟨0, 0, 0⟩
      pfRight := ⟨0, 0, 0⟩
      mirror := false
      pos := { p0 := 0, p1 := 0, m0 := 0, m1 := 0, bl := 0 }
      slots := { p0 := ⟨0, 0, 0⟩, p1 := ⟨0, 0, 0⟩, m0 := ⟨0, 0, 0⟩, m1 := ⟨0, 0, 0⟩, bl := 0 }
      vsyncPrev := 0
      frameComplete := false
      frameCount := 0
      frame := Vector.replicate Config.frameHeight (Vector.replicate Config.width ⟨0, 0, 0⟩) }
  timer := { pre := .every1, acc := 0 }
  hostPort := { script := [], quit := false }

end Sys2Proof.Machine
end

