-- ==== Sys2Proof/Machine/Flags.lean ====
section
/-! DEFINITION. The flag computations: `SetNZ`, addition and subtraction, compare, bit test, shifts and rotates, and
the packing of the flag byte (R14, R26, R180 to R188, R210 to R213). -/

namespace Sys2Proof.Machine

/-- `v[i] == 1` (R10). -/
def testBit (v : Byte) (i : Nat) : Bool := v.getLsbD i

/-- `SetNZ(v)` (R14): "zero set when result byte is 0; negative set from bit 7 of the result". -/
def setNZ (v : Byte) (f : Flags) : Flags := { f with z := v == 0, n := testBit v 7 }

/-- A result byte with the carry and overflow that go with it. -/
structure Alu where
  value : Byte
  carry : Bool
  overflow : Bool
  deriving DecidableEq, Repr

/-- The addition of R180: exact sum, then the byte, "carry set when an 8-bit addition ... result exceeds 255", overflow
by the XOR test on the old accumulator. -/
def addWithCarry (a m : Byte) (c : Bool) : Alu :=
  let s := a.toNat + m.toNat + b2n c
  let r := BitVec.ofNat 8 s
  { value := r, carry := decide (255 < s), overflow := ((a ^^^ r) &&& (m ^^^ r) &&& 0x80) != 0 }

/-- The subtraction of R181: R180 with the operand complemented. -/
def subWithBorrow (a m : Byte) (c : Bool) : Alu := addWithCarry a (m ^^^ 0xFF) c

/-- The flags ADC and SBC leave (R180, R181): C, V, Z and N from the result. -/
def aluFlags (r : Alu) (f : Flags) : Flags := setNZ r.value { f with c := r.carry, v := r.overflow }

/-- The flags a compare leaves (R185): C, Z and N of register against memory. -/
def compareFlags (reg m : Byte) (f : Flags) : Flags :=
  { f with c := decide (m.toNat ≤ reg.toNat), z := reg == m, n := testBit (reg - m) 7 }

/-- The flags BIT leaves (R188): Z of the and, N and V from the memory operand. -/
def bitFlags (a m : Byte) (f : Flags) : Flags :=
  { f with z := (a &&& m) == 0, n := testBit m 7, v := testBit m 6 }

/-- A shifted byte and the carry out of the shift. -/
structure Shifted where
  value : Byte
  carry : Bool
  deriving DecidableEq, Repr

/-- ASL (R210). -/
def shiftLeft (v : Byte) (_ : Bool) : Shifted :=
  let s := v.toNat * 2
  { value := BitVec.ofNat 8 s, carry := decide (255 < s) }

/-- LSR (R211). -/
def shiftRight (v : Byte) (_ : Bool) : Shifted := { value := v >>> 1, carry := testBit v 0 }

/-- ROL (R212): "the old carry enters at bit 0; old bit 7 becomes the carry". -/
def rotateLeft (v : Byte) (c : Bool) : Shifted :=
  let s := v.toNat * 2 + b2n c
  { value := BitVec.ofNat 8 s, carry := decide (255 < s) }

/-- ROR (R213): the old carry enters at bit 7; bit 0 becomes the carry. -/
def rotateRight (v : Byte) (c : Bool) : Shifted :=
  { value := (v >>> 1) ||| BitVec.ofNat 8 (b2n c * 128), carry := testBit v 0 }

/-- The flags a shift or rotate leaves: C, Z and N. -/
def shiftFlags (r : Shifted) (f : Flags) : Flags := setNZ r.value { f with c := r.carry }

/-- `Pack()` (R26): bits 7..0 are N, V, 1, B, D, I, Z, C. -/
def pack (f : Flags) : Byte :=
  BitVec.ofNat 8
    (b2n f.n * 128 + b2n f.v * 64 + 32 + b2n f.b * 16 + b2n f.d * 8 + b2n f.i * 4 + b2n f.z * 2 + b2n f.c)

/-- `Unpack(p)` (R26): all seven flags; bit 5 is ignored. -/
def unpack (p : Byte) : Flags :=
  { n := testBit p 7, v := testBit p 6, b := testBit p 4, d := testBit p 3, i := testBit p 2, z := testBit p 1,
    c := testBit p 0 }

end Sys2Proof.Machine
end

