-- ==== Sys2Proof/Machine/Ops.lean ====
section
/-! DEFINITION. The named operations over memory and registers: cell access, the Processor's `MemRead` and `MemWrite`
with filter and signals, the stack, the fatal halt and the software-interrupt entry and return. -/

namespace Sys2Proof.Machine

/-! ### The memory as data -/

/-- The byte at an address; an address no entry lists reads as `Config.unlistedByte` (log 2). -/
def Memory.read : Memory → Nat → Byte
  | [], _ => Config.unlistedByte
  | (k, v) :: rest, a => if k = a then v else Memory.read rest a

/-- No entry for an address any more. -/
def Memory.remove : Memory → Nat → Memory
  | [], _ => []
  | (k, v) :: rest, a => if k = a then Memory.remove rest a else (k, v) :: Memory.remove rest a

/-- An entry for an address, in its place by rising address. -/
def Memory.put : Memory → Nat → Byte → Memory
  | [], a, b => [(a, b)]
  | (k, v) :: rest, a, b =>
    if a < k then (a, b) :: (k, v) :: rest
    else if a = k then (a, b) :: rest
    else (k, v) :: Memory.put rest a b

/-- Store a byte, keeping the canonical form: the value an unlisted address reads as is stored by having no entry. -/
def Memory.write (m : Memory) (a : Nat) (b : Byte) : Memory :=
  if b = Config.unlistedByte then m.remove a else m.put a b

/-- The canonical form from an address bound upward: rising addresses below 8192, no entry equal to an unlisted one. -/
def Memory.wfFrom : Nat → Memory → Bool
  | _, [] => true
  | lo, (k, v) :: rest =>
    decide (lo ≤ k) && decide (k < 2 ^ 13) && (v != Config.unlistedByte) && Memory.wfFrom (k + 1) rest

/-- The memory is in its one canonical form: equal memories are equal lists. -/
def Memory.wf (m : Memory) : Bool := Memory.wfFrom 0 m

/-! ### Raw cell access: the VideoChip's, the TimerChip's and the host's (R12, R76) -/

/-- `mem[a]`. -/
def readCell (a : Addr) (s : State) : Byte := s.mem.read a.toNat

/-- `mem[a] <- v`, without the filter and without signals. -/
def writeCell (a : Addr) (v : Byte) (s : State) : State := { s with mem := s.mem.write a.toNat v }

/-- Change the VideoChip's own state. -/
def onVideo (f : Video → Video) (s : State) : State := { s with video := f s.video }

/-! ### The Processor's access primitives -/

/-- `MemRead(addr, 1)` (R74): no side effect. -/
def memRead (w : Word) (s : State) : Byte := readCell (maskAddr w) s

/-- A masked address in `VIDEO_LO..VIDEO_HI`. -/
def inVideo (a : Addr) : Bool := decide (Config.videoLo ≤ a.toNat) && decide (a.toNat ≤ Config.videoHi)

/-- A masked address in `TIMER_LO..TIMER_HI`. -/
def inTimer (a : Addr) : Bool := decide (Config.timerLo ≤ a.toNat) && decide (a.toNat ≤ Config.timerHi)

/-- The one-shot signals a stored byte raises (R28, R75). -/
def raiseSignals (a : Addr) (v : Byte) (s : State) : State :=
  { s with
    vidPending := if inVideo a then some ⟨a, v⟩ else s.vidPending
    timPending := if inTimer a then some ⟨a, v⟩ else s.timPending }

/-- `MemWrite(addr, 1, v)` (R75), "the Processor's only way to change `mem`". -/
def memWrite (w : Word) (v : Byte) (s : State) : State :=
  if Config.writeIgnoreSet.contains (maskAddr w) then s
  else raiseSignals (maskAddr w) v (writeCell (maskAddr w) v s)

/-- `MemRead16(a)` (R13): low byte first, the second address wraps at 16 bits. -/
def memRead16 (w : Word) (s : State) : Word := joinLE (memRead w s) (memRead (w + 1) s)

/-! ### Registers -/

/-- `A <- v`. -/
def setA (v : Byte) (s : State) : State := { s with a := v }
/-- `X <- v`. -/
def setX (v : Byte) (s : State) : State := { s with x := v }
/-- `Y <- v`. -/
def setY (v : Byte) (s : State) : State := { s with y := v }
/-- `SP <- v`. -/
def setSP (v : Byte) (s : State) : State := { s with sp := v }
/-- `PC <- w`, all 16 bits (R23). -/
def setPC (w : Word) (s : State) : State := { s with pc := w }
/-- Replace the flags. -/
def setFlags (f : Flags) (s : State) : State := { s with flags := f }
/-- `SetNZ(v)` on the machine's flags (R14). -/
def markNZ (v : Byte) (s : State) : State := setFlags (setNZ v s.flags) s

/-! ### The stack (R27) -/

/-- The cell of the stack window a stack pointer selects. -/
def stackAddr (sp : Byte) : Word := Config.stackBase + zext sp

/-- `Push(v)`: "push writes at the current pointer then decrements". -/
def push (v : Byte) (s : State) : State := setSP (s.sp - 1) (memWrite (stackAddr s.sp) v s)

/-- `Pull()`: "pull increments then reads". -/
def pull (s : State) : Byte × State := (memRead (stackAddr (s.sp + 1)) s, setSP (s.sp + 1) s)

/-- Push a return address, high byte first (R231, R234). -/
def pushWord (w : Word) (s : State) : State := push (lo8 w) (push (hi8 w) s)

/-- "return pulls in reverse order and adds the implicit +1 back to the popped address" (R232, R233). -/
def pullReturn (s : State) : State :=
  let (lo, s1) := pull s
  let (hi, s2) := pull s1
  setPC (joinLE lo hi + 1) s2

/-! ### Exceptions -/

/-- `raise Fatal(op, pc0)` (R272, R420, R425), the machine's one exception: nothing is saved, `PC` still holds `pc0`, the
state is the one before the step plus `halted`. -/
def raiseFatal (op : Byte) (s : State) : State := { s with halted := some ⟨op, s.pc⟩ }

/-- The entry of the software interrupt (R234, R422), run with `PC` already advanced: B, then the return address minus
one and the flag byte on the stack, then I, then the vector. -/
def enterSoftwareInterrupt (s : State) : State :=
  let s1 := pushWord (s.pc - 1) (setFlags { s.flags with b := true } s)
  let s2 := push (pack s1.flags) s1
  let s3 := setFlags { s2.flags with i := true } s2
  setPC (memRead16 Config.vecBrk s3) s3

/-- The return from the software interrupt (R233, R427): the flag byte, then the return address plus one. -/
def returnFromInterrupt (s : State) : State :=
  let (p, s1) := pull s
  pullReturn (setFlags (unpack p) s1)

end Sys2Proof.Machine
end

