-- ==== Sys2Proof/Machine/HostService.lean ====
section
/-! DEFINITION. The host's frame service (R392, R412): its answers are the script in State (log 8). -/

namespace Sys2Proof.Machine

/-- The cell a host store goes to (R392): an input cell of the OPEN `INPUT_REGS`, or the hardwired input port. -/
def hostCellAddr : HostCell → Addr
  | .input r => Config.inputRegs r
  | .port => Config.inputPort

/-- The host's stores, in order, direct and without signals (R76). -/
def hostStores (stores : List (HostCell × Byte)) (s : State) : State :=
  stores.foldl (fun t c => writeCell (hostCellAddr c.1) c.2 t) s

/-- `Host.frame()` (R392): the next answer of the script; a host whose script is used up stores nothing and returns
`continue` (log 8). -/
def hostFrame (s : State) : State :=
  match s.hostPort.script with
  | [] => { s with hostPort := { script := [], quit := false } }
  | answer :: rest => { hostStores answer.stores s with hostPort := { script := rest, quit := answer.quit } }

/-- The Arbiter's service of a completed frame (R390, R392): the host is called once, then `frame_complete` is
cleared. -/
def serveFrame (s : State) : State :=
  if s.video.frameComplete then onVideo (fun v => { v with frameComplete := false }) (hostFrame s) else s

end Sys2Proof.Machine
end

