-- ==== Sys2Proof/Machine/TimerChip.lean ====
section
/-! DEFINITION. The TimerChip (R400, R401). -/

namespace Sys2Proof.Machine

/-- The interval in Processor cycles (R42). -/
def Prescaler.cycles : Prescaler → Nat
  | .every1 => 1
  | .every8 => 8
  | .every64 => 64
  | .every1024 => 1024

/-- `TIMER_TRIG` (R400): the four trigger cells and their intervals. -/
def timerTrigger (a : Addr) : Option Prescaler :=
  if a = 0x0294 then some .every1
  else if a = 0x0295 then some .every8
  else if a = 0x0296 then some .every64
  else if a = 0x0297 then some .every1024
  else none

/-- `TimerChip.write(a)` (R400): a trigger cell loads the countdown and clears the remainder; any other cell is ignored. -/
def timerWrite (a : Addr) (s : State) : State :=
  match timerTrigger a with
  | some p => writeCell Config.intim (readCell a s) { s with timer := { pre := p, acc := 0 } }
  | none => s

/-- `TimerChip.tick(n)` (R401): the quotient is subtracted from the countdown byte, the remainder is kept. -/
def timerTick (n : Nat) (s : State) : State :=
  let acc := s.timer.acc + n
  let d := acc / s.timer.pre.cycles
  writeCell Config.intim (readCell Config.intim s - BitVec.ofNat 8 d)
    { s with timer := { s.timer with acc := acc % s.timer.pre.cycles } }

end Sys2Proof.Machine
end

