-- ==== Sys2Proof/Machine/VideoRegs.lean ====
section
/-! DEFINITION. The VideoChip's register map (R44), the copy and size decoding (R305), and access to positions and
copy slots by object (R36, R37). -/

namespace Sys2Proof.Machine

/-- The registers of the video range, in address order (R44). -/
inductive VReg
  | vsync | vblank | wsync | rsync | nusiz0 | nusiz1 | colup0 | colup1 | colupf | colubk | ctrlpf | refp0 | refp1
  | pf0 | pf1 | pf2 | resp0 | resp1 | resm0 | resm1 | resbl | audc0 | audc1 | audf0 | audf1 | audv0 | audv1
  | grp0 | grp1 | enam0 | enam1 | enabl | hmp0 | hmp1 | hmm0 | hmm1 | hmbl | vdelp0 | vdelp1 | vdelbl
  | resmp0 | resmp1 | hmove | hmclr | cxclr
  deriving DecidableEq, Repr

/-- `VREG`: the address of each register (R44). -/
def vregAddr : VReg → Addr
  | .vsync => 0x00 | .vblank => 0x01 | .wsync => 0x02 | .rsync => 0x03
  | .nusiz0 => 0x04 | .nusiz1 => 0x05 | .colup0 => 0x06 | .colup1 => 0x07
  | .colupf => 0x08 | .colubk => 0x09 | .ctrlpf => 0x0A | .refp0 => 0x0B
  | .refp1 => 0x0C | .pf0 => 0x0D | .pf1 => 0x0E | .pf2 => 0x0F
  | .resp0 => 0x10 | .resp1 => 0x11 | .resm0 => 0x12 | .resm1 => 0x13 | .resbl => 0x14
  | .audc0 => 0x15 | .audc1 => 0x16 | .audf0 => 0x17 | .audf1 => 0x18 | .audv0 => 0x19 | .audv1 => 0x1A
  | .grp0 => 0x1B | .grp1 => 0x1C | .enam0 => 0x1D | .enam1 => 0x1E | .enabl => 0x1F
  | .hmp0 => 0x20 | .hmp1 => 0x21 | .hmm0 => 0x22 | .hmm1 => 0x23 | .hmbl => 0x24
  | .vdelp0 => 0x25 | .vdelp1 => 0x26 | .vdelbl => 0x27
  | .resmp0 => 0x28 | .resmp1 => 0x29 | .hmove => 0x2A | .hmclr => 0x2B | .cxclr => 0x2C

/-- The registers in address order. -/
def vregs : List VReg :=
  [.vsync, .vblank, .wsync, .rsync, .nusiz0, .nusiz1, .colup0, .colup1, .colupf, .colubk, .ctrlpf, .refp0, .refp1,
    .pf0, .pf1, .pf2, .resp0, .resp1, .resm0, .resm1, .resbl, .audc0, .audc1, .audf0, .audf1, .audv0, .audv1,
    .grp0, .grp1, .enam0, .enam1, .enabl, .hmp0, .hmp1, .hmm0, .hmm1, .hmbl, .vdelp0, .vdelp1, .vdelbl,
    .resmp0, .resmp1, .hmove, .hmclr, .cxclr]

/-- The register at a masked address, where there is one. -/
def vregAt (a : Addr) : Option VReg := vregs.find? (fun r => vregAddr r == a)

/-- The persistent value of a register: the byte in its cell (R18). -/
def readReg (r : VReg) (s : State) : Byte := readCell (vregAddr r) s

/-! ### Triples, positions, slots -/

/-- Element `k` of a triple, 0 for the first. -/
def Triple.get {α : Type} (t : Triple α) : Nat → α
  | 0 => t.k0
  | 1 => t.k1
  | _ => t.k2

/-- Replace element `k` of a triple; there is none from 3 up. -/
def Triple.set {α : Type} (t : Triple α) (k : Nat) (v : α) : Triple α :=
  match k with
  | 0 => { t with k0 := v }
  | 1 => { t with k1 := v }
  | 2 => { t with k2 := v }
  | _ => t

/-- All three elements alike. -/
def Triple.const {α : Type} (v : α) : Triple α := ⟨v, v, v⟩

/-- `pos[o]`. -/
def Positions.get (p : Positions) : Obj → Fin Config.width
  | .p0 => p.p0
  | .p1 => p.p1
  | .m0 => p.m0
  | .m1 => p.m1
  | .bl => p.bl

/-- `pos[o] <- v`. -/
def Positions.set (p : Positions) (o : Obj) (v : Fin Config.width) : Positions :=
  match o with
  | .p0 => { p with p0 := v }
  | .p1 => { p with p1 := v }
  | .m0 => { p with m0 := v }
  | .m1 => { p with m1 := v }
  | .bl => { p with bl := v }

/-- `slot[o][k]`; the ball has one slot (R37). -/
def Slots.get (t : Slots) (o : Obj) (k : Nat) : Byte :=
  match o with
  | .p0 => t.p0.get k
  | .p1 => t.p1.get k
  | .m0 => t.m0.get k
  | .m1 => t.m1.get k
  | .bl => t.bl

/-- `slot[o][k] <- v`. -/
def Slots.set (t : Slots) (o : Obj) (k : Nat) (v : Byte) : Slots :=
  match o with
  | .p0 => { t with p0 := t.p0.set k v }
  | .p1 => { t with p1 := t.p1.set k v }
  | .m0 => { t with m0 := t.m0.set k v }
  | .m1 => { t with m1 := t.m1.set k v }
  | .bl => if k = 0 then { t with bl := v } else t

/-! ### `COPY_TABLE` (R305) -/

/-- The copies' offsets of a copy mode, `u[2:0]` of NUSIZ (R305). -/
def copyOffsets (mode : Nat) : List Nat :=
  match mode with
  | 0 => [0]
  | 1 => [0, 16]
  | 2 => [0, 32]
  | 3 => [0, 16, 32]
  | 4 => [0, 64]
  | 5 => [0]
  | 6 => [0, 32, 64]
  | _ => [0]

/-- The player pixel width of a copy mode (R305). -/
def playerScale (mode : Nat) : Nat :=
  match mode with
  | 5 => 2
  | 7 => 4
  | _ => 1

/-- Bits 2..0 of a NUSIZ byte. -/
def copyMode (u : Byte) : Nat := u.toNat % 8

/-- The missile or ball pixel width, `1 << u[5:4]` (R305, R355). -/
def runWidth (u : Byte) : Nat := 2 ^ (u.toNat / 16 % 4)

/-- The size and copies register of an object (R305): NUSIZ0 for P0 and M0, NUSIZ1 for P1 and M1; the ball has none. -/
def nusizOf (o : Obj) (s : State) : Byte :=
  match o with
  | .p0 | .m0 => readReg .nusiz0 s
  | .p1 | .m1 => readReg .nusiz1 s
  | .bl => 0

/-- `off(o, 0), off(o, 1), ...`, as many as the object has copies (R305). -/
def offsetsOf (o : Obj) (s : State) : List Nat :=
  match o with
  | .bl => [0]
  | o => copyOffsets (copyMode (nusizOf o s))

/-- The start pixel of a copy, `(pos[o] + off) mod WIDTH` (R325, R353). -/
def copyStart (o : Obj) (off : Nat) (s : State) : Nat := ((s.video.pos.get o).val + off) % Config.width

end Sys2Proof.Machine
end

