-- ==== Sys2Proof/Machine/VideoWrite.lean ====
section
/-! DEFINITION. The VideoChip's register-write handlers, the accumulation phase (46_video_write_handlers.md, R300 to
R337). Each handler reads the byte just stored from `mem`, not a value passed to it (R300), and sees the cycle counter at
the end of the writing instruction (R306). -/

namespace Sys2Proof.Machine

/-- `pos[o] <- x mod WIDTH`. -/
def setPos (o : Obj) (x : Int) (s : State) : State := onVideo (fun v => { v with pos := v.pos.set o (wrapPos x) }) s

/-- `slot[o][k] <- v`. -/
def setSlot (o : Obj) (k : Nat) (b : Byte) (s : State) : State :=
  onVideo (fun v => { v with slots := v.slots.set o k b }) s

/-- The beam pixel `b = c - 68` (R306): negative during blanking. -/
def beam (s : State) : Int := (s.cyc : Int) - (Config.hblank : Int)

/-- +5 for players, nothing for missiles and ball (R319). -/
def resetAdjust : Obj → Int
  | .p0 | .p1 => Config.playerAdj
  | .m0 | .m1 | .bl => 0

/-- `ResetPos(o)` (R319): clamp, then adjust, then reduce. -/
def resetPos (o : Obj) (s : State) : State := setPos o (max (beam s) Config.posMin + resetAdjust o) s

/-- `LatchGfx(o, v)` (R325) over the copies `offs` from slot `k` on: a slot takes the byte when the beam has not passed
its start pixel. -/
def latchFrom (o : Obj) (b : Byte) (s : State) : Nat → List Nat → State → State
  | _, [], t => t
  | k, off :: offs, t =>
    latchFrom o b s (k + 1) offs (if beam s ≤ (copyStart o off s : Int) then setSlot o k b t else t)

/-- `LatchGfx(o, v)` (R325), with the copies decoded now. -/
def latchGfx (o : Obj) (b : Byte) (s : State) : State := latchFrom o b s 0 (offsetsOf o s) s

/-- VSYNC (R301): the falling edge ends the frame. -/
def handleVsync (v : Byte) (s : State) : State :=
  onVideo
    (fun w =>
      if w.vsyncPrev ≠ 0 ∧ v = 0 then
        { w with frameComplete := true, frameCount := w.frameCount + 1, line := Config.lineReset, vsyncPrev := v }
      else { w with vsyncPrev := v })
    s

/-- WSYNC (R303): "forces the shared cycle counter to the end-of-line value immediately". -/
def handleWsync (s : State) : State := { s with cyc := Config.lineCycles }

/-- COLUBK (R310): append to the background timeline. -/
def handleColubk (v : Byte) (s : State) : State :=
  onVideo (fun w => { w with bg := { w.bg with later := w.bg.later ++ [⟨s.cyc, v⟩] } }) s

/-- CTRLPF (R311): the mirror bit, only before the half-line threshold. -/
def handleCtrlpf (v : Byte) (s : State) : State :=
  if s.cyc < Config.mirrorT then onVideo (fun w => { w with mirror := testBit v 0 }) s else s

/-- PF0, PF1, PF2 (R313): both halves, the right half only, or nothing, by the register's two thresholds. -/
def handlePlayfield (r : Nat) (v : Byte) (s : State) : State :=
  if s.cyc < Config.pfTLeft.getD r 0 then
    onVideo (fun w => { w with pfLeft := w.pfLeft.set r v, pfRight := w.pfRight.set r v }) s
  else if s.cyc < Config.pfTRight.getD r 0 then onVideo (fun w => { w with pfRight := w.pfRight.set r v }) s
  else s

/-- RESMP0, RESMP1 (R333, R334): the missile to its player's position plus the OPEN offset, when bit 1 is set. -/
def handleResmp (missile player : Obj) (v : Byte) (s : State) : State :=
  if testBit v 1 then setPos missile ((s.video.pos.get player).val + Config.resmpOffset) s else s

/-- One object's part of HMOVE (R335): add the signed high nibble of its motion register. -/
def moveObj (o : Obj) (r : VReg) (s : State) : State :=
  setPos o ((s.video.pos.get o).val + Config.hmoveSign * snibHi (readReg r s)) s

/-- HMOVE (R335): all five objects; the motion registers are not changed. -/
def handleHmove (s : State) : State :=
  moveObj .bl .hmbl (moveObj .m1 .hmm1 (moveObj .m0 .hmm0 (moveObj .p1 .hmp1 (moveObj .p0 .hmp0 s))))

/-- Store zeroes to a list of cells, directly (R76). -/
def zeroCells (cells : List Addr) (s : State) : State := cells.foldl (fun t a => writeCell a 0 t) s

/-- HMCLR (R336): "clear-motion zeroes the five motion registers". -/
def handleHmclr (s : State) : State := zeroCells ([.hmp0, .hmp1, .hmm0, .hmm1, .hmbl].map vregAddr) s

/-- The eight collision-latch cells (R45). -/
def latchCells : List Addr := (List.range 8).map (fun i => BitVec.ofNat 13 (Config.cxBase + i))

/-- CXCLR (R337): "clear-collision zeroes the collision-latch byte region". -/
def handleCxclr (s : State) : State := zeroCells latchCells s

/-- The handler of a register, with `v` the byte in its cell. The registers of R302, R304 and R312 have none. -/
def handleReg (r : VReg) (v : Byte) (s : State) : State :=
  match r with
  | .vsync => handleVsync v s
  | .wsync => handleWsync s
  | .colubk => handleColubk v s
  | .ctrlpf => handleCtrlpf v s
  | .pf0 => handlePlayfield 0 v s
  | .pf1 => handlePlayfield 1 v s
  | .pf2 => handlePlayfield 2 v s
  | .resp0 => resetPos .p0 s
  | .resp1 => resetPos .p1 s
  | .resm0 => resetPos .m0 s
  | .resm1 => resetPos .m1 s
  | .resbl => resetPos .bl s
  | .grp0 => latchGfx .p0 v s
  | .grp1 => latchGfx .p1 v s
  | .enam0 => latchGfx .m0 v s
  | .enam1 => latchGfx .m1 v s
  | .enabl => latchGfx .bl v s
  | .resmp0 => handleResmp .m0 .p0 v s
  | .resmp1 => handleResmp .m1 .p1 v s
  | .hmove => handleHmove s
  | .hmclr => handleHmclr s
  | .cxclr => handleCxclr s
  -- no handler: R302
  | .vblank | .audc0 | .audc1 | .audf0 | .audf1 | .audv0 | .audv1 | .vdelp0 | .vdelp1 | .vdelbl => s
  -- no effect: R304
  | .rsync => s
  -- sampled when used: R312
  | .nusiz0 | .nusiz1 | .colup0 | .colup1 | .colupf | .refp0 | .refp1 | .hmp0 | .hmp1 | .hmm0 | .hmm1 | .hmbl => s

/-- `VideoChip.write(a)` (R300). -/
def videoWrite (a : Addr) (s : State) : State :=
  match vregAt a with
  | none => s
  | some r => handleReg r (readCell a s) s

end Sys2Proof.Machine
end

