-- ==== Sys2Proof/Machine/VideoCommit.lean ====
section
/-! DEFINITION. The VideoChip's end-of-line commit: masks, collisions, painting, row delivery, line and cycle counters,
re-latch (47_video_line_commit.md, R350 to R365). -/

namespace Sys2Proof.Machine

/-- A mask, asked for one pixel of 0..159 (R18). -/
abbrev Mask := Nat → Bool

/-- The six layers that have a mask (R356). -/
inductive Layer
  | p0 | p1 | m0 | m1 | bl | pf
  deriving DecidableEq, Repr

/-- A line is visible (R32). -/
def visible (v : Video) : Bool := decide (Config.visFirst ≤ v.line) && decide (v.line < Config.visLast)

/-! ### Step 1: the playfield mask (R351) -/

/-- `Bits20(p0, p1, p2)[j]` (R351): PF0 bits 4 to 7, PF1 bits 7 down to 0, PF2 bits 0 up to 7. -/
def playfieldBit (t : Triple Byte) (j : Nat) : Bool :=
  if j < 4 then testBit t.k0 (4 + j)
  else if j < 12 then testBit t.k1 (7 - (j - 4))
  else testBit t.k2 (j - 12)

/-- `maskPF` (R351). -/
def playfieldMask (v : Video) : Mask := fun x =>
  if x < 80 then playfieldBit v.pfLeft (x / 4)
  else if v.mirror then playfieldBit v.pfRight (19 - (x - 80) / 4)
  else playfieldBit v.pfRight ((x - 80) / 4)

/-! ### Step 2: the object masks (R352 to R355) -/

/-- The pixels `Stamp(mask, start, bits, w)` sets (R352): bit `i` covers `w` pixels from `start + i*w`, modulo 160. -/
def stamp (start : Nat) (bits : List Bool) (w : Nat) : Mask := fun x =>
  (List.range bits.length).any fun i =>
    bits.getD i false && (List.range w).any fun j => (start + i * w + j) % Config.width == x

/-- The eight pixels of a player's graphics byte, bit 7 first unless reflected (R353). -/
def playerBits (g : Byte) (reflected : Bool) : List Bool :=
  (List.range 8).map fun i => if reflected then testBit g i else testBit g (7 - i)

/-- What an object draws for a slot byte (R353 to R355): a player its pattern, a missile or the ball one solid run when
bit 1 is set. -/
def slotBits (o : Obj) (g : Byte) (s : State) : List Bool :=
  match o with
  | .p0 => playerBits g (testBit (readReg .refp0 s) 3)
  | .p1 => playerBits g (testBit (readReg .refp1 s) 3)
  | .m0 | .m1 | .bl => [testBit g 1]

/-- The pixel width of an object (R305, R353 to R355). -/
def pixelWidth (o : Obj) (s : State) : Nat :=
  match o with
  | .p0 | .p1 => playerScale (copyMode (nusizOf o s))
  | .m0 | .m1 => runWidth (nusizOf o s)
  | .bl => runWidth (readReg .ctrlpf s)

/-- The copies of an object from slot `k` on, each stamped and ORed (R352). -/
def copiesMask (o : Obj) (s : State) : Nat → List Nat → Mask
  | _, [] => fun _ => false
  | k, off :: offs => fun x =>
    stamp (copyStart o off s) (slotBits o (s.video.slots.get o k) s) (pixelWidth o s) x || copiesMask o s (k + 1) offs x

/-- An object's mask (R353 to R355). -/
def objectMask (o : Obj) (s : State) : Mask := copiesMask o s 0 (offsetsOf o s)

/-- The six masks (R356). -/
def masks (s : State) : Layer → Mask
  | .p0 => objectMask .p0 s
  | .p1 => objectMask .p1 s
  | .m0 => objectMask .m0 s
  | .m1 => objectMask .m1 s
  | .bl => objectMask .bl s
  | .pf => playfieldMask s.video

/-! ### Step 3: the collision latches (R357) -/

/-- One of the 15 pairs: two layers, the latch cell's offset from `CX_BASE`, the bit. -/
structure Pair where
  a : Layer
  b : Layer
  cell : Nat
  bit : Nat
  deriving DecidableEq, Repr

/-- The 15 pairs and their latch bits (R357). -/
def pairs : List Pair :=
  [⟨.m0, .p1, 0, 7⟩, ⟨.m0, .p0, 0, 6⟩, ⟨.m1, .p0, 1, 7⟩, ⟨.m1, .p1, 1, 6⟩,
    ⟨.p0, .pf, 2, 7⟩, ⟨.p0, .bl, 2, 6⟩, ⟨.p1, .pf, 3, 7⟩, ⟨.p1, .bl, 3, 6⟩,
    ⟨.m0, .pf, 4, 7⟩, ⟨.m0, .bl, 4, 6⟩, ⟨.m1, .pf, 5, 7⟩, ⟨.m1, .bl, 5, 6⟩,
    ⟨.bl, .pf, 6, 7⟩, ⟨.p0, .p1, 7, 7⟩, ⟨.m0, .m1, 7, 6⟩]

/-- The latch cell of a pair. -/
def pairCell (p : Pair) : Addr := BitVec.ofNat 13 (Config.cxBase + p.cell)

/-- Two masks share a pixel of the line. -/
def overlaps (a b : Mask) : Bool := (List.range Config.width).any fun x => a x && b x

/-- Set a pair's latch bit when its masks overlap; otherwise the bit stays as it was. -/
def latchPair (ms : Layer → Mask) (s : State) (p : Pair) : State :=
  if overlaps (ms p.a) (ms p.b) then
    writeCell (pairCell p) (readCell (pairCell p) s ||| BitVec.ofNat 8 (2 ^ p.bit)) s
  else s

/-- `LatchCollisions(masks)` (R357). -/
def latchCollisions (ms : Layer → Mask) (s : State) : State := pairs.foldl (latchPair ms) s

/-! ### Step 4: paint (R358) -/

/-- The background colour byte at a pixel: the last entry, in recorded order, that starts at or before it. -/
def backgroundAt (bg : Timeline) (x : Nat) : Byte :=
  bg.later.foldl (fun c e => if e.off - Config.hblank ≤ x then e.col else c) bg.first

/-- The playfield's colour byte: COLUPF, or with the score bit the player colour of the half. -/
def playfieldColour (s : State) (x : Nat) : Byte :=
  if testBit (readReg .ctrlpf s) 1 then (if x < 80 then readReg .colup0 s else readReg .colup1 s)
  else readReg .colupf s

/-- The colour byte of a pixel after all layers, "later layers overwrite earlier ones at the same pixel". -/
def colourAt (ms : Layer → Mask) (s : State) (x : Nat) : Byte :=
  let c := backgroundAt s.video.bg x
  let c := if ms .pf x then playfieldColour s x else c
  let c := if ms .bl x then readReg .colupf s else c
  let c := if ms .m1 x then readReg .colup1 s else c
  let c := if ms .m0 x then readReg .colup0 s else c
  let c := if ms .p1 x then readReg .colup1 s else c
  if ms .p0 x then readReg .colup0 s else c

/-- `Col(v) = PALETTE[v >> 1]` (R358). -/
def col (v : Byte) : RGB := Config.palette ((v >>> 1).setWidth 7)

/-- `Paint(masks)` (R358). -/
def paint (ms : Layer → Mask) (s : State) : Row := Vector.ofFn fun x => col (colourAt ms s x.val)

/-! ### Steps 5 and 6 -/

/-- `Relatch()` (R361): the next line starts from the persistent register values. -/
def relatch (s : State) : State :=
  onVideo
    (fun v =>
      { v with
        pfLeft := ⟨readReg .pf0 s, readReg .pf1 s, readReg .pf2 s⟩
        pfRight := ⟨readReg .pf0 s, readReg .pf1 s, readReg .pf2 s⟩
        mirror := testBit (readReg .ctrlpf s) 0
        slots :=
          { p0 := Triple.const (readReg .grp0 s)
            p1 := Triple.const (readReg .grp1 s)
            m0 := Triple.const (readReg .enam0 s)
            m1 := Triple.const (readReg .enam1 s)
            bl := readReg .enabl s }
        bg := { first := readReg .colubk s, later := [] } })
    s

/-- Deliver a row (R359): `frame[line - VIS_FIRST]`. -/
def deliverRow (row : Row) (s : State) : State :=
  onVideo (fun v => { v with frame := v.frame.setIfInBounds (v.line - Config.visFirst) row }) s

/-- Steps 1 to 4 of the commit of a visible line (R350). -/
def renderLine (s : State) : State :=
  let ms := masks s
  let t := latchCollisions ms s
  deliverRow (paint ms t) t

/-- Step 5 (R360): the next line; the overshoot of the cycle counter is kept. -/
def nextLine (s : State) : State :=
  { onVideo (fun v => { v with line := v.line + 1 }) s with cyc := s.cyc % Config.lineCycles }

/-- `line_update()` (R350). -/
def lineUpdate (s : State) : State := relatch (nextLine (if visible s.video then renderLine s else s))

end Sys2Proof.Machine
end

