-- ==== Sys2Proof/Machine/Arbiter.lean ====
section
/-! DEFINITION. Fetch, and the Arbiter's sequence after the Processor's step (R131, R390). -/

namespace Sys2Proof.Machine

/-- The instruction at `PC` (R78, R100, R131): its bytes are at `PC`, `PC+1`, `PC+2` modulo 65536, each masked. Reads
have no side effect (R74), so bytes beyond the instruction's length change nothing. -/
def fetchInstr (s : State) : Instr := decode3 (memRead s.pc s) (memRead (s.pc + 1) s) (memRead (s.pc + 2) s)

/-- Store three bytes where the next fetch reads, and nothing else but a cleared `halted`, without which nothing is
fetched: the test bench's load of one instruction (log 4). -/
def placeBytes (bytes : List Byte) (s : State) : State :=
  let t := writeCell (maskAddr s.pc) (bytes.getD 0 0) { s with halted := none }
  let t := writeCell (maskAddr (s.pc + 1)) (bytes.getD 1 0) t
  writeCell (maskAddr (s.pc + 2)) (bytes.getD 2 0) t

/-- Dispatch of a pending video write: the signal is cleared, then the handler runs (R390). -/
def dispatchVideo (s : State) : State :=
  match s.vidPending with
  | some sig => videoWrite sig.addr { s with vidPending := none }
  | none => s

/-- Dispatch of a pending timer write (R390). -/
def dispatchTimer (s : State) : State :=
  match s.timPending with
  | some sig => timerWrite sig.addr { s with timPending := none }
  | none => s

/-- The line check (R390): "the driver's cycle-budget check immediately triggers `line_update()`". -/
def checkLine (s : State) : State := if Config.lineCycles ≤ s.cyc then lineUpdate s else s

/-- The rest of an iteration after a step that returned `n` (R390): video write, timer tick, timer write, host, line
check. -/
def arbitrate (n : Nat) (s : State) : State :=
  checkLine (serveFrame (dispatchTimer (timerTick n (dispatchVideo s))))

/-- What follows the Processor's step (R390): nothing after a fatal halt, else the Arbiter's sequence with the cost the
step returned. -/
def afterStep (s : State) : State :=
  match s.halted with
  | some _ => s
  | none => arbitrate s.stepCost s

end Sys2Proof.Machine
end

