-- ==== Sys2Proof/Machine/Operands.lean ====
section
/-! DEFINITION. The addressing-mode engine: what each operand form resolves to, its page-cross flag, and the `Load` and
`Store` of a resolved operand (R133, R140 to R153). -/

namespace Sys2Proof.Machine

/-- A resolved data operand (R133): `Acc`, `Imm(v)` or `Addr(ea)`. The shapes `None` and `Rel(d)` of R133 belong to
instructions without a data operand and to branches. -/
inductive Resolved
  | acc
  | imm (v : Byte)
  | addr (ea : Word)
  deriving DecidableEq, Repr

/-- The little-endian pointer at a zero-page address, its second byte fetched from inside the zero page (R150, R151). -/
def zeroPagePointer (p : Byte) (s : State) : Word := joinLE (memRead (zext p) s) (memRead (zext (p + 1)) s)

/-- The pointer of an indirect jump with the same-page wrap (R149): "the high byte of the pointer is fetched from
`(ptr & 0xFF00) | ((ptr+1) & 0xFF)`, not from a naive +1". -/
def jumpPointer (ptr : Word) (s : State) : Word :=
  joinLE (memRead ptr s) (memRead ((ptr &&& 0xFF00) ||| ((ptr + 1) &&& 0x00FF)) s)

/-- Page-cross detection of a base and an index byte (R153). -/
def pageCross (base : Word) (index : Byte) : Bool := decide (0xFF < (lo8 base).toNat + index.toNat)

/-- What an operand form resolves to (R141 to R148, R150, R151). -/
def resolve (m : Operand) (s : State) : Resolved :=
  match m with
  | .acc => .acc
  | .imm v => .imm v
  | .zp z => .addr (zext z)
  | .zpx z => .addr (zext (z + s.x))
  | .zpy z => .addr (zext (z + s.y))
  | .abs w => .addr w
  | .abx w => .addr (w + zext s.x)
  | .aby w => .addr (w + zext s.y)
  | .izx z => .addr (zeroPagePointer (z + s.x) s)
  | .izy z => .addr (zeroPagePointer z s + zext s.y)

/-- Whether resolving an operand form crosses a page: true only for ABX, ABY and IZY (R134, R153). -/
def crossed (m : Operand) (s : State) : Bool :=
  match m with
  | .abx w => pageCross w s.x
  | .aby w => pageCross w s.y
  | .izy z => pageCross (zeroPagePointer z s) s.y
  | .acc | .imm _ | .zp _ | .zpx _ | .zpy _ | .abs _ | .izx _ => false

/-- `Load(opd)` (R133). -/
def load (o : Resolved) (s : State) : Byte :=
  match o with
  | .acc => s.a
  | .imm v => v
  | .addr ea => memRead ea s

/-- `Store(opd, v)` (R133), defined for `Acc` and `Addr(ea)`; the opcode table has no storing instruction with an
immediate operand, and such a term is refused before it gets here. -/
def store (o : Resolved) (v : Byte) (s : State) : State :=
  match o with
  | .acc => setA v s
  | .imm _ => s
  | .addr ea => memWrite ea v s

/-- The target of JMP (R146, R149, R230). -/
def jumpTarget (t : JumpOperand) (s : State) : Word :=
  match t with
  | .abs w => w
  | .ind ptr => jumpPointer ptr s

end Sys2Proof.Machine
end

