-- ==== Sys2Proof/Machine/Execute.lean ====
section
/-! DEFINITION. The Processor's step after decode (R130): the frame every meaning plugs its operation into. -/

namespace Sys2Proof.Machine

/-- The outcome of a meaning. -/
abbrev Result := Host.Outcome State Fault Refusal

/-- The cost of an instruction (R134): base cost, extra cycles of the operation, one cycle for a page cross when the
entry's flag is set. -/
def totalCost (e : Entry) (crossed : Bool) (extra : Nat) : Nat := e.cycles + extra + b2n (e.pageCross && crossed)

/-- The end of a step (R135, R136): `cyc` grows by three times the cost, and the cost is returned. -/
def charge (total : Nat) (s : State) : State :=
  { s with cyc := s.cyc + Config.clockRatio * total, stepCost := total }

/-- "Advance PC by the instruction length *before* executing the operation" (R132). -/
def advancePC (length : Nat) (s : State) : State := setPC (s.pc + BitVec.ofNat 16 length) s

/-- One instruction (R130) with its page-cross flag and its operation, which returns the extra cycles and the state;
a term the opcode table has no entry for is refused. -/
def perform (i : Instr) (crossed : Bool) (op : State → Nat × State) (s : State) : Result :=
  match i.entry? with
  | none => .refused .noSuchForm
  | some e => .next (charge (totalCost e crossed (op (advancePC e.length s)).1) (op (advancePC e.length s)).2)

/-- An instruction without operand. -/
def performImplied (i : Instr) (op : State → State) (s : State) : Result := perform i false (fun t => (0, op t)) s

/-- An instruction with a data operand, resolved before `PC` advances (R130). -/
def performData (i : Instr) (m : Operand) (op : Resolved → State → State) (s : State) : Result :=
  perform i (crossed m s) (fun t => (0, op (resolve m s) t)) s

/-- An instruction that reads its operand and acts on the byte. -/
def performLoad (i : Instr) (m : Operand) (op : Byte → State → State) (s : State) : Result :=
  performData i m (fun o t => op (load o t) t) s

end Sys2Proof.Machine
end

