-- ==== Sys2Proof/Machine/Arith.lean ====
section
/-! DEFINITION. Arithmetic, logic, compare and bit-test instructions (42_arithmetic_logic.md, R180 to R188). -/

namespace Sys2Proof.Machine

/-- Put an arithmetic result into `A` with its flags (R180, R181). -/
def setAlu (r : Alu) (s : State) : State := setFlags (aluFlags r s.flags) (setA r.value s)

/-- ADC (R180), binary whatever D is. -/
def execAdc (m : Operand) (s : State) : Result :=
  performLoad (.adc m) m (fun v t => setAlu (addWithCarry t.a v t.flags.c) t) s

/-- SBC (R181), binary whatever D is. -/
def execSbc (m : Operand) (s : State) : Result :=
  performLoad (.sbc m) m (fun v t => setAlu (subWithBorrow t.a v t.flags.c) t) s

/-- AND (R182). -/
def execAnd (m : Operand) (s : State) : Result :=
  performLoad (.and m) m (fun v t => markNZ (t.a &&& v) (setA (t.a &&& v) t)) s

/-- ORA (R183). -/
def execOra (m : Operand) (s : State) : Result :=
  performLoad (.ora m) m (fun v t => markNZ (t.a ||| v) (setA (t.a ||| v) t)) s

/-- EOR (R184). -/
def execEor (m : Operand) (s : State) : Result :=
  performLoad (.eor m) m (fun v t => markNZ (t.a ^^^ v) (setA (t.a ^^^ v) t)) s

/-- CMP (R185). -/
def execCmp (m : Operand) (s : State) : Result :=
  performLoad (.cmp m) m (fun v t => setFlags (compareFlags t.a v t.flags) t) s

/-- CPX (R186). -/
def execCpx (m : Operand) (s : State) : Result :=
  performLoad (.cpx m) m (fun v t => setFlags (compareFlags t.x v t.flags) t) s

/-- CPY (R187). -/
def execCpy (m : Operand) (s : State) : Result :=
  performLoad (.cpy m) m (fun v t => setFlags (compareFlags t.y v t.flags) t) s

/-- BIT (R188). -/
def execBit (m : Operand) (s : State) : Result :=
  performLoad (.bit m) m (fun v t => setFlags (bitFlags t.a v t.flags) t) s

end Sys2Proof.Machine
end

