-- ==== Sys2Proof/Machine/Control.lean ====
section
/-! DEFINITION. Control-transfer instructions (44_control_flow.md, R230 to R243). -/

namespace Sys2Proof.Machine

/-- JMP (R230). -/
def execJmp (target : JumpOperand) (s : State) : Result :=
  performImplied (.jmp target) (fun t => setPC (jumpTarget target t) t) s

/-- JSR (R231): the advanced `PC` minus one is pushed, high byte first. -/
def execJsr (target : Word) (s : State) : Result :=
  performImplied (.jsr target) (fun t => setPC target (pushWord (t.pc - 1) t)) s

/-- RTS (R232). -/
def execRts (s : State) : Result := performImplied .rts pullReturn s

/-- RTI (R233). -/
def execRti (s : State) : Result := performImplied .rti returnFromInterrupt s

/-- BRK (R234). -/
def execBrk (s : State) : Result := performImplied .brk enterSoftwareInterrupt s

/-- The target of a branch from the advanced `PC` (R235): the 16-bit sum wraps. -/
def branchTarget (old : Word) (offset : Byte) : Word := BitVec.ofInt 16 (old.toNat + sext8 offset)

/-- `Branch(cond, d)` (R235) on the advanced `PC`: no extra cycle when not taken, one when taken, two when the target
lies in another page. -/
def branch (cond : Bool) (offset : Byte) (t : State) : Nat × State :=
  if cond then (1 + b2n (hi8 t.pc != hi8 (branchTarget t.pc offset)), setPC (branchTarget t.pc offset) t)
  else (0, t)

/-- BCC (R236). -/
def execBcc (offset : Byte) (s : State) : Result := perform (.bcc offset) false (fun t => branch (!t.flags.c) offset t) s

/-- BCS (R237). -/
def execBcs (offset : Byte) (s : State) : Result := perform (.bcs offset) false (fun t => branch t.flags.c offset t) s

/-- BEQ (R238). -/
def execBeq (offset : Byte) (s : State) : Result := perform (.beq offset) false (fun t => branch t.flags.z offset t) s

/-- BNE (R239). -/
def execBne (offset : Byte) (s : State) : Result := perform (.bne offset) false (fun t => branch (!t.flags.z) offset t) s

/-- BMI (R240). -/
def execBmi (offset : Byte) (s : State) : Result := perform (.bmi offset) false (fun t => branch t.flags.n offset t) s

/-- BPL (R241). -/
def execBpl (offset : Byte) (s : State) : Result := perform (.bpl offset) false (fun t => branch (!t.flags.n) offset t) s

/-- BVC (R242). -/
def execBvc (offset : Byte) (s : State) : Result := perform (.bvc offset) false (fun t => branch (!t.flags.v) offset t) s

/-- BVS (R243). -/
def execBvs (offset : Byte) (s : State) : Result := perform (.bvs offset) false (fun t => branch t.flags.v offset t) s

end Sys2Proof.Machine
end

