-- ==== Sys2Proof/Machine/LoadStore.lean ====
section
/-! DEFINITION. Load, store and register-transfer instructions (41_load_store_transfer.md, R160 to R171). -/

namespace Sys2Proof.Machine

/-- LDA (R160). -/
def execLda (m : Operand) (s : State) : Result := performLoad (.lda m) m (fun v t => markNZ v (setA v t)) s

/-- LDX (R161). -/
def execLdx (m : Operand) (s : State) : Result := performLoad (.ldx m) m (fun v t => markNZ v (setX v t)) s

/-- LDY (R162). -/
def execLdy (m : Operand) (s : State) : Result := performLoad (.ldy m) m (fun v t => markNZ v (setY v t)) s

/-- STA (R163). -/
def execSta (m : Operand) (s : State) : Result := performData (.sta m) m (fun o t => store o t.a t) s

/-- STX (R164). -/
def execStx (m : Operand) (s : State) : Result := performData (.stx m) m (fun o t => store o t.x t) s

/-- STY (R165). -/
def execSty (m : Operand) (s : State) : Result := performData (.sty m) m (fun o t => store o t.y t) s

/-- TAX (R166). -/
def execTax (s : State) : Result := performImplied .tax (fun t => markNZ t.a (setX t.a t)) s

/-- TAY (R167). -/
def execTay (s : State) : Result := performImplied .tay (fun t => markNZ t.a (setY t.a t)) s

/-- TXA (R168). -/
def execTxa (s : State) : Result := performImplied .txa (fun t => markNZ t.x (setA t.x t)) s

/-- TYA (R169). -/
def execTya (s : State) : Result := performImplied .tya (fun t => markNZ t.y (setA t.y t)) s

/-- TSX (R170), "the only way to read `SP`". -/
def execTsx (s : State) : Result := performImplied .tsx (fun t => markNZ t.sp (setX t.sp t)) s

/-- TXS (R171), "the one transfer that leaves Z and N alone". -/
def execTxs (s : State) : Result := performImplied .txs (fun t => setSP t.x t) s

end Sys2Proof.Machine
end

