-- ==== Sys2Proof/Machine/Shift.lean ====
section
/-! DEFINITION. Shift, rotate, increment and decrement instructions (43_shift_rotate_incdec.md, R210 to R220). -/

namespace Sys2Proof.Machine

/-- Read the operand, store the shifted byte, set C, Z and N (R210 to R213): one read, one write (R220). -/
def applyShift (f : Byte → Bool → Shifted) (o : Resolved) (t : State) : State :=
  let r := f (load o t) t.flags.c
  setFlags (shiftFlags r t.flags) (store o r.value t)

/-- Read the operand, store the changed byte, set Z and N (R214, R215): one read, one write (R220). -/
def applyStep (f : Byte → Byte) (o : Resolved) (t : State) : State :=
  let r := f (load o t)
  markNZ r (store o r t)

/-- ASL (R210). -/
def execAsl (m : Operand) (s : State) : Result := performData (.asl m) m (applyShift shiftLeft) s

/-- LSR (R211). -/
def execLsr (m : Operand) (s : State) : Result := performData (.lsr m) m (applyShift shiftRight) s

/-- ROL (R212). -/
def execRol (m : Operand) (s : State) : Result := performData (.rol m) m (applyShift rotateLeft) s

/-- ROR (R213). -/
def execRor (m : Operand) (s : State) : Result := performData (.ror m) m (applyShift rotateRight) s

/-- INC (R214). -/
def execInc (m : Operand) (s : State) : Result := performData (.inc m) m (applyStep (· + 1)) s

/-- DEC (R215). -/
def execDec (m : Operand) (s : State) : Result := performData (.dec m) m (applyStep (· - 1)) s

/-- INX (R216). -/
def execInx (s : State) : Result := performImplied .inx (fun t => markNZ (t.x + 1) (setX (t.x + 1) t)) s

/-- INY (R217). -/
def execIny (s : State) : Result := performImplied .iny (fun t => markNZ (t.y + 1) (setY (t.y + 1) t)) s

/-- DEX (R218). -/
def execDex (s : State) : Result := performImplied .dex (fun t => markNZ (t.x - 1) (setX (t.x - 1) t)) s

/-- DEY (R219). -/
def execDey (s : State) : Result := performImplied .dey (fun t => markNZ (t.y - 1) (setY (t.y - 1) t)) s

end Sys2Proof.Machine
end

