-- ==== Sys2Proof/Machine/StackFlags.lean ====
section
/-! DEFINITION. Stack, flag, no-operation and illegal-opcode instructions (45_stack_flags_system.md, R260 to R272). -/

namespace Sys2Proof.Machine

/-- PHA (R260). -/
def execPha (s : State) : Result := performImplied .pha (fun t => push t.a t) s

/-- PLA (R261). -/
def execPla (s : State) : Result :=
  performImplied .pla (fun t => markNZ (pull t).1 (setA (pull t).1 (pull t).2)) s

/-- PHP (R262): the flag byte with B as stored. -/
def execPhp (s : State) : Result := performImplied .php (fun t => push (pack t.flags) t) s

/-- PLP (R263): all seven flags. -/
def execPlp (s : State) : Result := performImplied .plp (fun t => setFlags (unpack (pull t).1) (pull t).2) s

/-- CLC (R264). -/
def execClc (s : State) : Result := performImplied .clc (fun t => setFlags { t.flags with c := false } t) s

/-- SEC (R265). -/
def execSec (s : State) : Result := performImplied .sec (fun t => setFlags { t.flags with c := true } t) s

/-- CLI (R266). -/
def execCli (s : State) : Result := performImplied .cli (fun t => setFlags { t.flags with i := false } t) s

/-- SEI (R267). -/
def execSei (s : State) : Result := performImplied .sei (fun t => setFlags { t.flags with i := true } t) s

/-- CLD (R268). -/
def execCld (s : State) : Result := performImplied .cld (fun t => setFlags { t.flags with d := false } t) s

/-- SED (R269). -/
def execSed (s : State) : Result := performImplied .sed (fun t => setFlags { t.flags with d := true } t) s

/-- CLV (R270). -/
def execClv (s : State) : Result := performImplied .clv (fun t => setFlags { t.flags with v := false } t) s

/-- NOP (R271): it still advances `PC` by 1 and `cyc` by 6. -/
def execNop (s : State) : Result := performImplied .nop (fun t => t) s

/-- ILL (R272): the fatal halt, with nothing else changed. -/
def execIll (opcode : Byte) (s : State) : Result := .next (raiseFatal opcode s)

end Sys2Proof.Machine
end

