-- ==== Sys2Proof/Machine/Step.lean ====
section
/-! DEFINITION. One step of the machine is one iteration of the Arbiter (R19, R390). -/

namespace Sys2Proof.Machine

/-- `iterate()` (R390): the Processor's step, then the Arbiter's sequence. A halted machine has no step (R29, R393). -/
def step (s : State) : Host.Outcome State Fault Refusal :=
  match s.halted with
  | some d => .fault (.halted d)
  | none =>
    match exec (fetchInstr s) s with
    | .next t => .next (afterStep t)
    | .fault f => .fault f
    | .refused r => .refused r

/-- The state with an instruction of the opcode table stored where `step` fetches next. It stands for the load of a
program from outside (log 4). -/
def State.withFetchWord (s : State) (nbits w : Nat) : State := placeBytes (tableWordBytes nbits w) s

end Sys2Proof.Machine
end

