-- ==== Sys2Proof/Machine/Reset.lean ====
section
/-! DEFINITION. Reset with its arguments (R450 to R452): the image, and every value the spec leaves unspecified. -/

namespace Sys2Proof.Machine

/-- What R450 leaves at "any" value: registers, flags, the cells outside the image, positions, frame buffer, timer
interval; and the host's answers, an argument of the run (R393). -/
structure Unspecified where
  a : Byte
  x : Byte
  y : Byte
  sp : Byte
  flags : Flags
  mem : Memory
  pos : Positions
  frame : Vector Row Config.frameHeight
  pre : Prescaler
  script : List HostAnswer

/-- Copy an image "verbatim" to consecutive addresses (R411). -/
def loadImage : Nat → List Byte → Memory → Memory
  | _, [], m => m
  | at', b :: bs, m => loadImage (at' + 1) bs (m.write at' b)

/-- `reset(MEM0)` (R450): the image into the cartridge window, `PC` from the reset vector (R451), the fixed values, and
the re-latch. An image longer than the window is cut at its end (R411 allows at most 4096 bytes). -/
def boot (image : List Byte) (u : Unspecified) : State :=
  let mem := loadImage Config.romBase (image.take Config.romSize) u.mem
  let s : State :=
    { a := u.a, x := u.x, y := u.y, sp := u.sp, pc := 0, flags := u.flags
      vidPending := none, timPending := none, halted := none, stepCost := 0
      mem := mem, cyc := 0
      video :=
        { line := Config.lineReset
          bg := { first := 0, later := [] }
          pfLeft := Triple.const 0, pfRight := Triple.const 0, mirror := false
          pos := u.pos
          slots := { p0 := Triple.const 0, p1 := Triple.const 0, m0 := Triple.const 0, m1 := Triple.const 0, bl := 0 }
          vsyncPrev := 0, frameComplete := false, frameCount := 0
          frame := u.frame }
      timer := { pre := u.pre, acc := 0 }
      hostPort := { script := u.script, quit := false } }
  relatch (setPC (memRead16 Config.vecReset s) s)

/-- The values `State.reset` takes for what R450 leaves unspecified (log 1, 2, 3, 8). -/
def Unspecified.chosen : Unspecified where
  a := State.reset.a
  x := State.reset.x
  y := State.reset.y
  sp := State.reset.sp
  flags := State.reset.flags
  mem := State.reset.mem
  pos := State.reset.video.pos
  frame := State.reset.video.frame
  pre := State.reset.timer.pre
  script := State.reset.hostPort.script

end Sys2Proof.Machine
end

