-- ==== Sys2Proof/Machine/Run.lean ====
section
/-! DEFINITION. A run and its end (R393, R414). -/

namespace Sys2Proof.Machine

/-- Why a run ended (R393). -/
inductive EndReason
  /-- an illegal opcode, with its diagnostic -/
  | halted (d : Diagnostic)
  /-- the host's frame service returned `quit` -/
  | quit
  /-- the configured number of frames was reached -/
  | maxFrames
  deriving DecidableEq, Repr

/-- The test at the end of an iteration (R393). -/
def endOfRun (maxFrames : Nat) (s : State) : Option EndReason :=
  match s.halted with
  | some d => some (.halted d)
  | none =>
    if s.hostPort.quit then some .quit
    else if s.video.frameCount = maxFrames then some .maxFrames
    else none

/-- The result of a run: ended with the whole state at that point, stopped by a refusal, or still going after the given
number of iterations. -/
inductive RunResult
  | ended (why : EndReason) (s : State)
  | stopped (r : Refusal)
  | going (s : State)

/-- `run(MAX_FRAMES)` from a state (R393), for at most `fuel` iterations: "there is no other end". -/
def run (maxFrames : Nat) : Nat → State → RunResult
  | 0, s => .going s
  | fuel + 1, s =>
    match step s with
    | .next t =>
      match endOfRun maxFrames t with
      | some why => .ended why t
      | none => run maxFrames fuel t
    | .fault (.halted d) => .ended (.halted d) s
    | .refused r => .stopped r

end Sys2Proof.Machine
end

