-- ==== Sys2Proof/Safety.lean ====
section
/-! DEFINITION. What claims about runs are stated with: one step, reachability, the invariant of the states between
iterations, and a safe state. -/

namespace Sys2Proof.Machine

/-- One iteration leads from `s` to `t`. -/
abbrev StepsTo (s t : State) : Prop := step s = .next t

/-- The background timeline between iterations (R33): offsets never decrease, and none lies beyond the beam. -/
def Timeline.ordered (bg : Timeline) (cyc : Nat) : Prop :=
  (bg.later.map (·.off)).Pairwise (· ≤ ·) ∧ ∀ e ∈ bg.later, e.off ≤ cyc

/-- The invariant of the states between iterations: memory in canonical form (R30); the beam before the end of the line
(R31); the timer's remainder below its interval (R42); no signal pending and no frame unserved (R391 b, R392); the
background timeline in order (R33). -/
structure State.Inv (s : State) : Prop where
  mem_wf : s.mem.wf = true
  cyc_lt : s.cyc < Config.lineCycles
  acc_lt : s.timer.acc < s.timer.pre.cycles
  no_video : s.vidPending = none
  no_timer : s.timPending = none
  served : s.video.frameComplete = false
  bg_ordered : s.video.bg.ordered s.cyc

/-- A safe state: the machine has not met an illegal opcode (R421: the only exception). -/
abbrev State.Safe (s : State) : Prop := s.halted = none

/-- The states a run from `s` passes through. -/
inductive Reaches (s : State) : State → Prop
  | refl : Reaches s s
  | step {t u : State} : Reaches s t → StepsTo t u → Reaches s u

end Sys2Proof.Machine
end

