-- ==== Sys2Proof/Certificates/Slice0/Obligations.lean ====
section
/-! DEFINITION. The statements for the provers. `Sys2Proof.Claims` holds the words they are said with; each
`Obligations.<Name>` is one statement. A docstring names the rule a statement formalises, and where the rule is the
spec's own decision (spec/92_eei_decisions.md) or rests on a log entry of this model it says so. -/

namespace Sys2Proof.Claims

open Machine

/-- The length of an instruction in the opcode table. -/
def lengthOf (i : Instr) : Nat := (i.entry?.map (·.length)).getD 0

/-- The cost of R134: base cost, extra cycles, one more for a page cross when the entry's flag is set. -/
def costOf (i : Instr) (cross : Bool) (extra : Nat) : Nat :=
  (i.entry?.map fun e => e.cycles + extra + if e.pageCross && cross then 1 else 0).getD 0

/-- `t` with what every instruction that does not set `PC` itself does: `PC` past its bytes, the cost charged at three
chip cycles each and returned. -/
def completed (i : Instr) (s : State) (cross : Bool) (t : State) : State :=
  { t with
    pc := s.pc + BitVec.ofNat 16 (lengthOf i)
    cyc := s.cyc + 3 * costOf i cross 0
    stepCost := costOf i cross 0 }

/-- `t` with the cost `n` charged and returned. -/
def costing (n : Nat) (t : State) : State := { t with cyc := t.cyc + 3 * n, stepCost := n }

/-- The byte an operand form supplies. -/
def operand (m : Operand) (s : State) : Byte := load (resolve m s) s

/-- The flags with Z and N from a result byte (R14). -/
def nz (r : Byte) (f : Flags) : Flags := { f with z := decide (r = 0), n := decide (128 ≤ r.toNat) }

/-- The flag byte of R26, bit 7 first: N, V, 1, B, D, I, Z, C. -/
def flagByte (f : Flags) : Byte :=
  BitVec.ofBool f.n ++ BitVec.ofBool f.v ++ BitVec.ofBool true ++ BitVec.ofBool f.b ++
    (BitVec.ofBool f.d ++ BitVec.ofBool f.i ++ BitVec.ofBool f.z ++ BitVec.ofBool f.c)

/-- The flags a pulled byte gives (R26). -/
def flagsOf (p : Byte) : Flags :=
  { n := p.getLsbD 7, v := p.getLsbD 6, b := p.getLsbD 4, d := p.getLsbD 3, i := p.getLsbD 2, z := p.getLsbD 1,
    c := p.getLsbD 0 }

/-- The stack cell of a stack pointer, 0x0100 + SP. -/
def stackCell (sp : Byte) : Word := 0x0100 + sp.setWidth 16

/-- The state part of an outcome changed. -/
def mapNext (f : State → State) : Result → Result
  | .next t => .next (f t)
  | .fault e => .fault e
  | .refused r => .refused r

/-- Two states with the same Processor registers and flags, signals, halt and last cost. -/
def SameProcessor (s t : State) : Prop :=
  t.a = s.a ∧ t.x = s.x ∧ t.y = s.y ∧ t.sp = s.sp ∧ t.pc = s.pc ∧ t.flags = s.flags ∧ t.halted = s.halted ∧
    t.stepCost = s.stepCost

/-- Every cell of memory outside a list of addresses reads the same. -/
def SameMemoryOutside (cells : List Addr) (s t : State) : Prop := ∀ a, a ∉ cells → readCell a t = readCell a s

/-- The forms that store nothing: of the shifts the accumulator form, of the others all but STA, STX, STY, INC, DEC, JSR,
BRK, PHA, PHP. -/
def storesNothing (i : Instr) : Bool :=
  if [Mnemonic.asl, .lsr, .rol, .ror].contains i.mnemonic then i.mode == .acc
  else !([Mnemonic.sta, .stx, .sty, .inc, .dec, .jsr, .brk, .pha, .php].contains i.mnemonic)

/-- The conditions of the eight branches on the flags (R236 to R243). -/
def branches (d : Byte) (f : Flags) : List (Instr × Bool) :=
  [(.bcc d, !f.c), (.bcs d, f.c), (.beq d, f.z), (.bne d, !f.z), (.bmi d, f.n), (.bpl d, !f.n), (.bvc d, !f.v),
    (.bvs d, f.v)]

/-- The implied instructions that set or clear one flag (R264 to R270). -/
def flagSetters (f : Flags) : List (Instr × Flags) :=
  [(.clc, { f with c := false }), (.sec, { f with c := true }), (.cli, { f with i := false }),
    (.sei, { f with i := true }), (.cld, { f with d := false }), (.sed, { f with d := true }),
    (.clv, { f with v := false })]

/-- The transfers and the register steps with the register they change and its new value (R166 to R170, R216 to
R219). -/
def registerResults (s : State) : List (Instr × Byte × State) :=
  [(.tax, s.a, { s with x := s.a }), (.tay, s.a, { s with y := s.a }), (.txa, s.x, { s with a := s.x }),
    (.tya, s.y, { s with a := s.y }), (.tsx, s.sp, { s with x := s.sp }), (.inx, s.x + 1, { s with x := s.x + 1 }),
    (.iny, s.y + 1, { s with y := s.y + 1 }), (.dex, s.x - 1, { s with x := s.x - 1 }),
    (.dey, s.y - 1, { s with y := s.y - 1 })]

/-- The shifts and rotates with the result byte and the carry out for an operand byte and the old carry (R210 to
R213), by exact arithmetic. -/
def shiftResults (m : Operand) (v : Byte) (c : Bool) : List (Instr × Nat × Bool) :=
  [(.asl m, 2 * v.toNat % 256, decide (128 ≤ v.toNat)),
    (.lsr m, v.toNat / 2, decide (v.toNat % 2 = 1)),
    (.rol m, (2 * v.toNat + c.toNat) % 256, decide (128 ≤ v.toNat)),
    (.ror m, v.toNat / 2 + 128 * c.toNat, decide (v.toNat % 2 = 1))]

/-- `Store(opd, v)` of R133 for an accumulator or memory operand. -/
def stored (m : Operand) (v : Byte) (s : State) : State :=
  match resolve m s with
  | .addr ea => memWrite ea v s
  | _ => { s with a := v }

/-- What the Arbiter does after a step that did not halt (R390), in its order: a pending video write is cleared and its
handler runs, the timer counts the cost the step returned, a pending timer write is cleared and its handler runs, the
host serves a complete frame, and the line is committed once 228 chip cycles have passed. -/
def afterProcessor (t : State) : State :=
  let video := t.vidPending.elim t fun sig => videoWrite sig.addr { t with vidPending := none }
  let ticked := timerTick t.stepCost video
  let timed := ticked.timPending.elim ticked fun sig => timerWrite sig.addr { ticked with timPending := none }
  let served := serveFrame timed
  if 228 ≤ served.cyc then lineUpdate served else served

/-- `COPY_TABLE` (R305): the copies' offsets and the player's pixel width for the modes 0 to 7. -/
def copyTable : List (List Nat × Nat) :=
  [([0], 1), ([0, 16], 1), ([0, 32], 1), ([0, 16, 32], 1), ([0, 64], 1), ([0], 2), ([0, 32, 64], 1), ([0], 4)]

/-- The row of the copy table that the NUSIZ byte of a cell selects. -/
def copyRow (nusiz : Addr) (s : State) : List Nat × Nat := copyTable.getD ((readCell nusiz s).toNat % 8) ([0], 1)

/-- The offsets of an object's copies (R305). -/
def copiesOf (s : State) : Obj → List Nat
  | .p0 | .m0 => (copyRow 0x04 s).1
  | .p1 | .m1 => (copyRow 0x05 s).1
  | .bl => [0]

/-- The pixel width of a missile or the ball, `1 << u[5:4]` of its cell (R305, R354, R355). -/
def runPixels (cell : Addr) (s : State) : Nat := 2 ^ ((readCell cell s).toNat / 16 % 4)

/-- How many pixels wide an object draws one bit (R305, R353 to R355). -/
def bitPixels (s : State) : Obj → Nat
  | .p0 => (copyRow 0x04 s).2
  | .p1 => (copyRow 0x05 s).2
  | .m0 => runPixels 0x04 s
  | .m1 => runPixels 0x05 s
  | .bl => runPixels 0x0A s

/-- Bit `i` from the left of what an object draws for the byte `g` (R353 to R355): a player bit `7 - i` of it, or bit `i`
with bit 3 of its REFP set; a missile or the ball one bit, bit 1. -/
def drawnBit (s : State) (o : Obj) (g : Byte) (i : Nat) : Bool :=
  match o with
  | .p0 => g.getLsbD (if (readCell 0x0B s).getLsbD 3 then i else 7 - i)
  | .p1 => g.getLsbD (if (readCell 0x0C s).getLsbD 3 then i else 7 - i)
  | .m0 | .m1 | .bl => decide (i = 0) && g.getLsbD 1

/-- Pixel `x` lies in an object's mask (R352 to R355): one of its copies draws a bit whose run of pixels, from the start
pixel on and modulo 160, takes in `x`. -/
def ObjectCovers (s : State) (o : Obj) (x : Nat) : Prop :=
  ∃ k < (copiesOf s o).length, ∃ i < 8, ∃ j < bitPixels s o, drawnBit s o (s.video.slots.get o k) i = true ∧
    x = ((s.video.pos.get o).val + (copiesOf s o).getD k 0 + i * bitPixels s o + j) % 160

/-- The 20 playfield bits of a half from the left, each as register and bit (R351): PF0 bits 4 to 7, PF1 bits 7 to 0, PF2
bits 0 to 7. -/
def playfieldOrder : List (Nat × Nat) :=
  [(0, 4), (0, 5), (0, 6), (0, 7), (1, 7), (1, 6), (1, 5), (1, 4), (1, 3), (1, 2), (1, 1), (1, 0), (2, 0), (2, 1),
    (2, 2), (2, 3), (2, 4), (2, 5), (2, 6), (2, 7)]

/-- Bit `n` from the left of a half's latched bytes. -/
def playfieldAt (t : Triple Byte) (n : Nat) : Bool :=
  (t.get (playfieldOrder.getD n (0, 0)).1).getLsbD (playfieldOrder.getD n (0, 0)).2

/-- Pixel `x` lies in the playfield's mask (R351): four pixels a bit, the left half from the left-half bytes, the right
half from the right-half bytes, backwards with the mirror flag. -/
def PlayfieldCovers (v : Video) (x : Nat) : Prop :=
  if x < 80 then playfieldAt v.pfLeft (x / 4) = true
  else playfieldAt v.pfRight (if v.mirror then 19 - (x - 80) / 4 else (x - 80) / 4) = true

/-- Pixel `x` lies in a layer's mask (R351 to R356). -/
def Covers (s : State) : Layer → Nat → Prop
  | .p0, x => ObjectCovers s .p0 x
  | .p1, x => ObjectCovers s .p1 x
  | .m0, x => ObjectCovers s .m0 x
  | .m1, x => ObjectCovers s .m1 x
  | .bl, x => ObjectCovers s .bl x
  | .pf, x => PlayfieldCovers s.video x

/-- The latch table of R357: two layers, cell, bit. -/
def latchTable : List (Layer × Layer × Addr × Nat) :=
  [(.m0, .p1, 0x30, 7), (.m0, .p0, 0x30, 6), (.m1, .p0, 0x31, 7), (.m1, .p1, 0x31, 6), (.p0, .pf, 0x32, 7),
    (.p0, .bl, 0x32, 6), (.p1, .pf, 0x33, 7), (.p1, .bl, 0x33, 6), (.m0, .pf, 0x34, 7), (.m0, .bl, 0x34, 6),
    (.m1, .pf, 0x35, 7), (.m1, .bl, 0x35, 6), (.bl, .pf, 0x36, 7), (.p0, .p1, 0x37, 7), (.m0, .m1, 0x37, 6)]

/-- The background colour byte at a pixel (R358): that of the last entry, in recorded order, which starts there or
before. -/
def backgroundColour (bg : Timeline) (x : Nat) : Byte :=
  ((bg.later.filter fun e => decide (e.off ≤ x + 68)).getLast?.map (·.col)).getD bg.first

/-- The topmost layer's colour byte at a pixel (R358, R362 e), from the top down. -/
def topColour (s : State) (x : Nat) : Byte :=
  if masks s .p0 x then readCell 0x06 s
  else if masks s .p1 x then readCell 0x07 s
  else if masks s .m0 x then readCell 0x06 s
  else if masks s .m1 x then readCell 0x07 s
  else if masks s .bl x then readCell 0x08 s
  else if masks s .pf x then
    (if (readCell 0x0A s).getLsbD 1 then (if x < 80 then readCell 0x06 s else readCell 0x07 s) else readCell 0x08 s)
  else backgroundColour s.video.bg x

/-- The object reset registers with their object and the adjustment of R319. -/
def resetRegs : List (VReg × Obj × Int) :=
  [(.resp0, .p0, 5), (.resp1, .p1, 5), (.resm0, .m0, 0), (.resm1, .m1, 0), (.resbl, .bl, 0)]

/-- The graphics registers with their object (R320 to R324). -/
def graphicsRegs : List (Addr × Obj) := [(0x1B, .p0), (0x1C, .p1), (0x1D, .m0), (0x1E, .m1), (0x1F, .bl)]

/-- The motion registers with their object (R335). -/
def motionRegs : List (VReg × Obj) := [(.hmp0, .p0), (.hmp1, .p1), (.hmm0, .m0), (.hmm1, .m1), (.hmbl, .bl)]

/-- The playfield registers with their index and thresholds (R313). -/
def playfieldRegs : List (VReg × Nat × Nat × Nat) := [(.pf0, 0, 68, 148), (.pf1, 1, 84, 164), (.pf2, 2, 116, 196)]

/-- The registers without handler or effect (R302, R304, R312). -/
def inertRegs : List VReg :=
  [.vblank, .audc0, .audc1, .audf0, .audf1, .audv0, .audv1, .vdelp0, .vdelp1, .vdelbl, .rsync, .nusiz0, .nusiz1,
    .colup0, .colup1, .colupf, .refp0, .refp1, .hmp0, .hmp1, .hmm0, .hmm1, .hmbl]

/-- The flag `D` replaced. -/
def withD (d : Bool) (s : State) : State := { s with flags := { s.flags with d := d } }

/-- The flags `I` and `B` replaced. -/
def withIB (i b : Bool) (s : State) : State := { s with flags := { s.flags with i := i, b := b } }

end Sys2Proof.Claims

open Sys2Proof Sys2Proof.Machine Sys2Proof.Claims

/-! ### Encoding -/

/-- Decoding inverts encoding for every instruction with every operand value: no bit of an encoding is dropped. -/
def Obligations.DecodeInvertsEncode : Prop :=
  ∀ (i : Instr) (rest : List Byte), i.wf = true → decode (encode i ++ rest) = .ok (i, rest)

/-- Whatever decodes is a well-formed instruction, and encoding it gives the bytes back: each byte string has one
meaning. -/
def Obligations.EncodeInvertsDecode : Prop :=
  ∀ (bytes : List Byte) (i : Instr) (rest : List Byte),
    decode bytes = .ok (i, rest) → i.wf = true ∧ encode i ++ rest = bytes

/-- A few words written out from R103 decode to the instruction they stand for. -/
def Obligations.WrittenOutWordsDecode : Prop :=
  decodeTableWord 16 0x80A9 = some (.lda (.imm 0x80)) ∧ decodeTableWord 24 0x12F09D = some (.sta (.abx 0x12F0)) ∧
    decodeTableWord 16 0x8071 = some (.adc (.izy 0x80)) ∧ decodeTableWord 8 0x6A = some (.ror .acc) ∧
    decodeTableWord 24 0x10FF6C = some (.jmp (.ind 0x10FF)) ∧ decodeTableWord 16 0xFBD0 = some (.bne 0xFB) ∧
    decodeTableWord 8 0x08 = some .php ∧ decodeTableWord 8 0x02 = some (.ill 0x02)

/-- R104: exactly the 105 listed bytes are unassigned, and each decodes to the illegal-opcode entry whatever follows
it. -/
def Obligations.UnassignedOpcodesAreIllegal : Prop :=
  unassigned.length = 105 ∧
    ∀ op b1 b2 : Byte, (op ∈ unassigned ↔ decode3 op b1 b2 = .ill op) ∧ (op ∈ unassigned ↔ cellAt op = none)

/-! ### The step -/

/-- A step of a machine that is not halted runs the instruction whose bytes stand at `PC`, `PC+1`, `PC+2` modulo 65536,
each masked to 13 bits: that instruction is well formed, it answers a next state, and the step is that state itself after
a fatal halt, and else that state with the Arbiter's sequence of R390 after it (decisions D31 and D33 of the spec for its
order), which `afterProcessor` writes out: a pending video write `(a, v)` is cleared and `videoWrite a` runs, the timer
ticks with the cost the instruction returned, a pending timer write is cleared and `timerWrite a` runs, the host serves
a complete frame, and the line is committed exactly when 228 chip cycles have passed. -/
def Obligations.StepRunsDecodedInstruction : Prop :=
  ∀ (s : State) (i : Instr) (rest : List Byte), s.halted = none →
    decode [memRead s.pc s, memRead (s.pc + 1) s, memRead (s.pc + 2) s] = .ok (i, rest) →
    i.wf = true ∧ ∃ t, exec i s = .next t ∧
      step s = .next (
        match t.halted with
        | some _ => t
        | none => afterProcessor t)

/-- R29, R272, R393 and R425: reset is not halted, an illegal opcode sets `halted` with its diagnostic pair, and a halted
machine has no step. That an illegal opcode changes nothing else is decision D34 of the spec; that it is a next state,
and a step of a halted machine the fault `halted`, is the model's reading, log 11. -/
def Obligations.HaltedMachineHasNoStep : Prop :=
  (∀ image u, (boot image u).halted = none) ∧
    (∀ s op, exec (.ill op) s = .next { s with halted := some ⟨op, s.pc⟩ }) ∧
    ∀ s d, s.halted = some d → step s = .fault (.halted d)

/-- R421, over whole iterations: a machine that is not halted always makes a step, and the step either leaves it not
halted, or the byte at `PC` is an unassigned opcode and nothing but `halted` changes. -/
def Obligations.OnlyIllegalOpcodesHalt : Prop :=
  ∀ s, s.halted = none → ∃ t, step s = .next t ∧
    (if memRead s.pc s ∈ unassigned then t = { s with halted := some ⟨memRead s.pc s, s.pc⟩ } else t.halted = none)

/-- The invariant of the states between iterations is kept by every step, from every state that has it. -/
def Obligations.StepKeepsInvariant : Prop := ∀ s t : State, s.Inv → step s = .next t → t.Inv

/-- The invariant holds at reset. The reset values it looks at are R450's; that memory lists nothing is the model's
choice, log 2. -/
def Obligations.ResetHasInvariant : Prop := State.reset.Inv

/-- R450 to R452: what reset leaves for every image that fits the window and every unspecified value: the image in the
cartridge window, `PC` from the reset vector, every other cell and register as it was left, the fixed values, the
descriptors re-latched, and the invariant. -/
def Obligations.BootLeavesWhatResetSays : Prop :=
  ∀ (image : List Byte) (u : Unspecified), image.length ≤ 4096 → u.mem.wf = true →
    let s := boot image u
    (∀ k (h : k < image.length), readCell (BitVec.ofNat 13 (0x1000 + k)) s = image[k]) ∧
    (∀ a : Addr, (a.toNat < 0x1000 ∨ 0x1000 + image.length ≤ a.toNat) → readCell a s = u.mem.read a.toNat) ∧
    s.pc = joinLE (readCell 0x1FFC s) (readCell 0x1FFD s) ∧
    s.a = u.a ∧ s.x = u.x ∧ s.y = u.y ∧ s.sp = u.sp ∧ s.flags = u.flags ∧ s.video.pos = u.pos ∧
    s.video.frame = u.frame ∧ s.timer.pre = u.pre ∧ s.timer.acc = 0 ∧
    s.vidPending = none ∧ s.timPending = none ∧ s.halted = none ∧ s.cyc = 0 ∧ s.video.line = 3 ∧
    s.video.vsyncPrev = 0 ∧ s.video.frameComplete = false ∧ s.video.frameCount = 0 ∧ s = relatch s ∧ s.Inv

/-- R393: a run that ends does so in a halted state, after a `quit` of the host, or with the frame count reached. -/
def Obligations.RunEndsOnlyForAReason : Prop :=
  ∀ (maxFrames fuel : Nat) (s t : State) (why : EndReason), s.halted = none → run maxFrames fuel s = .ended why t →
    Reaches s t ∧
    ((∃ d, why = .halted d ∧ t.halted = some d) ∨ (why = .quit ∧ t.hostPort.quit = true) ∨
      (why = .maxFrames ∧ t.video.frameCount = maxFrames))

/-! ### Every instruction -/

/-- R135 with R134's bounds: every instruction of the table completes from every state; all but the illegal-opcode
entry add three times their cost to `cyc`, "once, at the end of the step", and return it, between 2 and 7 Processor
cycles, so between 6 and 21 chip cycles. -/
def Obligations.EveryInstructionCompletesWithItsCost : Prop :=
  ∀ (i : Instr) (s : State), i.wf = true → ∃ t, exec i s = .next t ∧
    ((∃ op, i = .ill op ∧ t = { s with halted := some ⟨op, s.pc⟩ }) ∨
      (t.halted = s.halted ∧ t.cyc = s.cyc + 3 * t.stepCost ∧ 2 ≤ t.stepCost ∧ t.stepCost ≤ 7 ∧
        6 ≤ t.cyc - s.cyc ∧ t.cyc - s.cyc ≤ 21))

/-- R137: a step of the Processor neither changes nor reads the VideoChip, the TimerChip or the host: with those parts
replaced it gives the same outcome with those parts replaced. -/
def Obligations.ProcessorNeverTouchesChips : Prop :=
  ∀ (i : Instr) (s : State) (v : Video) (tm : Timer) (h : HostPort),
    exec i { s with video := v, timer := tm, hostPort := h } =
      mapNext (fun t => { t with video := v, timer := tm, hostPort := h }) (exec i s)

/-- R20 to R25, the writers of each register and flag: an instruction that changes one is among those the rule lists. -/
def Obligations.RegistersChangeOnlyByTheirWriters : Prop :=
  ∀ (i : Instr) (s t : State), exec i s = .next t →
    (t.a ≠ s.a → i.mnemonic ∈ [.lda, .txa, .tya, .adc, .sbc, .and, .ora, .eor, .asl, .lsr, .rol, .ror, .pla]) ∧
    (t.x ≠ s.x → i.mnemonic ∈ [.ldx, .tax, .tsx, .inx, .dex]) ∧
    (t.y ≠ s.y → i.mnemonic ∈ [.ldy, .tay, .iny, .dey]) ∧
    (t.sp ≠ s.sp → i.mnemonic ∈ [.txs, .jsr, .rts, .rti, .brk, .pha, .pla, .php, .plp]) ∧
    (t.flags.c ≠ s.flags.c →
      i.mnemonic ∈ [.adc, .sbc, .cmp, .cpx, .cpy, .asl, .lsr, .rol, .ror, .clc, .sec, .plp, .rti]) ∧
    (t.flags.v ≠ s.flags.v → i.mnemonic ∈ [.adc, .sbc, .bit, .clv, .plp, .rti]) ∧
    (t.flags.i ≠ s.flags.i → i.mnemonic ∈ [.sei, .cli, .brk, .plp, .rti]) ∧
    (t.flags.d ≠ s.flags.d → i.mnemonic ∈ [.sed, .cld, .plp, .rti]) ∧
    (t.flags.b ≠ s.flags.b → i.mnemonic ∈ [.brk, .plp, .rti]) ∧
    (t.flags.z ≠ s.flags.z ∨ t.flags.n ≠ s.flags.n →
      i.mnemonic ∈ [.lda, .ldx, .ldy, .tax, .tay, .txa, .tya, .tsx, .adc, .sbc, .and, .ora, .eor, .cmp, .cpx, .cpy,
        .bit, .asl, .lsr, .rol, .ror, .inc, .dec, .inx, .iny, .dex, .dey, .pla, .plp, .rti])

/-- The frame of every form that stores nothing (loads, transfers, arithmetic, compares, BIT, the accumulator shifts,
INX to DEY, JMP, RTS, RTI, branches, PLA, PLP, flag instructions, NOP, ILL): every cell reads as before, and no signal
is raised. -/
def Obligations.FormsThatStoreNothingKeepMemory : Prop :=
  ∀ (i : Instr) (s t : State), exec i s = .next t → storesNothing i = true →
    t.mem = s.mem ∧ SameMemoryOutside [] s t ∧ t.vidPending = s.vidPending ∧ t.timPending = s.timPending

/-- The frame of the storing forms STA, STX, STY, INC, DEC, ASL, LSR, ROL, ROR: with `ea` the address the operand form
resolves to before the instruction, every cell but the masked `ea` reads as before, and the registers A, X, Y, SP and
the flags I, D, B, V are unchanged. -/
def Obligations.StoringFormsChangeOneCell : Prop :=
  ∀ (m : Operand) (s t : State) (ea : Word) (i : Instr),
    i ∈ [.sta m, .stx m, .sty m, .inc m, .dec m, .asl m, .lsr m, .rol m, .ror m] → exec i s = .next t →
    resolve m s = .addr ea →
    SameMemoryOutside [maskAddr ea] s t ∧ t.a = s.a ∧ t.x = s.x ∧ t.y = s.y ∧ t.sp = s.sp ∧ t.halted = s.halted ∧
      t.flags.i = s.flags.i ∧ t.flags.d = s.flags.d ∧ t.flags.b = s.flags.b ∧ t.flags.v = s.flags.v

/-- The frame of the pushing instructions PHA, PHP, JSR, BRK: only the one, two or three stack cells from `SP` down
change, `SP` moves by as many, A, X, Y and the flags C, Z, D, V, N are unchanged, and no signal is raised. -/
def Obligations.PushesChangeOnlyTheirStackCells : Prop :=
  ∀ (i : Instr) (s t : State) (n : Nat) (w : Word), (i, n) ∈ [(Instr.pha, 1), (.php, 1), (.jsr w, 2), (.brk, 3)] →
    exec i s = .next t →
    SameMemoryOutside ((List.range n).map fun k => maskAddr (stackCell (s.sp - BitVec.ofNat 8 k))) s t ∧
      t.sp = s.sp - BitVec.ofNat 8 n ∧ t.a = s.a ∧ t.x = s.x ∧ t.y = s.y ∧ t.flags.c = s.flags.c ∧
      t.flags.z = s.flags.z ∧ t.flags.d = s.flags.d ∧ t.flags.v = s.flags.v ∧ t.flags.n = s.flags.n ∧
      t.vidPending = s.vidPending ∧ t.timPending = s.timPending ∧ t.halted = s.halted

/-- R81, over all instructions: a cell that an instruction changes is never the hardwired port, and a changed cell of
the video or timer range has left its signal, with the address and the value now stored. -/
def Obligations.EveryChangedRegisterCellIsSignalled : Prop :=
  ∀ (i : Instr) (s t : State) (a : Addr), exec i s = .next t → readCell a t ≠ readCell a s →
    a ≠ 0x0282 ∧ (a.toNat ≤ 0x2C → t.vidPending = some ⟨a, readCell a t⟩) ∧
      (0x0280 ≤ a.toNat ∧ a.toNat ≤ 0x0297 → t.timPending = some ⟨a, readCell a t⟩)

/-- R268 and R269: CLD (D8) and SED (F8) write `D` alone in 2 cycles, and the flag "never alters arithmetic": for every
instruction but PHP and BRK, which push it, the outcome with `D` replaced differs in `D` at most; for those two it differs
in `D` and in the cell that holds the pushed flag byte at most, `SP`'s for PHP and the second below for BRK, and of that
cell in bit 3 at most, which is `D`. Which cell it is, and where the flags stand in it, rests on decisions D3, D4, D5 and D6
of the spec (R26, R27, R234, R262). -/
def Obligations.DecimalFlagNeverAltersArithmetic : Prop :=
  encode .cld = [0xD8] ∧ encode .sed = [0xF8] ∧
    (∀ s, exec .cld s = .next (costing 2 { s with pc := s.pc + 1, flags := { s.flags with d := false } }) ∧
      exec .sed s = .next (costing 2 { s with pc := s.pc + 1, flags := { s.flags with d := true } })) ∧
    (∀ (i : Instr) (s : State) (d : Bool), i ≠ .php → i ≠ .brk →
      mapNext (withD false) (exec i (withD d s)) = mapNext (withD false) (exec i s)) ∧
    ∀ (i : Instr) (n : Byte) (s : State) (d : Bool), (i, n) ∈ [(Instr.php, 0), (.brk, 2)] →
      let a := maskAddr (stackCell (s.sp - n))
      ∃ t u, exec i (withD d s) = .next t ∧ exec i s = .next u ∧
        (readCell a t).getLsbD 3 = d ∧ (readCell a u).getLsbD 3 = s.flags.d ∧
        (∀ k, k ≠ 3 → (readCell a t).getLsbD k = (readCell a u).getLsbD k) ∧
        SameMemoryOutside [a] t u ∧ withD false { t with mem := u.mem } = withD false u

/-- R423 and the table of R25 (decision D6 of the spec): `I` and `B` have no effect but on the flag byte PHP and BRK
push. -/
def Obligations.InterruptAndBreakFlagsHaveNoOtherEffect : Prop :=
  ∀ (i : Instr) (s : State) (fi fb : Bool), i ≠ .php → i ≠ .brk →
    mapNext (withIB false false) (exec i (withIB fi fb s)) = mapNext (withIB false false) (exec i s)

/-! ### Addressing modes -/

/-- R142 to R146: immediate, zero page, zero page indexed with the 8-bit wrap, absolute; none of them crosses a page.
(ZPY is R145 with Y.) -/
def Obligations.DirectModesResolve : Prop :=
  ∀ (s : State) (z : Byte) (w : Word),
    (resolve (.imm z) s = .imm z ∧ crossed (.imm z) s = false) ∧
    (∃ ea, resolve (.zp z) s = .addr ea ∧ ea.toNat = z.toNat ∧ crossed (.zp z) s = false) ∧
    (∃ ea, resolve (.zpx z) s = .addr ea ∧ ea.toNat = (z.toNat + s.x.toNat) % 256 ∧ crossed (.zpx z) s = false) ∧
    (∃ ea, resolve (.zpy z) s = .addr ea ∧ ea.toNat = (z.toNat + s.y.toNat) % 256 ∧ crossed (.zpy z) s = false) ∧
    (resolve (.abs w) s = .addr w ∧ crossed (.abs w) s = false)

/-- R147, R148 and R153: absolute indexed adds the index modulo 65536, and the page-cross flag is set exactly when the
high byte changes, the wrap from 0xFFxx to 0x00xx included. -/
def Obligations.IndexedModesCrossPagesWhenHighByteChanges : Prop :=
  ∀ (s : State) (w : Word),
    (∃ ea, resolve (.abx w) s = .addr ea ∧ ea.toNat = (w.toNat + s.x.toNat) % 65536 ∧
      (crossed (.abx w) s = true ↔ w.toNat / 256 ≠ ea.toNat / 256)) ∧
    (∃ ea, resolve (.aby w) s = .addr ea ∧ ea.toNat = (w.toNat + s.y.toNat) % 65536 ∧
      (crossed (.aby w) s = true ↔ w.toNat / 256 ≠ ea.toNat / 256))

/-- R150 and R151 (decision D9 of the spec for the pointer's second byte): both zero-page pointers wrap inside page
zero; IZY adds Y after the dereference and crosses when the high byte changes; IZX never crosses. -/
def Obligations.ZeroPagePointersWrapInsideThePage : Prop :=
  ∀ (s : State) (z : Byte), ∃ ex ey : Word,
    resolve (.izx z) s = .addr ex ∧ crossed (.izx z) s = false ∧
    ex.toNat = (s.mem.read ((z.toNat + s.x.toNat) % 256)).toNat +
      256 * (s.mem.read ((z.toNat + s.x.toNat + 1) % 256)).toNat ∧
    resolve (.izy z) s = .addr ey ∧
    (let base := (s.mem.read z.toNat).toNat + 256 * (s.mem.read ((z.toNat + 1) % 256)).toNat
     ey.toNat = (base + s.y.toNat) % 65536 ∧ (crossed (.izy z) s = true ↔ base / 256 ≠ ey.toNat / 256))

/-- R149 and R230: JMP (4C, 6C) sets `PC` to its absolute operand in 3 cycles, or in 5 to the word its pointer selects, whose high
byte comes from the same page as the pointer: "reading the pointer at address `0x10FF` must fetch its high byte from
`0x1000`, not `0x1100`". Nothing else changes. -/
def Obligations.JumpGoesToTargetWithPageWrapDefect : Prop :=
  ∀ (s : State) (w : Word),
    encode (.jmp (.abs w)) = [0x4C, w.setWidth 8, (w >>> 8).setWidth 8] ∧
    encode (.jmp (.ind w)) = [0x6C, w.setWidth 8, (w >>> 8).setWidth 8] ∧
    exec (.jmp (.abs w)) s = .next (costing 3 { s with pc := w }) ∧
    exec (.jmp (.ind w)) s = .next (costing 5 { s with
      pc := memRead (BitVec.ofNat 16 (w.toNat / 256 * 256 + (w.toNat + 1) % 256)) s ++ memRead w s })

/-! ### Loads, stores, transfers -/

/-- R160 to R162 (decision D43 of the spec): LDA, LDX and LDY put the operand byte in the register and set Z and N from
it; everything else is as before but `PC`, `cyc` and the cost. -/
def Obligations.LoadsPutOperandInRegister : Prop :=
  ∀ (m : Operand) (s : State),
    ((Instr.lda m).wf = true → exec (.lda m) s =
      .next (completed (.lda m) s (crossed m s) { s with a := operand m s, flags := nz (operand m s) s.flags })) ∧
    ((Instr.ldx m).wf = true → exec (.ldx m) s =
      .next (completed (.ldx m) s (crossed m s) { s with x := operand m s, flags := nz (operand m s) s.flags })) ∧
    ((Instr.ldy m).wf = true → exec (.ldy m) s =
      .next (completed (.ldy m) s (crossed m s) { s with y := operand m s, flags := nz (operand m s) s.flags }))

/-- R163 to R165 (decision D43 of the spec): STA, STX and STY write the register through `MemWrite` to the address the
operand form resolves to, and write no flag; the store to the hardwired port changes no cell (see
`ProcessorWritesAreFiltered`). -/
def Obligations.StoresWriteRegister : Prop :=
  ∀ (m : Operand) (s : State),
    ((Instr.sta m).wf = true → ∃ ea, resolve m s = .addr ea ∧
      exec (.sta m) s = .next (completed (.sta m) s (crossed m s) (memWrite ea s.a s))) ∧
    ((Instr.stx m).wf = true → ∃ ea, resolve m s = .addr ea ∧
      exec (.stx m) s = .next (completed (.stx m) s (crossed m s) (memWrite ea s.x s))) ∧
    ((Instr.sty m).wf = true → ∃ ea, resolve m s = .addr ea ∧
      exec (.sty m) s = .next (completed (.sty m) s (crossed m s) (memWrite ea s.y s)))

/-- R166 to R171 and R216 to R219 (decision D43 of the spec): the transfers and the register increments and decrements
in two cycles: new register value, Z and N from it, except TXS, which writes no flag. -/
def Obligations.TransfersAndRegisterSteps : Prop :=
  ∀ s : State,
    (∀ p ∈ registerResults s,
      exec p.1 s = .next (costing 2 { p.2.2 with pc := s.pc + 1, flags := nz p.2.1 s.flags })) ∧
    exec .txs s = .next (costing 2 { s with pc := s.pc + 1, sp := s.x })

/-! ### Arithmetic, logic, compares, shifts -/

/-- R180 and R189 (decision D43 of the spec): ADC gives the exact sum modulo 256, C when it exceeds 255, V when the
signed sum leaves -128..127, Z and N from the result, whatever D is. -/
def Obligations.AdcMatchesReferenceArithmetic : Prop :=
  ∀ (m : Operand) (s : State), (Instr.adc m).wf = true → ∃ (r : Byte) (c v : Bool),
    exec (.adc m) s = .next (completed (.adc m) s (crossed m s)
      { s with a := r, flags := nz r { s.flags with c := c, v := v } }) ∧
    r.toNat = (s.a.toNat + (operand m s).toNat + s.flags.c.toNat) % 256 ∧
    (c = true ↔ 255 < s.a.toNat + (operand m s).toNat + s.flags.c.toNat) ∧
    (v = true ↔ (s.a.toInt + (operand m s).toInt + (s.flags.c.toNat : Int) < -128 ∨
      127 < s.a.toInt + (operand m s).toInt + (s.flags.c.toNat : Int)))

/-- R181 and R189 (decision D42 of the spec): SBC gives `A - M - (1 - C)` modulo 256, C when there is no borrow, V when
the signed difference leaves -128..127, Z and N from the result, whatever D is. -/
def Obligations.SbcMatchesReferenceArithmetic : Prop :=
  ∀ (m : Operand) (s : State), (Instr.sbc m).wf = true → ∃ (r : Byte) (c v : Bool),
    exec (.sbc m) s = .next (completed (.sbc m) s (crossed m s)
      { s with a := r, flags := nz r { s.flags with c := c, v := v } }) ∧
    (let d : Int := (s.a.toNat : Int) - (operand m s).toNat - (1 - (s.flags.c.toNat : Int))
     let e : Int := s.a.toInt - (operand m s).toInt - (1 - (s.flags.c.toNat : Int))
     (r.toNat : Int) = d % 256 ∧ (c = true ↔ 0 ≤ d) ∧ (v = true ↔ (e < -128 ∨ 127 < e)))

/-- R182 to R184 (decision D43 of the spec): AND, ORA and EOR put the bitwise result in A and set Z and N; C and V stay. -/
def Obligations.LogicPutsBitwiseResult : Prop :=
  ∀ (m : Operand) (s : State) (i : Instr) (r : Byte),
    (i, r) ∈ [(.and m, s.a &&& operand m s), (.ora m, s.a ||| operand m s), (.eor m, s.a ^^^ operand m s)] →
    i.wf = true → exec i s = .next (completed i s (crossed m s) { s with a := r, flags := nz r s.flags })

/-- R185 to R188 (decision D43 of the spec): the compares leave the registers alone and set C when register ≥ memory, Z
when equal, N from bit 7 of the 8-bit difference; BIT sets Z from `A and m`, N and V from bits 7 and 6 of the memory
operand, and leaves A alone. -/
def Obligations.ComparesAndBitTest : Prop :=
  ∀ (m : Operand) (s : State),
    (∀ (i : Instr) (reg : Byte), (i, reg) ∈ [(Instr.cmp m, s.a), (.cpx m, s.x), (.cpy m, s.y)] → i.wf = true →
      exec i s = .next (completed i s (crossed m s)
        { s with flags := { s.flags with
            c := decide ((operand m s).toNat ≤ reg.toNat)
            z := decide (reg = operand m s)
            n := decide (128 ≤ (reg.toNat + 256 - (operand m s).toNat) % 256) } })) ∧
    ((Instr.bit m).wf = true →
      exec (.bit m) s = .next (completed (.bit m) s (crossed m s)
        { s with flags := { s.flags with
            z := decide (s.a &&& operand m s = 0)
            n := (operand m s).getLsbD 7
            v := (operand m s).getLsbD 6 } }))

/-- R210 to R213 and R220 (decisions D12 and D43 of the spec): the shifts and rotates, accumulator and memory forms:
result byte and carry by exact arithmetic, Z and N from the result, one `MemWrite` of the result in the memory forms;
the flags are written from the result even when the write is discarded. -/
def Obligations.ShiftsAndRotates : Prop :=
  ∀ (m : Operand) (s : State) (i : Instr) (r : Nat) (c : Bool),
    (i, r, c) ∈ shiftResults m (operand m s) s.flags.c → i.wf = true →
    exec i s = .next (completed i s (crossed m s)
      { stored m (BitVec.ofNat 8 r) s with flags := nz (BitVec.ofNat 8 r) { s.flags with c := c } })

/-- R214, R215 and R220 (decisions D12 and D43 of the spec): INC and DEC write the operand byte plus or minus one,
modulo 256, through one `MemWrite`, and set Z and N from it. -/
def Obligations.IncrementsAndDecrementsOfMemory : Prop :=
  ∀ (m : Operand) (s : State) (i : Instr) (r : Byte), (i, r) ∈ [(.inc m, operand m s + 1), (.dec m, operand m s - 1)] →
    i.wf = true →
    exec i s = .next (completed i s (crossed m s) { stored m r s with flags := nz r s.flags })

/-! ### Control transfer, stack, flags -/

/-- R231 and R232: JSR (20) pushes the address of its own last byte, high byte first, and jumps in 6 cycles; RTS (60)
pulls the low then the high byte and adds one, modulo 65536, in 6 cycles. -/
def Obligations.SubroutineCallAndReturn : Prop :=
  ∀ (s : State) (w : Word),
    encode (.jsr w) = [0x20, w.setWidth 8, (w >>> 8).setWidth 8] ∧ encode .rts = [0x60] ∧
    exec (.jsr w) s = .next (costing 6
      { memWrite (stackCell (s.sp - 1)) ((s.pc + 2).setWidth 8)
          (memWrite (stackCell s.sp) (((s.pc + 2) >>> 8).setWidth 8) s) with
        sp := s.sp - 2, pc := w }) ∧
    exec .rts s = .next (costing 6 { s with
      sp := s.sp + 2
      pc := (memRead (stackCell (s.sp + 2)) s ++ memRead (stackCell (s.sp + 1)) s) + 1 })

/-- R233 and R427 (decision D7 of the spec): RTI pulls the flag byte into all seven flags, then the return address, and
adds one, in 6 cycles. -/
def Obligations.RtiRestoresFlagsAndAddsOne : Prop :=
  ∀ s : State,
    exec .rti s = .next (costing 6 { s with
      sp := s.sp + 3
      flags := flagsOf (memRead (stackCell (s.sp + 1)) s)
      pc := (memRead (stackCell (s.sp + 3)) s ++ memRead (stackCell (s.sp + 2)) s) + 1 })

/-- R234 and R422 (decision D6 of the spec): BRK sets B, pushes the address of its own opcode high byte first and the
flag byte with B set, sets I, and goes to the word at 0x1FFE, in 7 cycles. -/
def Obligations.BrkEntersThroughVector : Prop :=
  ∀ s : State,
    exec .brk s = .next (costing 7
      { memWrite (stackCell (s.sp - 2)) (flagByte { s.flags with b := true })
          (memWrite (stackCell (s.sp - 1)) (s.pc.setWidth 8)
            (memWrite (stackCell s.sp) ((s.pc >>> 8).setWidth 8) s)) with
        sp := s.sp - 3
        flags := { s.flags with b := true, i := true }
        pc := readCell 0x1FFF s ++ readCell 0x1FFE s })

/-- R235 to R243 (decisions D10 and D43 of the spec): a branch not taken costs 2 cycles and leaves the advanced `PC`; a
taken one goes to `pc0 + 2 + d` modulo 65536 and costs 3, or 4 when the target lies in another page. No flag changes. -/
def Obligations.BranchesTestTheirFlag : Prop :=
  ∀ (s : State) (d : Byte) (i : Instr) (taken : Bool), (i, taken) ∈ branches d s.flags →
    exec i s = .next (
      if taken then
        costing (if (s.pc + 2).toNat / 256 = (s.pc + 2 + d.signExtend 16).toNat / 256 then 3 else 4)
          { s with pc := s.pc + 2 + d.signExtend 16 }
      else costing 2 { s with pc := s.pc + 2 })

/-- R260: PHA (48) writes A at 0x0100 + SP through `MemWrite`, then decrements SP, in 3 cycles. -/
def Obligations.PhaPushesAccumulator : Prop :=
  encode .pha = [0x48] ∧ ∀ s : State, exec .pha s = .next (costing 3
    { memWrite (stackCell s.sp) s.a s with sp := s.sp - 1, pc := s.pc + 1 })

/-- R261 to R263 (decisions D4, D5 and D43 of the spec): PLA pulls A and sets Z and N, PHP pushes the flag byte with B as
stored and bit 5 set, PLP sets all seven flags from the pulled byte. -/
def Obligations.PlaPhpPlpMoveBytesThroughTheStack : Prop :=
  ∀ s : State,
    (let v := memRead (stackCell (s.sp + 1)) s
     exec .pla s = .next (costing 4 { s with a := v, sp := s.sp + 1, pc := s.pc + 1, flags := nz v s.flags }) ∧
     exec .plp s = .next (costing 4 { s with sp := s.sp + 1, pc := s.pc + 1, flags := flagsOf v })) ∧
    exec .php s = .next (costing 3
      { memWrite (stackCell s.sp) (flagByte s.flags) s with sp := s.sp - 1, pc := s.pc + 1 })

/-- R244's round trips: PHA then PLA restores A and SP, PHP then PLP the flags and SP, JSR then RTS resumes after the
JSR with SP unchanged. Beside them the round trip of R233, R234 and R427, of which R244 says nothing: BRK then RTI resumes
at the address after BRK's one byte, with the flags of before but for B; it rests on decisions D6 (`BRK_LEN` = 1, log 17)
and D7 (RTI adds one) of the spec. PLP and RTI restoring the flags rests on D4 and D5. -/
def Obligations.StackRoundTrips : Prop :=
  ∀ (s t u : State) (w : Word),
    (exec .pha s = .next t → exec .pla t = .next u → u.a = s.a ∧ u.sp = s.sp ∧ u.pc = s.pc + 2) ∧
    (exec .php s = .next t → exec .plp t = .next u → u.flags = s.flags ∧ u.sp = s.sp ∧ u.pc = s.pc + 2) ∧
    (exec (.jsr w) s = .next t → exec .rts t = .next u → u.pc = s.pc + 3 ∧ u.sp = s.sp) ∧
    (exec .brk s = .next t → exec .rti t = .next u →
      u.pc = s.pc + 1 ∧ u.sp = s.sp ∧ u.flags = { s.flags with b := true })

/-- R264 to R270 and R271 (decision D43 of the spec): the flag instructions write their one flag, and NOP nothing; each
advances `PC` by 1 and costs 2 cycles. -/
def Obligations.FlagInstructionsAndNop : Prop :=
  ∀ s : State,
    (∀ p ∈ flagSetters s.flags, exec p.1 s = .next (costing 2 { s with pc := s.pc + 1, flags := p.2 })) ∧
    exec .nop s = .next (costing 2 { s with pc := s.pc + 1 })

/-! ### Memory -/

/-- R71 and R75 (decision D13 of the spec for the discarded write's signal): a Processor write masks its address to 13
bits; a write to 0x0282 changes nothing at all; any other changes that one cell, and raises the video or the timer
signal with address and value exactly when the cell lies in the range. -/
def Obligations.ProcessorWritesAreFiltered : Prop :=
  ∀ (s : State) (w : Word) (v : Byte) (a : Addr), a.toNat = w.toNat % 8192 →
    if a = 0x0282 then memWrite w v s = s
    else
      readCell a (memWrite w v s) = v ∧ SameMemoryOutside [a] s (memWrite w v s) ∧
      (memWrite w v s).vidPending = (if a.toNat ≤ 0x2C then some ⟨a, v⟩ else s.vidPending) ∧
      (memWrite w v s).timPending =
        (if 0x0280 ≤ a.toNat ∧ a.toNat ≤ 0x0297 then some ⟨a, v⟩ else s.timPending) ∧
      memWrite w v s = { s with
        mem := (memWrite w v s).mem, vidPending := (memWrite w v s).vidPending
        timPending := (memWrite w v s).timPending }

/-- A read after a write gives the value there and the old byte elsewhere; a write of a cell keeps the canonical form;
two memories in the form that read alike everywhere are the same list. -/
def Obligations.MemoryIsCanonical : Prop :=
  (∀ (m : Memory) (a k : Nat) (b : Byte), (m.write a b).read k = if k = a then b else m.read k) ∧
  (∀ (m : Memory) (a : Nat) (b : Byte), m.wf = true → a < 8192 → (m.write a b).wf = true) ∧
  ∀ m k : Memory, m.wf = true → k.wf = true → (∀ a, m.read a = k.read a) → m = k

/-! ### The VideoChip's handlers -/

/-- R314 to R319 (decision D20 of the spec): an object reset register latches `max(c - 68, 1)`, plus 5 for players,
modulo 160, as the object's position, and changes nothing else; the byte written is irrelevant. -/
def Obligations.ResetRegistersLatchPosition : Prop :=
  ∀ (s : State) (r : VReg) (o : Obj) (adj : Int), (r, o, adj) ∈ resetRegs →
    ∃ p : Fin 160, (p.val : Int) = (max ((s.cyc : Int) - 68) 1 + adj) % 160 ∧
      videoWrite (vregAddr r) s = { s with video := { s.video with pos := s.video.pos.set o p } }

/-- R320 to R325 and R305 (decision D22 of the spec): a graphics register write reaches exactly the copies that the copy
table gives the object and whose start pixel the beam has not passed; nothing but the object's slots changes. -/
def Obligations.GraphicsWritesReachUndrawnCopies : Prop :=
  ∀ (s : State) (r : Addr) (o : Obj), (r, o) ∈ graphicsRegs →
    (∀ k < (copiesOf s o).length, (videoWrite r s).video.slots.get o k =
      if (s.cyc : Int) - 68 ≤ ((((s.video.pos.get o).val + (copiesOf s o).getD k 0) % 160 : Nat) : Int)
      then readCell r s else s.video.slots.get o k) ∧
    (∀ k, (copiesOf s o).length ≤ k → k < 3 → o ≠ .bl →
      (videoWrite r s).video.slots.get o k = s.video.slots.get o k) ∧
    (∀ o', o' ≠ o → ∀ k, (videoWrite r s).video.slots.get o' k = s.video.slots.get o' k) ∧
    videoWrite r s = { s with video := { s.video with slots := (videoWrite r s).video.slots } }

/-- R311 and R313 (decisions D18 and D19 of the spec for the thresholds): a playfield byte lands in both halves below the
first threshold, in the right half only below the second, nowhere from the second on; the mirror bit is taken before
cycle 148 only; nothing else changes. -/
def Obligations.PlayfieldAndMirrorObeyThresholds : Prop :=
  ∀ s : State,
    (∀ (r : VReg) (k lo hi : Nat), (r, k, lo, hi) ∈ playfieldRegs →
      videoWrite (vregAddr r) s = { s with video := { s.video with
        pfLeft := if s.cyc < lo then s.video.pfLeft.set k (readReg r s) else s.video.pfLeft
        pfRight := if s.cyc < hi then s.video.pfRight.set k (readReg r s) else s.video.pfRight } }) ∧
    videoWrite 0x0A s = { s with video := { s.video with
      mirror := if s.cyc < 148 then (readCell 0x0A s).getLsbD 0 else s.video.mirror } }

/-- R310: a background-colour write appends (beam cycle, byte) to the timeline and changes nothing else; from pixel
`c - 68` on, all pixels when `c` is below 68, none when it is 228 or more, the line's background is that byte, of which
bits 7 to 1 are the palette index at the commit; the next line starts from the persistent value. The delivered pixel rests
on R32, R358 and R359 as well (decisions D27 and D35 of the spec, log 17), the next line on R361 (decision D26), and the
palette is OPEN (log 5). -/
def Obligations.BackgroundWritesExtendTimeline : Prop :=
  ∀ s : State, let t := videoWrite 0x09 s
    t = { s with video := { s.video with
      bg := { first := s.video.bg.first, later := s.video.bg.later ++ [⟨s.cyc, readCell 0x09 s⟩] } } } ∧
    (∀ x < 160, backgroundAt t.video.bg x = if s.cyc ≤ x + 68 then readCell 0x09 s else backgroundAt s.video.bg x) ∧
    (∀ (row : Nat) (hr : row < 192) (x : Nat) (hx : x < 160), s.video.line = 40 + row → s.cyc ≤ x + 68 →
      (∀ l ∈ [Layer.p0, .p1, .m0, .m1, .bl, .pf], masks s l x = false) →
      (lineUpdate t).video.frame[row][x] = Config.palette ((readCell 0x09 s >>> 1).setWidth 7)) ∧
    (lineUpdate t).video.bg = { first := readCell 0x09 s, later := [] }

/-- R301 and R303 (decisions D27, D45, D46 of the spec): VSYNC from non-zero to zero completes a frame and restarts the
line counter at 3, any other VSYNC write only remembers the byte; WSYNC sets the cycle counter to 228. -/
def Obligations.SyncRegisters : Prop :=
  ∀ s : State,
    (videoWrite 0x00 s = if s.video.vsyncPrev ≠ 0 ∧ readCell 0x00 s = 0 then
        { s with video := { s.video with
          frameComplete := true, frameCount := s.video.frameCount + 1, line := 3, vsyncPrev := 0 } }
      else { s with video := { s.video with vsyncPrev := readCell 0x00 s } }) ∧
    videoWrite 0x02 s = { s with cyc := 228 }

/-- R335 (decision D21 of the spec for the sign): HMOVE adds the signed high nibble of each motion register to its
object's position, modulo 160, and changes nothing else. -/
def Obligations.HmoveAddsSignedNibbles : Prop :=
  ∀ s : State,
    (∀ r o, (r, o) ∈ motionRegs →
      ((((videoWrite 0x2A s).video.pos.get o).val : Nat) : Int) =
        ((s.video.pos.get o).val + ((readReg r s).extractLsb' 4 4).toInt) % 160) ∧
    videoWrite 0x2A s = { s with video := { s.video with pos := (videoWrite 0x2A s).video.pos } }

/-- R336: HMCLR zeroes the five motion registers 0x20 to 0x24; no other cell, no position and no other state changes,
no signal is raised, and an HMOVE after it moves nothing. -/
def Obligations.HmclrZeroesMotionRegisters : Prop :=
  ∀ s : State,
    (∀ a : Addr, readCell a (videoWrite 0x2B s) =
      if 0x20 ≤ a.toNat ∧ a.toNat ≤ 0x24 then 0 else readCell a s) ∧
    videoWrite 0x2B s = { s with mem := (videoWrite 0x2B s).mem } ∧
    videoWrite 0x2A (videoWrite 0x2B s) = videoWrite 0x2B s

/-- R337 (decision D17 of the spec for the cells): CXCLR zeroes the eight collision cells 0x30 to 0x37; no other cell and
no other state changes. -/
def Obligations.CxclrZeroesCollisionLatches : Prop :=
  ∀ s : State,
    (∀ a : Addr, readCell a (videoWrite 0x2C s) =
      if 0x30 ≤ a.toNat ∧ a.toNat ≤ 0x37 then 0 else readCell a s) ∧
    videoWrite 0x2C s = { s with mem := (videoWrite 0x2C s).mem }

/-- R302, R304, R312, R333 and R334 (decisions D29, D30, D39 of the spec; the offset is OPEN, log 6): the inert registers
change nothing; RESMP with bit 1 clear changes nothing, with bit 1 set it moves the missile to its player plus the
offset, whatever the offset is. -/
def Obligations.InertRegistersAndResmp : Prop :=
  (∀ (s : State) (r : VReg), r ∈ inertRegs → videoWrite (vregAddr r) s = s) ∧
  ∀ (s : State) (r : VReg) (mi pl : Obj), (r, mi, pl) ∈ [(VReg.resmp0, Obj.m0, Obj.p0), (.resmp1, .m1, .p1)] →
    ∃ p : Fin 160, (p.val : Int) = ((s.video.pos.get pl).val + Config.resmpOffset) % 160 ∧
      videoWrite (vregAddr r) s =
        if (readReg r s).getLsbD 1 then { s with video := { s.video with pos := s.video.pos.set mi p } } else s

/-! ### The commit -/

/-- R360: the commit advances the line counter by one, whatever it is, and reduces the cycle counter modulo 228: 230
becomes 2, the 228 of a WSYNC 0; from a counter below 228 + 21 the result is below 21 once a line has ended, so one
commit is enough. -/
def Obligations.CommitAdvancesLineAndReducesCycles : Prop :=
  ∀ s : State, (lineUpdate s).video.line = s.video.line + 1 ∧ (lineUpdate s).cyc = s.cyc % 228 ∧
    (228 ≤ s.cyc → s.cyc < 228 + 21 → (lineUpdate s).cyc < 21)

/-- R361 (decision D26 of the spec for the timeline): after the commit every descriptor starts from the persistent
register values; positions are not touched. -/
def Obligations.CommitRelatchesDescriptors : Prop :=
  ∀ s : State, let t := lineUpdate s
    t.video.pfLeft = ⟨readCell 0x0D s, readCell 0x0E s, readCell 0x0F s⟩ ∧
    t.video.pfRight = ⟨readCell 0x0D s, readCell 0x0E s, readCell 0x0F s⟩ ∧
    t.video.mirror = (readCell 0x0A s).getLsbD 0 ∧
    (∀ k, t.video.slots.get .p0 k = readCell 0x1B s ∧ t.video.slots.get .p1 k = readCell 0x1C s ∧
      t.video.slots.get .m0 k = readCell 0x1D s ∧ t.video.slots.get .m1 k = readCell 0x1E s ∧
      t.video.slots.get .bl k = readCell 0x1F s) ∧
    t.video.bg = { first := readCell 0x09 s, later := [] } ∧ t.video.pos = s.video.pos

/-- R357 and R362 (decision D17 of the spec for the bits, D22 to D24 and D39 for the pixels a layer covers): on a visible
line (D27) the commit sets the latch bit of exactly the pairs of R357's table whose masks of R351 to R355 share a pixel,
and leaves every other bit of memory at its prior value; on any other line memory is unchanged. -/
def Obligations.CommitLatchesCollisions : Prop :=
  ∀ (s : State) (a : Addr) (k : Nat), k < 8 →
    ((readCell a (lineUpdate s)).getLsbD k = true ↔
      (readCell a s).getLsbD k = true ∨
        (40 ≤ s.video.line ∧ s.video.line < 232 ∧
          ∃ l m, (l, m, a, k) ∈ latchTable ∧ ∃ x < 160, Covers s l x ∧ Covers s m x))

/-- R351 to R356, R358, R359 and R362 e (decisions D22 to D25, D27, D35 and D39 of the spec; the palette is OPEN, log 5):
a layer's mask holds at exactly the pixels that the playfield bytes, or the object's copies, graphics bytes, reflection
and widths, give it; the commit of a visible line delivers to row `line - 40` the palette colour of the topmost layer at
every pixel, and leaves every other row; the commit of any other line delivers nothing. -/
def Obligations.CommitPaintsTopmostLayer : Prop :=
  (∀ (s : State) (l : Layer) (x : Nat), x < 160 → (masks s l x = true ↔ Covers s l x)) ∧
  ∀ (s : State) (row : Nat) (hr : row < 192) (x : Nat) (hx : x < 160),
    (lineUpdate s).video.frame[row][x] =
      if 40 ≤ s.video.line ∧ s.video.line < 232 ∧ row = s.video.line - 40
      then Config.palette ((topColour s x >>> 1).setWidth 7) else s.video.frame[row][x]

/-! ### Timer, host, whole iterations -/

/-- R400 and R401 (decision D32 of the spec): a tick of `n` cycles takes whole intervals off the countdown, modulo 256,
and keeps the remainder below the interval, nothing lost; a write to a trigger cell loads its byte, selects the interval
and clears the remainder; any other write changes nothing. -/
def Obligations.TimerCountsWholeIntervals : Prop :=
  (∀ (n : Nat) (s : State), ∃ d : Nat,
    readCell 0x0284 (timerTick n s) = readCell 0x0284 s - BitVec.ofNat 8 d ∧
    (timerTick n s).timer.acc + d * s.timer.pre.cycles = s.timer.acc + n ∧
    (timerTick n s).timer.acc < s.timer.pre.cycles ∧ (timerTick n s).timer.pre = s.timer.pre ∧
    SameMemoryOutside [0x0284] s (timerTick n s)) ∧
  ∀ (a : Addr) (s : State),
    (∀ p, (a, p) ∈ [(0x0294, Prescaler.every1), (0x0295, .every8), (0x0296, .every64), (0x0297, .every1024)] →
      readCell 0x0284 (timerWrite a s) = readCell a s ∧ (timerWrite a s).timer = ⟨p, 0⟩ ∧
      SameMemoryOutside [0x0284] s (timerWrite a s)) ∧
    (a ∉ ([0x0294, 0x0295, 0x0296, 0x0297] : List Addr) → timerWrite a s = s)

/-- R391 (e), over the whole rest of an iteration: no chip and no host ever changes a Processor register or flag, and
afterwards no signal is pending and no frame is unserved. -/
def Obligations.ArbiterNeverChangesProcessor : Prop :=
  ∀ (n : Nat) (s : State), SameProcessor s (arbitrate n s) ∧ (arbitrate n s).vidPending = none ∧
    (arbitrate n s).timPending = none ∧ (arbitrate n s).video.frameComplete = false

/-- R392 (decisions D37, D38 of the spec; the script is the model's own, log 8): when a frame is complete the host stores
only to its input cells and the hardwired port, `frame_complete` is cleared and one answer is used up; when none is
complete nothing happens. R412 (decision D37 of the spec, log 7): no handler of the VideoChip, no commit, no tick and no
write of the TimerChip stores to an input cell, wherever the OPEN addresses lie. -/
def Obligations.HostStoresOnlyToInputCells : Prop :=
  ∀ s : State,
    (s.video.frameComplete = false → serveFrame s = s) ∧
    (s.video.frameComplete = true →
      (∀ a : Addr, a ≠ 0x0282 → (∀ r, Config.inputRegs r ≠ a) → readCell a (serveFrame s) = readCell a s) ∧
      (serveFrame s).video = { s.video with frameComplete := false } ∧
      (serveFrame s).hostPort.script = s.hostPort.script.tail ∧
      (serveFrame s).hostPort.quit = (s.hostPort.script.head?.map (·.quit)).getD false ∧
      serveFrame s = { s with
        mem := (serveFrame s).mem, video := (serveFrame s).video, hostPort := (serveFrame s).hostPort }) ∧
    ∀ (r : Config.InputReg) (a : Addr) (n : Nat), let input := readCell (Config.inputRegs r)
      input (videoWrite a s) = input s ∧ input (lineUpdate s) = input s ∧ input (timerTick n s) = input s ∧
      input (timerWrite a s) = input s

/-- R303 with R390, R360 and R462 (decision D46 of the spec), over a whole iteration: from a state of the invariant, an
instruction that stores to WSYNC, by a plain store or a read-modify-write, ends the line: the next instruction starts at
cycle 0 of the next line, even when the storing instruction had already carried the counter past 228. -/
def Obligations.WsyncEndsTheLine : Prop :=
  ∀ (s : State) (m : Operand) (ea : Word) (i : Instr), s.Inv → s.halted = none →
    i ∈ [.sta m, .stx m, .sty m, .inc m, .dec m, .asl m, .lsr m, .rol m, .ror m] → fetchInstr s = i →
    resolve m s = .addr ea → ea.toNat % 8192 = 2 →
    ∃ t, step s = .next t ∧ t.cyc = 0 ∧ t.video.line = s.video.line + 1
end

