-- ==== Sys2Proof/Laws/Bits.lean ====
section
/-! SUPPORT. Byte order and bit fields as arithmetic. -/

namespace Sys2Proof.Machine

theorem toNat_joinLE (lo hi : Byte) : (joinLE lo hi).toNat = lo.toNat + 256 * hi.toNat := by
  have h := lo.isLt
  rw [joinLE, BitVec.toNat_append, ← Nat.shiftLeft_add_eq_or_of_lt h, Nat.shiftLeft_eq]
  omega

theorem toNat_lo8 (w : Word) : (lo8 w).toNat = w.toNat % 256 := by simp [lo8]

theorem toNat_hi8 (w : Word) : (hi8 w).toNat = w.toNat / 256 := by
  have := w.isLt
  simp only [hi8, BitVec.toNat_setWidth, BitVec.toNat_ushiftRight, Nat.shiftRight_eq_div_pow]
  omega

theorem toNat_zext (b : Byte) : (zext b).toNat = b.toNat := by
  have := b.isLt
  simp [zext]
  omega

theorem toNat_maskAddr (w : Word) : (maskAddr w).toNat = w.toNat % 8192 := by simp [maskAddr]

@[simp] theorem joinLE_lo8_hi8 (w : Word) : joinLE (lo8 w) (hi8 w) = w := by
  apply BitVec.eq_of_toNat_eq
  rw [toNat_joinLE, toNat_lo8, toNat_hi8]
  omega

@[simp] theorem lo8_joinLE (lo hi : Byte) : lo8 (joinLE lo hi) = lo := by
  have := lo.isLt
  apply BitVec.eq_of_toNat_eq
  rw [toNat_lo8, toNat_joinLE]
  omega

@[simp] theorem hi8_joinLE (lo hi : Byte) : hi8 (joinLE lo hi) = hi := by
  have := lo.isLt
  apply BitVec.eq_of_toNat_eq
  rw [toNat_hi8, toNat_joinLE]
  omega

theorem getLsbD_joinLE (lo hi : Byte) (i : Nat) :
    (joinLE lo hi).getLsbD i = if i < 8 then lo.getLsbD i else hi.getLsbD (i - 8) :=
  BitVec.getLsbD_append

theorem getLsbD_lo8 (w : Word) (i : Nat) : (lo8 w).getLsbD i = (decide (i < 8) && w.getLsbD i) := by simp [lo8]

theorem getLsbD_hi8 (w : Word) (i : Nat) : (hi8 w).getLsbD i = (decide (i < 8) && w.getLsbD (8 + i)) := by simp [hi8]

/-- The second address of the indirect jump's pointer: the pointer's page with the low byte of the pointer plus one. -/
theorem pageWrap_eq (w v : Word) : (w &&& 0xFF00) ||| (v &&& 0x00FF) = joinLE (lo8 v) (hi8 w) := by
  apply BitVec.eq_of_getLsbD_eq
  intro i hi
  rw [getLsbD_joinLE, getLsbD_lo8, getLsbD_hi8]
  interval_cases i <;> simp

/-- Bit 7 of a byte is its sign. -/
theorem getLsbD_seven (v : Byte) : v.getLsbD 7 = decide (128 ≤ v.toNat) := by
  rw [show (7 : Nat) = 8 - 1 from rfl, ← BitVec.msb_eq_getLsbD_last, BitVec.msb_eq_decide]

end Sys2Proof.Machine
end

