-- ==== Sys2Proof/Laws/State.lean ====
section
/-! SUPPORT. Every named update of State, field by field: what it sets, and that it leaves the rest. -/

namespace Sys2Proof.Machine

/-! ### `A` -/

@[simp] theorem setA_a (v : Byte) (s : State) : (setA v s).a = v := rfl
@[simp] theorem setA_x (v : Byte) (s : State) : (setA v s).x = s.x := rfl
@[simp] theorem setA_y (v : Byte) (s : State) : (setA v s).y = s.y := rfl
@[simp] theorem setA_sp (v : Byte) (s : State) : (setA v s).sp = s.sp := rfl
@[simp] theorem setA_pc (v : Byte) (s : State) : (setA v s).pc = s.pc := rfl
@[simp] theorem setA_flags (v : Byte) (s : State) : (setA v s).flags = s.flags := rfl
@[simp] theorem setA_vidPending (v : Byte) (s : State) : (setA v s).vidPending = s.vidPending := rfl
@[simp] theorem setA_timPending (v : Byte) (s : State) : (setA v s).timPending = s.timPending := rfl
@[simp] theorem setA_halted (v : Byte) (s : State) : (setA v s).halted = s.halted := rfl
@[simp] theorem setA_stepCost (v : Byte) (s : State) : (setA v s).stepCost = s.stepCost := rfl
@[simp] theorem setA_mem (v : Byte) (s : State) : (setA v s).mem = s.mem := rfl
@[simp] theorem setA_cyc (v : Byte) (s : State) : (setA v s).cyc = s.cyc := rfl
@[simp] theorem setA_video (v : Byte) (s : State) : (setA v s).video = s.video := rfl
@[simp] theorem setA_timer (v : Byte) (s : State) : (setA v s).timer = s.timer := rfl
@[simp] theorem setA_hostPort (v : Byte) (s : State) : (setA v s).hostPort = s.hostPort := rfl

/-! ### `X` -/

@[simp] theorem setX_a (v : Byte) (s : State) : (setX v s).a = s.a := rfl
@[simp] theorem setX_x (v : Byte) (s : State) : (setX v s).x = v := rfl
@[simp] theorem setX_y (v : Byte) (s : State) : (setX v s).y = s.y := rfl
@[simp] theorem setX_sp (v : Byte) (s : State) : (setX v s).sp = s.sp := rfl
@[simp] theorem setX_pc (v : Byte) (s : State) : (setX v s).pc = s.pc := rfl
@[simp] theorem setX_flags (v : Byte) (s : State) : (setX v s).flags = s.flags := rfl
@[simp] theorem setX_vidPending (v : Byte) (s : State) : (setX v s).vidPending = s.vidPending := rfl
@[simp] theorem setX_timPending (v : Byte) (s : State) : (setX v s).timPending = s.timPending := rfl
@[simp] theorem setX_halted (v : Byte) (s : State) : (setX v s).halted = s.halted := rfl
@[simp] theorem setX_stepCost (v : Byte) (s : State) : (setX v s).stepCost = s.stepCost := rfl
@[simp] theorem setX_mem (v : Byte) (s : State) : (setX v s).mem = s.mem := rfl
@[simp] theorem setX_cyc (v : Byte) (s : State) : (setX v s).cyc = s.cyc := rfl
@[simp] theorem setX_video (v : Byte) (s : State) : (setX v s).video = s.video := rfl
@[simp] theorem setX_timer (v : Byte) (s : State) : (setX v s).timer = s.timer := rfl
@[simp] theorem setX_hostPort (v : Byte) (s : State) : (setX v s).hostPort = s.hostPort := rfl

/-! ### `Y` -/

@[simp] theorem setY_a (v : Byte) (s : State) : (setY v s).a = s.a := rfl
@[simp] theorem setY_x (v : Byte) (s : State) : (setY v s).x = s.x := rfl
@[simp] theorem setY_y (v : Byte) (s : State) : (setY v s).y = v := rfl
@[simp] theorem setY_sp (v : Byte) (s : State) : (setY v s).sp = s.sp := rfl
@[simp] theorem setY_pc (v : Byte) (s : State) : (setY v s).pc = s.pc := rfl
@[simp] theorem setY_flags (v : Byte) (s : State) : (setY v s).flags = s.flags := rfl
@[simp] theorem setY_vidPending (v : Byte) (s : State) : (setY v s).vidPending = s.vidPending := rfl
@[simp] theorem setY_timPending (v : Byte) (s : State) : (setY v s).timPending = s.timPending := rfl
@[simp] theorem setY_halted (v : Byte) (s : State) : (setY v s).halted = s.halted := rfl
@[simp] theorem setY_stepCost (v : Byte) (s : State) : (setY v s).stepCost = s.stepCost := rfl
@[simp] theorem setY_mem (v : Byte) (s : State) : (setY v s).mem = s.mem := rfl
@[simp] theorem setY_cyc (v : Byte) (s : State) : (setY v s).cyc = s.cyc := rfl
@[simp] theorem setY_video (v : Byte) (s : State) : (setY v s).video = s.video := rfl
@[simp] theorem setY_timer (v : Byte) (s : State) : (setY v s).timer = s.timer := rfl
@[simp] theorem setY_hostPort (v : Byte) (s : State) : (setY v s).hostPort = s.hostPort := rfl

/-! ### `SP` -/

@[simp] theorem setSP_a (v : Byte) (s : State) : (setSP v s).a = s.a := rfl
@[simp] theorem setSP_x (v : Byte) (s : State) : (setSP v s).x = s.x := rfl
@[simp] theorem setSP_y (v : Byte) (s : State) : (setSP v s).y = s.y := rfl
@[simp] theorem setSP_sp (v : Byte) (s : State) : (setSP v s).sp = v := rfl
@[simp] theorem setSP_pc (v : Byte) (s : State) : (setSP v s).pc = s.pc := rfl
@[simp] theorem setSP_flags (v : Byte) (s : State) : (setSP v s).flags = s.flags := rfl
@[simp] theorem setSP_vidPending (v : Byte) (s : State) : (setSP v s).vidPending = s.vidPending := rfl
@[simp] theorem setSP_timPending (v : Byte) (s : State) : (setSP v s).timPending = s.timPending := rfl
@[simp] theorem setSP_halted (v : Byte) (s : State) : (setSP v s).halted = s.halted := rfl
@[simp] theorem setSP_stepCost (v : Byte) (s : State) : (setSP v s).stepCost = s.stepCost := rfl
@[simp] theorem setSP_mem (v : Byte) (s : State) : (setSP v s).mem = s.mem := rfl
@[simp] theorem setSP_cyc (v : Byte) (s : State) : (setSP v s).cyc = s.cyc := rfl
@[simp] theorem setSP_video (v : Byte) (s : State) : (setSP v s).video = s.video := rfl
@[simp] theorem setSP_timer (v : Byte) (s : State) : (setSP v s).timer = s.timer := rfl
@[simp] theorem setSP_hostPort (v : Byte) (s : State) : (setSP v s).hostPort = s.hostPort := rfl

/-! ### `PC` -/

@[simp] theorem setPC_a (w : Word) (s : State) : (setPC w s).a = s.a := rfl
@[simp] theorem setPC_x (w : Word) (s : State) : (setPC w s).x = s.x := rfl
@[simp] theorem setPC_y (w : Word) (s : State) : (setPC w s).y = s.y := rfl
@[simp] theorem setPC_sp (w : Word) (s : State) : (setPC w s).sp = s.sp := rfl
@[simp] theorem setPC_pc (w : Word) (s : State) : (setPC w s).pc = w := rfl
@[simp] theorem setPC_flags (w : Word) (s : State) : (setPC w s).flags = s.flags := rfl
@[simp] theorem setPC_vidPending (w : Word) (s : State) : (setPC w s).vidPending = s.vidPending := rfl
@[simp] theorem setPC_timPending (w : Word) (s : State) : (setPC w s).timPending = s.timPending := rfl
@[simp] theorem setPC_halted (w : Word) (s : State) : (setPC w s).halted = s.halted := rfl
@[simp] theorem setPC_stepCost (w : Word) (s : State) : (setPC w s).stepCost = s.stepCost := rfl
@[simp] theorem setPC_mem (w : Word) (s : State) : (setPC w s).mem = s.mem := rfl
@[simp] theorem setPC_cyc (w : Word) (s : State) : (setPC w s).cyc = s.cyc := rfl
@[simp] theorem setPC_video (w : Word) (s : State) : (setPC w s).video = s.video := rfl
@[simp] theorem setPC_timer (w : Word) (s : State) : (setPC w s).timer = s.timer := rfl
@[simp] theorem setPC_hostPort (w : Word) (s : State) : (setPC w s).hostPort = s.hostPort := rfl

/-! ### The flags -/

@[simp] theorem setFlags_a (f : Flags) (s : State) : (setFlags f s).a = s.a := rfl
@[simp] theorem setFlags_x (f : Flags) (s : State) : (setFlags f s).x = s.x := rfl
@[simp] theorem setFlags_y (f : Flags) (s : State) : (setFlags f s).y = s.y := rfl
@[simp] theorem setFlags_sp (f : Flags) (s : State) : (setFlags f s).sp = s.sp := rfl
@[simp] theorem setFlags_pc (f : Flags) (s : State) : (setFlags f s).pc = s.pc := rfl
@[simp] theorem setFlags_flags (f : Flags) (s : State) : (setFlags f s).flags = f := rfl
@[simp] theorem setFlags_vidPending (f : Flags) (s : State) : (setFlags f s).vidPending = s.vidPending := rfl
@[simp] theorem setFlags_timPending (f : Flags) (s : State) : (setFlags f s).timPending = s.timPending := rfl
@[simp] theorem setFlags_halted (f : Flags) (s : State) : (setFlags f s).halted = s.halted := rfl
@[simp] theorem setFlags_stepCost (f : Flags) (s : State) : (setFlags f s).stepCost = s.stepCost := rfl
@[simp] theorem setFlags_mem (f : Flags) (s : State) : (setFlags f s).mem = s.mem := rfl
@[simp] theorem setFlags_cyc (f : Flags) (s : State) : (setFlags f s).cyc = s.cyc := rfl
@[simp] theorem setFlags_video (f : Flags) (s : State) : (setFlags f s).video = s.video := rfl
@[simp] theorem setFlags_timer (f : Flags) (s : State) : (setFlags f s).timer = s.timer := rfl
@[simp] theorem setFlags_hostPort (f : Flags) (s : State) : (setFlags f s).hostPort = s.hostPort := rfl

/-! ### Z and N of a byte -/

@[simp] theorem markNZ_a (v : Byte) (s : State) : (markNZ v s).a = s.a := rfl
@[simp] theorem markNZ_x (v : Byte) (s : State) : (markNZ v s).x = s.x := rfl
@[simp] theorem markNZ_y (v : Byte) (s : State) : (markNZ v s).y = s.y := rfl
@[simp] theorem markNZ_sp (v : Byte) (s : State) : (markNZ v s).sp = s.sp := rfl
@[simp] theorem markNZ_pc (v : Byte) (s : State) : (markNZ v s).pc = s.pc := rfl
@[simp] theorem markNZ_flags (v : Byte) (s : State) : (markNZ v s).flags = setNZ v s.flags := rfl
@[simp] theorem markNZ_vidPending (v : Byte) (s : State) : (markNZ v s).vidPending = s.vidPending := rfl
@[simp] theorem markNZ_timPending (v : Byte) (s : State) : (markNZ v s).timPending = s.timPending := rfl
@[simp] theorem markNZ_halted (v : Byte) (s : State) : (markNZ v s).halted = s.halted := rfl
@[simp] theorem markNZ_stepCost (v : Byte) (s : State) : (markNZ v s).stepCost = s.stepCost := rfl
@[simp] theorem markNZ_mem (v : Byte) (s : State) : (markNZ v s).mem = s.mem := rfl
@[simp] theorem markNZ_cyc (v : Byte) (s : State) : (markNZ v s).cyc = s.cyc := rfl
@[simp] theorem markNZ_video (v : Byte) (s : State) : (markNZ v s).video = s.video := rfl
@[simp] theorem markNZ_timer (v : Byte) (s : State) : (markNZ v s).timer = s.timer := rfl
@[simp] theorem markNZ_hostPort (v : Byte) (s : State) : (markNZ v s).hostPort = s.hostPort := rfl

/-! ### A raw cell -/

@[simp] theorem writeCell_a (a : Addr) (v : Byte) (s : State) : (writeCell a v s).a = s.a := rfl
@[simp] theorem writeCell_x (a : Addr) (v : Byte) (s : State) : (writeCell a v s).x = s.x := rfl
@[simp] theorem writeCell_y (a : Addr) (v : Byte) (s : State) : (writeCell a v s).y = s.y := rfl
@[simp] theorem writeCell_sp (a : Addr) (v : Byte) (s : State) : (writeCell a v s).sp = s.sp := rfl
@[simp] theorem writeCell_pc (a : Addr) (v : Byte) (s : State) : (writeCell a v s).pc = s.pc := rfl
@[simp] theorem writeCell_flags (a : Addr) (v : Byte) (s : State) : (writeCell a v s).flags = s.flags := rfl
@[simp] theorem writeCell_vidPending (a : Addr) (v : Byte) (s : State) :
    (writeCell a v s).vidPending = s.vidPending := rfl
@[simp] theorem writeCell_timPending (a : Addr) (v : Byte) (s : State) :
    (writeCell a v s).timPending = s.timPending := rfl
@[simp] theorem writeCell_halted (a : Addr) (v : Byte) (s : State) : (writeCell a v s).halted = s.halted := rfl
@[simp] theorem writeCell_stepCost (a : Addr) (v : Byte) (s : State) : (writeCell a v s).stepCost = s.stepCost := rfl
@[simp] theorem writeCell_mem (a : Addr) (v : Byte) (s : State) : (writeCell a v s).mem = s.mem.write a.toNat v := rfl
@[simp] theorem writeCell_cyc (a : Addr) (v : Byte) (s : State) : (writeCell a v s).cyc = s.cyc := rfl
@[simp] theorem writeCell_video (a : Addr) (v : Byte) (s : State) : (writeCell a v s).video = s.video := rfl
@[simp] theorem writeCell_timer (a : Addr) (v : Byte) (s : State) : (writeCell a v s).timer = s.timer := rfl
@[simp] theorem writeCell_hostPort (a : Addr) (v : Byte) (s : State) : (writeCell a v s).hostPort = s.hostPort := rfl

/-! ### The signals -/

@[simp] theorem raiseSignals_a (a : Addr) (v : Byte) (s : State) : (raiseSignals a v s).a = s.a := rfl
@[simp] theorem raiseSignals_x (a : Addr) (v : Byte) (s : State) : (raiseSignals a v s).x = s.x := rfl
@[simp] theorem raiseSignals_y (a : Addr) (v : Byte) (s : State) : (raiseSignals a v s).y = s.y := rfl
@[simp] theorem raiseSignals_sp (a : Addr) (v : Byte) (s : State) : (raiseSignals a v s).sp = s.sp := rfl
@[simp] theorem raiseSignals_pc (a : Addr) (v : Byte) (s : State) : (raiseSignals a v s).pc = s.pc := rfl
@[simp] theorem raiseSignals_flags (a : Addr) (v : Byte) (s : State) : (raiseSignals a v s).flags = s.flags := rfl
@[simp] theorem raiseSignals_vidPending (a : Addr) (v : Byte) (s : State) :
    (raiseSignals a v s).vidPending = if inVideo a then some ⟨a, v⟩ else s.vidPending := rfl
@[simp] theorem raiseSignals_timPending (a : Addr) (v : Byte) (s : State) :
    (raiseSignals a v s).timPending = if inTimer a then some ⟨a, v⟩ else s.timPending := rfl
@[simp] theorem raiseSignals_halted (a : Addr) (v : Byte) (s : State) : (raiseSignals a v s).halted = s.halted := rfl
@[simp] theorem raiseSignals_stepCost (a : Addr) (v : Byte) (s : State) :
    (raiseSignals a v s).stepCost = s.stepCost := rfl
@[simp] theorem raiseSignals_mem (a : Addr) (v : Byte) (s : State) : (raiseSignals a v s).mem = s.mem := rfl
@[simp] theorem raiseSignals_cyc (a : Addr) (v : Byte) (s : State) : (raiseSignals a v s).cyc = s.cyc := rfl
@[simp] theorem raiseSignals_video (a : Addr) (v : Byte) (s : State) : (raiseSignals a v s).video = s.video := rfl
@[simp] theorem raiseSignals_timer (a : Addr) (v : Byte) (s : State) : (raiseSignals a v s).timer = s.timer := rfl
@[simp] theorem raiseSignals_hostPort (a : Addr) (v : Byte) (s : State) :
    (raiseSignals a v s).hostPort = s.hostPort := rfl

/-! ### The VideoChip -/

@[simp] theorem onVideo_a (f : Video → Video) (s : State) : (onVideo f s).a = s.a := rfl
@[simp] theorem onVideo_x (f : Video → Video) (s : State) : (onVideo f s).x = s.x := rfl
@[simp] theorem onVideo_y (f : Video → Video) (s : State) : (onVideo f s).y = s.y := rfl
@[simp] theorem onVideo_sp (f : Video → Video) (s : State) : (onVideo f s).sp = s.sp := rfl
@[simp] theorem onVideo_pc (f : Video → Video) (s : State) : (onVideo f s).pc = s.pc := rfl
@[simp] theorem onVideo_flags (f : Video → Video) (s : State) : (onVideo f s).flags = s.flags := rfl
@[simp] theorem onVideo_vidPending (f : Video → Video) (s : State) : (onVideo f s).vidPending = s.vidPending := rfl
@[simp] theorem onVideo_timPending (f : Video → Video) (s : State) : (onVideo f s).timPending = s.timPending := rfl
@[simp] theorem onVideo_halted (f : Video → Video) (s : State) : (onVideo f s).halted = s.halted := rfl
@[simp] theorem onVideo_stepCost (f : Video → Video) (s : State) : (onVideo f s).stepCost = s.stepCost := rfl
@[simp] theorem onVideo_mem (f : Video → Video) (s : State) : (onVideo f s).mem = s.mem := rfl
@[simp] theorem onVideo_cyc (f : Video → Video) (s : State) : (onVideo f s).cyc = s.cyc := rfl
@[simp] theorem onVideo_video (f : Video → Video) (s : State) : (onVideo f s).video = f s.video := rfl
@[simp] theorem onVideo_timer (f : Video → Video) (s : State) : (onVideo f s).timer = s.timer := rfl
@[simp] theorem onVideo_hostPort (f : Video → Video) (s : State) : (onVideo f s).hostPort = s.hostPort := rfl

/-! ### The fatal halt -/

@[simp] theorem raiseFatal_a (op : Byte) (s : State) : (raiseFatal op s).a = s.a := rfl
@[simp] theorem raiseFatal_x (op : Byte) (s : State) : (raiseFatal op s).x = s.x := rfl
@[simp] theorem raiseFatal_y (op : Byte) (s : State) : (raiseFatal op s).y = s.y := rfl
@[simp] theorem raiseFatal_sp (op : Byte) (s : State) : (raiseFatal op s).sp = s.sp := rfl
@[simp] theorem raiseFatal_pc (op : Byte) (s : State) : (raiseFatal op s).pc = s.pc := rfl
@[simp] theorem raiseFatal_flags (op : Byte) (s : State) : (raiseFatal op s).flags = s.flags := rfl
@[simp] theorem raiseFatal_vidPending (op : Byte) (s : State) : (raiseFatal op s).vidPending = s.vidPending := rfl
@[simp] theorem raiseFatal_timPending (op : Byte) (s : State) : (raiseFatal op s).timPending = s.timPending := rfl
@[simp] theorem raiseFatal_halted (op : Byte) (s : State) : (raiseFatal op s).halted = some ⟨op, s.pc⟩ := rfl
@[simp] theorem raiseFatal_stepCost (op : Byte) (s : State) : (raiseFatal op s).stepCost = s.stepCost := rfl
@[simp] theorem raiseFatal_mem (op : Byte) (s : State) : (raiseFatal op s).mem = s.mem := rfl
@[simp] theorem raiseFatal_cyc (op : Byte) (s : State) : (raiseFatal op s).cyc = s.cyc := rfl
@[simp] theorem raiseFatal_video (op : Byte) (s : State) : (raiseFatal op s).video = s.video := rfl
@[simp] theorem raiseFatal_timer (op : Byte) (s : State) : (raiseFatal op s).timer = s.timer := rfl
@[simp] theorem raiseFatal_hostPort (op : Byte) (s : State) : (raiseFatal op s).hostPort = s.hostPort := rfl

end Sys2Proof.Machine
end

