-- ==== Sys2Proof/Laws/Memory.lean ====
section
/-! SUPPORT. The memory: a read after a write, and the canonical form every write keeps. -/

namespace Sys2Proof.Machine

/-! ### Read after write -/

theorem Memory.read_remove (m : Memory) (a k : Nat) :
    (m.remove a).read k = if k = a then Config.unlistedByte else m.read k := by
  induction m with
  | nil => simp [Memory.remove, Memory.read]
  | cons e rest ih =>
    obtain ⟨j, v⟩ := e
    by_cases hj : j = a
    · subst hj
      rw [Memory.remove, if_pos rfl, ih, Memory.read]
      by_cases hk : k = j
      · rw [if_pos hk, if_pos hk]
      · rw [if_neg hk, if_neg hk, if_neg (Ne.symm hk)]
    · by_cases hjk : j = k
      · subst hjk
        simp [Memory.remove, Memory.read, hj]
      · simp [Memory.remove, Memory.read, hj, hjk, ih]

theorem Memory.read_put (m : Memory) (a k : Nat) (b : Byte) :
    (m.put a b).read k = if k = a then b else m.read k := by
  induction m with
  | nil => simp [Memory.put, Memory.read, eq_comm]
  | cons e rest ih =>
    obtain ⟨j, v⟩ := e
    by_cases hlt : a < j
    · simp [Memory.put, Memory.read, hlt, eq_comm (a := a)]
    · by_cases heq : a = j
      · subst heq
        by_cases hk : k = a <;> simp [Memory.put, Memory.read, hk, eq_comm (a := a)]
      · by_cases hjk : j = k
        · subst hjk
          simp [Memory.put, Memory.read, hlt, heq, Ne.symm heq]
        · simp [Memory.put, Memory.read, hlt, heq, hjk, ih]

/-- A byte written is read back, and every other address reads as before. -/
theorem Memory.read_write (m : Memory) (a k : Nat) (b : Byte) :
    (m.write a b).read k = if k = a then b else m.read k := by
  unfold Memory.write
  split
  · simp [Memory.read_remove, *]
  · exact m.read_put a k b

@[simp] theorem Memory.read_write_self (m : Memory) (a : Nat) (b : Byte) : (m.write a b).read a = b := by
  simp [Memory.read_write]

theorem Memory.read_write_of_ne (m : Memory) {a k : Nat} (b : Byte) (h : k ≠ a) :
    (m.write a b).read k = m.read k := by
  simp [Memory.read_write, h]

/-! ### The canonical form -/

theorem Memory.wfFrom_cons (lo k : Nat) (v : Byte) (rest : Memory) :
    Memory.wfFrom lo ((k, v) :: rest) = true ↔
      lo ≤ k ∧ k < 2 ^ 13 ∧ v ≠ Config.unlistedByte ∧ Memory.wfFrom (k + 1) rest = true := by
  simp [Memory.wfFrom, and_assoc]

theorem Memory.wfFrom_mono {lo hi : Nat} (h : lo ≤ hi) {m : Memory} (hm : Memory.wfFrom hi m = true) :
    Memory.wfFrom lo m = true := by
  cases m with
  | nil => rfl
  | cons e rest =>
    obtain ⟨k, v⟩ := e
    rw [Memory.wfFrom_cons] at hm ⊢
    exact ⟨by omega, hm.2⟩

theorem Memory.wfFrom_remove {lo : Nat} {m : Memory} (a : Nat) (h : Memory.wfFrom lo m = true) :
    Memory.wfFrom lo (m.remove a) = true := by
  induction m generalizing lo with
  | nil => rfl
  | cons e rest ih =>
    obtain ⟨k, v⟩ := e
    rw [Memory.wfFrom_cons] at h
    obtain ⟨h1, h2, h3, h4⟩ := h
    by_cases hk : k = a
    · simpa [Memory.remove, hk] using Memory.wfFrom_mono (by omega) (ih h4)
    · simp only [Memory.remove, if_neg hk, Memory.wfFrom_cons]
      exact ⟨h1, h2, h3, ih h4⟩

theorem Memory.wfFrom_put {lo : Nat} {m : Memory} {a : Nat} {b : Byte} (hlo : lo ≤ a) (ha : a < 2 ^ 13)
    (hb : b ≠ Config.unlistedByte) (h : Memory.wfFrom lo m = true) : Memory.wfFrom lo (m.put a b) = true := by
  induction m generalizing lo with
  | nil =>
    rw [Memory.put, Memory.wfFrom_cons]
    exact ⟨hlo, ha, hb, rfl⟩
  | cons e rest ih =>
    obtain ⟨k, v⟩ := e
    rw [Memory.wfFrom_cons] at h
    obtain ⟨h1, h2, h3, h4⟩ := h
    unfold Memory.put
    split
    · rw [Memory.wfFrom_cons, Memory.wfFrom_cons]
      exact ⟨hlo, ha, hb, by omega, h2, h3, h4⟩
    · split
      · rw [Memory.wfFrom_cons]
        exact ⟨hlo, ha, hb, by simp [*]⟩
      · rw [Memory.wfFrom_cons]
        exact ⟨h1, h2, h3, ih (by omega) h4⟩

/-- Every write of a cell of the address space keeps the canonical form. -/
theorem Memory.wf_write {m : Memory} {a : Nat} {b : Byte} (ha : a < 2 ^ 13) (h : m.wf = true) :
    (m.write a b).wf = true := by
  unfold Memory.write
  split
  · exact Memory.wfFrom_remove a h
  · exact Memory.wfFrom_put (Nat.zero_le a) ha ‹_› h

theorem Memory.wf_write_addr {m : Memory} (a : Addr) (b : Byte) (h : m.wf = true) :
    (m.write a.toNat b).wf = true :=
  Memory.wf_write a.isLt h

/-- Below its bound a memory in canonical form lists nothing. -/
theorem Memory.read_of_lt {lo a : Nat} {m : Memory} (h : Memory.wfFrom lo m = true) (ha : a < lo) :
    m.read a = Config.unlistedByte := by
  induction m generalizing lo with
  | nil => rfl
  | cons e rest ih =>
    obtain ⟨k, v⟩ := e
    rw [Memory.wfFrom_cons] at h
    rw [Memory.read, if_neg (by omega)]
    exact ih h.2.2.2 (by omega)

/-- The form has no entry from the end of the address space on. -/
theorem Memory.read_of_ge {lo a : Nat} {m : Memory} (h : Memory.wfFrom lo m = true) (ha : 2 ^ 13 ≤ a) :
    m.read a = Config.unlistedByte := by
  induction m generalizing lo with
  | nil => rfl
  | cons e rest ih =>
    obtain ⟨k, v⟩ := e
    rw [Memory.wfFrom_cons] at h
    rw [Memory.read, if_neg (by omega)]
    exact ih h.2.2.2

/-! ### Cells -/

@[simp] theorem readCell_writeCell_self (a : Addr) (v : Byte) (s : State) : readCell a (writeCell a v s) = v :=
  Memory.read_write_self s.mem a.toNat v

theorem readCell_writeCell (a k : Addr) (v : Byte) (s : State) :
    readCell k (writeCell a v s) = if k = a then v else readCell k s := by
  simp [readCell, Memory.read_write, BitVec.toNat_inj]

theorem readCell_writeCell_of_ne {a k : Addr} (v : Byte) (s : State) (h : k ≠ a) :
    readCell k (writeCell a v s) = readCell k s := by
  simp [readCell_writeCell, h]

theorem writeCell_wf (a : Addr) (v : Byte) {s : State} (h : s.mem.wf = true) : (writeCell a v s).mem.wf = true :=
  Memory.wf_write a.isLt h

/-- States with the same memory read alike. -/
theorem readCell_congr {s t : State} (h : t.mem = s.mem) (a : Addr) : readCell a t = readCell a s := by
  rw [readCell, readCell, h]

theorem memRead_congr {s t : State} (h : t.mem = s.mem) (w : Word) : memRead w t = memRead w s :=
  readCell_congr h (maskAddr w)

end Sys2Proof.Machine
end

