-- ==== Sys2Proof/Laws/Chips.lean ====
section
/-! SUPPORT. What the chips, the host and the commit can do to the state: which parts they touch, and that memory keeps
its canonical form. -/

namespace Sys2Proof.Machine

/-- `t` differs from `s` in memory, cycle counter, VideoChip, TimerChip, host port and pending signals only: no
Processor register, flag, halt or cost. -/
structure ChipsOnly (s t : State) : Prop where
  a : t.a = s.a
  x : t.x = s.x
  y : t.y = s.y
  sp : t.sp = s.sp
  pc : t.pc = s.pc
  flags : t.flags = s.flags
  halted : t.halted = s.halted
  stepCost : t.stepCost = s.stepCost
  wf : s.mem.wf = true → t.mem.wf = true

theorem ChipsOnly.refl (s : State) : ChipsOnly s s := ⟨rfl, rfl, rfl, rfl, rfl, rfl, rfl, rfl, id⟩

theorem ChipsOnly.trans {s t u : State} (h : ChipsOnly s t) (k : ChipsOnly t u) : ChipsOnly s u :=
  ⟨k.a.trans h.a, k.x.trans h.x, k.y.trans h.y, k.sp.trans h.sp, k.pc.trans h.pc, k.flags.trans h.flags,
    k.halted.trans h.halted, k.stepCost.trans h.stepCost, k.wf ∘ h.wf⟩

theorem chipsOnly_onVideo (f : Video → Video) (s : State) : ChipsOnly s (onVideo f s) :=
  ⟨rfl, rfl, rfl, rfl, rfl, rfl, rfl, rfl, id⟩

theorem chipsOnly_writeCell (a : Addr) (v : Byte) (s : State) : ChipsOnly s (writeCell a v s) :=
  ⟨rfl, rfl, rfl, rfl, rfl, rfl, rfl, rfl, writeCell_wf a v⟩

/-! ### Lists of raw stores -/

theorem zeroCells_shape (cells : List Addr) (s : State) : ∃ m, zeroCells cells s = { s with mem := m } := by
  induction cells generalizing s with
  | nil => exact ⟨s.mem, rfl⟩
  | cons a rest ih => exact ih (writeCell a 0 s)

theorem readCell_zeroCells (cells : List Addr) (s : State) (k : Addr) :
    readCell k (zeroCells cells s) = if k ∈ cells then 0 else readCell k s := by
  induction cells generalizing s with
  | nil => simp [zeroCells]
  | cons a rest ih =>
    have h := ih (writeCell a 0 s)
    rw [readCell_writeCell] at h
    show readCell k (zeroCells rest (writeCell a 0 s)) = _
    rw [h]
    by_cases hk : k ∈ rest
    · simp [hk]
    · by_cases hka : k = a <;> simp [hk, hka]

theorem chipsOnly_zeroCells (cells : List Addr) (s : State) : ChipsOnly s (zeroCells cells s) := by
  induction cells generalizing s with
  | nil => exact .refl s
  | cons a rest ih => exact (chipsOnly_writeCell a 0 s).trans (ih _)

theorem hostStores_shape (stores : List (HostCell × Byte)) (s : State) :
    ∃ m, hostStores stores s = { s with mem := m } := by
  induction stores generalizing s with
  | nil => exact ⟨s.mem, rfl⟩
  | cons c rest ih => exact ih (writeCell (hostCellAddr c.1) c.2 s)

theorem chipsOnly_hostStores (stores : List (HostCell × Byte)) (s : State) : ChipsOnly s (hostStores stores s) := by
  induction stores generalizing s with
  | nil => exact .refl s
  | cons c rest ih => exact (chipsOnly_writeCell _ _ s).trans (ih _)

/-- The host's stores leave every cell that is no input cell and not the port. -/
theorem readCell_hostStores (stores : List (HostCell × Byte)) (s : State) {k : Addr} (hp : k ≠ Config.inputPort)
    (hi : ∀ r, Config.inputRegs r ≠ k) : readCell k (hostStores stores s) = readCell k s := by
  induction stores generalizing s with
  | nil => rfl
  | cons c rest ih =>
    have hk : k ≠ hostCellAddr c.1 := by
      obtain ⟨c1, v⟩ := c
      cases c1 with
      | input r => exact (hi r).symm
      | port => exact hp
    exact (ih (writeCell (hostCellAddr c.1) c.2 s)).trans (readCell_writeCell_of_ne c.2 s hk)

/-! ### The VideoChip's handlers -/

/-- `t` differs from `s` in the VideoChip only, and there not in the background timeline. -/
def VideoOnly (s t : State) : Prop := ∃ v, t = { s with video := v } ∧ v.bg = s.video.bg

theorem VideoOnly.refl (s : State) : VideoOnly s s := ⟨s.video, rfl, rfl⟩

theorem VideoOnly.trans {s t u : State} (h : VideoOnly s t) (k : VideoOnly t u) : VideoOnly s u := by
  obtain ⟨v, rfl, hv⟩ := h
  obtain ⟨w, rfl, hw⟩ := k
  exact ⟨w, rfl, hw.trans hv⟩

theorem videoOnly_onVideo (f : Video → Video) (s : State) (hf : (f s.video).bg = s.video.bg) :
    VideoOnly s (onVideo f s) :=
  ⟨f s.video, rfl, hf⟩

theorem videoOnly_setPos (o : Obj) (x : Int) (s : State) : VideoOnly s (setPos o x s) :=
  videoOnly_onVideo _ s rfl

theorem videoOnly_latchGfx (o : Obj) (b : Byte) (s : State) : VideoOnly s (latchGfx o b s) := by
  have h : ∀ (offs : List Nat) (k : Nat) (t : State), VideoOnly t (latchFrom o b s k offs t) := by
    intro offs
    induction offs with
    | nil => exact fun _ t => .refl t
    | cons off rest ih =>
      intro k t
      unfold latchFrom
      split
      · exact (videoOnly_onVideo _ t rfl).trans (ih (k + 1) _)
      · exact ih (k + 1) t
  exact h _ 0 s

theorem videoOnly_playfield (k : Nat) (v : Byte) (s : State) : VideoOnly s (handlePlayfield k v s) := by
  unfold handlePlayfield
  split
  · exact videoOnly_onVideo _ s rfl
  · split
    · exact videoOnly_onVideo _ s rfl
    · exact .refl s

theorem videoOnly_resmp (m p : Obj) (v : Byte) (s : State) : VideoOnly s (handleResmp m p v s) := by
  unfold handleResmp
  split
  · exact videoOnly_setPos m _ s
  · exact .refl s

theorem videoOnly_vsync (v : Byte) (s : State) : VideoOnly s (handleVsync v s) :=
  videoOnly_onVideo _ s (by split <;> rfl)

theorem videoOnly_ctrlpf (v : Byte) (s : State) : VideoOnly s (handleCtrlpf v s) := by
  unfold handleCtrlpf
  split
  · exact videoOnly_onVideo _ s rfl
  · exact .refl s

theorem videoOnly_hmove (s : State) : VideoOnly s (handleHmove s) :=
  ((((videoOnly_setPos .p0 _ s).trans (videoOnly_setPos .p1 _ _)).trans (videoOnly_setPos .m0 _ _)).trans
    (videoOnly_setPos .m1 _ _)).trans (videoOnly_setPos .bl _ _)

/-- What a handler can do: change the VideoChip without its background timeline, end the line, extend the background
timeline by an entry at the beam, or clear cells of its own. -/
theorem handleReg_cases (r : VReg) (v : Byte) (s : State) :
    VideoOnly s (handleReg r v s) ∨ handleReg r v s = { s with cyc := Config.lineCycles } ∨
    handleReg r v s = handleColubk v s ∨
    ∃ cells, cells.all Config.chipCell = true ∧ handleReg r v s = zeroCells cells s := by
  cases r
  case wsync => exact .inr (.inl rfl)
  case colubk => exact .inr (.inr (.inl rfl))
  case hmclr =>
    refine .inr (.inr (.inr ⟨_, ?_, rfl⟩))
    decide
  case cxclr =>
    refine .inr (.inr (.inr ⟨_, ?_, rfl⟩))
    decide
  all_goals refine .inl ?_
  case vsync => exact videoOnly_vsync v s
  case ctrlpf => exact videoOnly_ctrlpf v s
  case pf0 => exact videoOnly_playfield 0 v s
  case pf1 => exact videoOnly_playfield 1 v s
  case pf2 => exact videoOnly_playfield 2 v s
  case resp0 => exact videoOnly_setPos _ _ s
  case resp1 => exact videoOnly_setPos _ _ s
  case resm0 => exact videoOnly_setPos _ _ s
  case resm1 => exact videoOnly_setPos _ _ s
  case resbl => exact videoOnly_setPos _ _ s
  case grp0 => exact videoOnly_latchGfx .p0 v s
  case grp1 => exact videoOnly_latchGfx .p1 v s
  case enam0 => exact videoOnly_latchGfx .m0 v s
  case enam1 => exact videoOnly_latchGfx .m1 v s
  case enabl => exact videoOnly_latchGfx .bl v s
  case resmp0 => exact videoOnly_resmp .m0 .p0 v s
  case resmp1 => exact videoOnly_resmp .m1 .p1 v s
  case hmove => exact videoOnly_hmove s
  all_goals exact .refl s

/-- The same of a video write. -/
theorem videoWrite_cases (a : Addr) (s : State) :
    VideoOnly s (videoWrite a s) ∨ videoWrite a s = { s with cyc := Config.lineCycles } ∨
    videoWrite a s = handleColubk (readCell a s) s ∨
    ∃ cells, cells.all Config.chipCell = true ∧ videoWrite a s = zeroCells cells s := by
  unfold videoWrite
  split
  · exact .inl (.refl s)
  · exact handleReg_cases _ _ s

theorem VideoOnly.chipsOnly {s t : State} (h : VideoOnly s t) : ChipsOnly s t := by
  obtain ⟨v, rfl, -⟩ := h
  exact ⟨rfl, rfl, rfl, rfl, rfl, rfl, rfl, rfl, id⟩

theorem chipsOnly_videoWrite (a : Addr) (s : State) : ChipsOnly s (videoWrite a s) := by
  rcases videoWrite_cases a s with h | h | h | ⟨cells, -, h⟩
  · exact h.chipsOnly
  · rw [h]; exact ⟨rfl, rfl, rfl, rfl, rfl, rfl, rfl, rfl, id⟩
  · rw [h]; exact chipsOnly_onVideo _ s
  · rw [h]; exact chipsOnly_zeroCells cells s

/-- A video write stores to the chip's own cells only. -/
theorem readCell_videoWrite (a : Addr) (s : State) {k : Addr} (hk : Config.chipCell k = false) :
    readCell k (videoWrite a s) = readCell k s := by
  rcases videoWrite_cases a s with ⟨v, h, -⟩ | h | h | ⟨cells, hc, h⟩
  · rw [h]; rfl
  · rw [h]; rfl
  · rw [h]; rfl
  · rw [h, readCell_zeroCells, if_neg fun hm => by simp [List.all_eq_true.1 hc k hm] at hk]

/-! ### The commit -/

theorem chipsOnly_latchCollisions (ms : Layer → Mask) (s : State) : ChipsOnly s (latchCollisions ms s) := by
  unfold latchCollisions
  generalize pairs = l
  induction l generalizing s with
  | nil => exact .refl s
  | cons p rest ih =>
    refine ChipsOnly.trans ?_ (ih (latchPair ms s p))
    unfold latchPair
    split
    · exact chipsOnly_writeCell _ _ s
    · exact .refl s

/-- The collision step writes memory only. -/
theorem latchCollisions_shape (ms : Layer → Mask) (s : State) : ∃ m, latchCollisions ms s = { s with mem := m } := by
  unfold latchCollisions
  generalize pairs = l
  induction l generalizing s with
  | nil => exact ⟨s.mem, rfl⟩
  | cons p rest ih =>
    obtain ⟨m, h⟩ := ih (latchPair ms s p)
    refine ⟨m, h.trans ?_⟩
    unfold latchPair
    split <;> rfl

/-- Rendering a line touches memory and the frame buffer. -/
theorem renderLine_shape (s : State) :
    ∃ m f, renderLine s = { s with mem := m, video := { s.video with frame := f } } := by
  obtain ⟨m, h⟩ := latchCollisions_shape (masks s) s
  unfold renderLine
  dsimp only
  rw [h]
  exact ⟨m, _, rfl⟩

theorem chipsOnly_lineUpdate (s : State) : ChipsOnly s (lineUpdate s) := by
  unfold lineUpdate
  refine ChipsOnly.trans ?_ (chipsOnly_onVideo _ _)
  refine ChipsOnly.trans (t := if visible s.video then renderLine s else s) ?_
    ⟨rfl, rfl, rfl, rfl, rfl, rfl, rfl, rfl, id⟩
  split
  · unfold renderLine deliverRow
    exact (chipsOnly_latchCollisions (masks s) s).trans (chipsOnly_onVideo _ _)
  · exact .refl s

/-- Counters, signals, timer, host and frame events after the commit. -/
theorem lineUpdate_counters (s : State) :
    (lineUpdate s).cyc = s.cyc % Config.lineCycles ∧ (lineUpdate s).video.line = s.video.line + 1 ∧
      (lineUpdate s).video.bg.later = [] ∧ (lineUpdate s).vidPending = s.vidPending ∧
      (lineUpdate s).timPending = s.timPending ∧ (lineUpdate s).timer = s.timer ∧
      (lineUpdate s).hostPort = s.hostPort ∧ (lineUpdate s).video.frameComplete = s.video.frameComplete ∧
      (lineUpdate s).video.frameCount = s.video.frameCount := by
  unfold lineUpdate
  split
  · obtain ⟨m, f, h⟩ := renderLine_shape s
    rw [h]
    exact ⟨rfl, rfl, rfl, rfl, rfl, rfl, rfl, rfl, rfl⟩
  · exact ⟨rfl, rfl, rfl, rfl, rfl, rfl, rfl, rfl, rfl⟩

/-- Memory after the commit: the collision step's on a visible line. -/
theorem lineUpdate_mem (s : State) :
    (lineUpdate s).mem = if visible s.video then (latchCollisions (masks s) s).mem else s.mem := by
  show (if visible s.video then renderLine s else s).mem = _
  split
  · simp only [renderLine, deliverRow, onVideo]
  · rfl

/-- The frame buffer after the commit: one row replaced on a visible line. -/
theorem lineUpdate_frame (s : State) :
    (lineUpdate s).video.frame =
      if visible s.video then
        s.video.frame.setIfInBounds (s.video.line - Config.visFirst) (paint (masks s) (latchCollisions (masks s) s))
      else s.video.frame := by
  show (if visible s.video then renderLine s else s).video.frame = _
  split
  · obtain ⟨m, h⟩ := latchCollisions_shape (masks s) s
    have hv : (latchCollisions (masks s) s).video = s.video := by rw [h]
    simp only [renderLine, deliverRow, onVideo, hv]
  · rfl

/-- The collision step leaves every register of the video range. -/
theorem readReg_latchCollisions (ms : Layer → Mask) (r : VReg) (s : State) :
    readReg r (latchCollisions ms s) = readReg r s := by
  have hcells : ∀ p ∈ pairs, vregAddr r ≠ pairCell p := by cases r <;> decide
  unfold latchCollisions
  generalize pairs = l at hcells
  induction l generalizing s with
  | nil => rfl
  | cons p rest ih =>
    rw [List.foldl_cons, ih _ fun q hq => hcells q (List.mem_cons_of_mem _ hq)]
    unfold latchPair
    split
    · exact readCell_writeCell_of_ne _ _ (hcells p List.mem_cons_self)
    · rfl

/-- The commit stores to the collision latches only. -/
theorem readCell_lineUpdate (s : State) {k : Addr} (hk : Config.chipCell k = false) :
    readCell k (lineUpdate s) = readCell k s := by
  have hcells : ∀ p ∈ pairs, Config.chipCell (pairCell p) = true := List.all_eq_true.1 (by decide)
  have hl : readCell k (latchCollisions (masks s) s) = readCell k s := by
    generalize masks s = ms
    unfold latchCollisions
    generalize pairs = l at hcells
    induction l generalizing s with
    | nil => rfl
    | cons p rest ih =>
      rw [List.foldl_cons, ih _ fun q hq => hcells q (List.mem_cons_of_mem _ hq)]
      unfold latchPair
      split
      · exact readCell_writeCell_of_ne _ _ fun h => by simp [h, hcells p List.mem_cons_self] at hk
      · rfl
  by_cases hv : visible s.video = true
  · exact (readCell_congr (by rw [lineUpdate_mem, if_pos hv]) k).trans hl
  · exact readCell_congr (by rw [lineUpdate_mem, if_neg hv]) k

/-! ### Masks -/

/-- A stamp sets the pixels of its runs, modulo 160 (R352). -/
theorem stamp_eq_true (start : Nat) (bits : List Bool) (w x : Nat) :
    stamp start bits w x = true ↔
      ∃ i < bits.length, bits.getD i false = true ∧ ∃ j < w, (start + i * w + j) % 160 = x := by
  simp [stamp]

/-- The copies from slot `k` on are ORed into one mask (R352). -/
theorem copiesMask_eq_true (o : Obj) (s : State) (k : Nat) (offs : List Nat) (x : Nat) :
    copiesMask o s k offs x = true ↔
      ∃ n < offs.length, stamp (copyStart o (offs.getD n 0) s) (slotBits o (s.video.slots.get o (k + n)) s)
        (pixelWidth o s) x = true := by
  induction offs generalizing k with
  | nil => simp [copiesMask]
  | cons off offs ih =>
    simp only [copiesMask, Bool.or_eq_true, ih, List.length_cons]
    constructor
    · rintro (h | ⟨n, hn, h⟩)
      · exact ⟨0, by omega, by simpa using h⟩
      · exact ⟨n + 1, by omega, by rwa [show k + (n + 1) = k + 1 + n by omega]⟩
    · rintro ⟨_ | n, hn, h⟩
      · exact .inl (by simpa using h)
      · exact .inr ⟨n, by omega, by rwa [show k + 1 + n = k + (n + 1) by omega]⟩

/-- Two masks overlap when they share a pixel of the line (R357). -/
theorem overlaps_eq_true (a b : Mask) : overlaps a b = true ↔ ∃ x < 160, a x = true ∧ b x = true := by
  simp [overlaps]

/-! ### Timer and host -/

theorem Prescaler.cycles_pos (p : Prescaler) : 0 < p.cycles := by cases p <;> decide

/-- The tick stores to the countdown cell only. -/
theorem readCell_timerTick (n : Nat) (s : State) {k : Addr} (hk : k ≠ Config.intim) :
    readCell k (timerTick n s) = readCell k s :=
  readCell_writeCell_of_ne _ _ hk

/-- A timer write stores to the countdown cell only. -/
theorem readCell_timerWrite (a : Addr) (s : State) {k : Addr} (hk : k ≠ Config.intim) :
    readCell k (timerWrite a s) = readCell k s := by
  unfold timerWrite
  split
  · exact readCell_writeCell_of_ne _ _ hk
  · rfl

theorem chipsOnly_timerTick (n : Nat) (s : State) : ChipsOnly s (timerTick n s) :=
  ⟨rfl, rfl, rfl, rfl, rfl, rfl, rfl, rfl, fun h => writeCell_wf _ _ h⟩

theorem chipsOnly_timerWrite (a : Addr) (s : State) : ChipsOnly s (timerWrite a s) := by
  unfold timerWrite
  split
  · exact ⟨rfl, rfl, rfl, rfl, rfl, rfl, rfl, rfl, fun h => writeCell_wf _ _ h⟩
  · exact .refl s

/-- A timer write touches memory and the timer. -/
theorem timerWrite_shape (a : Addr) (s : State) :
    ∃ m tm, timerWrite a s = { s with mem := m, timer := tm } ∧ (tm = s.timer ∨ tm.acc = 0) := by
  unfold timerWrite
  split
  · exact ⟨_, _, rfl, .inr rfl⟩
  · exact ⟨s.mem, s.timer, rfl, .inl rfl⟩

theorem chipsOnly_serveFrame (s : State) : ChipsOnly s (serveFrame s) := by
  unfold serveFrame
  split
  · refine ChipsOnly.trans ?_ (chipsOnly_onVideo _ _)
    unfold hostFrame
    split
    · exact ⟨rfl, rfl, rfl, rfl, rfl, rfl, rfl, rfl, id⟩
    · exact (chipsOnly_hostStores _ s).trans ⟨rfl, rfl, rfl, rfl, rfl, rfl, rfl, rfl, id⟩
  · exact .refl s

/-- Serving a frame touches memory, the frame event and the host's port. -/
theorem serveFrame_shape (s : State) : ∃ m h,
    serveFrame s = { s with mem := m, hostPort := h, video := { s.video with frameComplete := false } } := by
  unfold serveFrame
  split
  · unfold hostFrame
    split
    · exact ⟨s.mem, _, rfl⟩
    · obtain ⟨m, h⟩ := hostStores_shape (by assumption : HostAnswer).stores s
      rw [h]
      exact ⟨m, _, rfl⟩
  · rename_i h
    refine ⟨s.mem, s.hostPort, ?_⟩
    have hf : s.video.frameComplete = false := by simpa using h
    rw [← hf]

/-! ### The rest of an iteration -/

theorem chipsOnly_dispatchVideo (s : State) : ChipsOnly s (dispatchVideo s) := by
  unfold dispatchVideo
  split
  · exact ChipsOnly.trans (t := { s with vidPending := none }) ⟨rfl, rfl, rfl, rfl, rfl, rfl, rfl, rfl, id⟩
      (chipsOnly_videoWrite _ _)
  · exact .refl s

theorem chipsOnly_dispatchTimer (s : State) : ChipsOnly s (dispatchTimer s) := by
  unfold dispatchTimer
  split
  · exact ChipsOnly.trans (t := { s with timPending := none }) ⟨rfl, rfl, rfl, rfl, rfl, rfl, rfl, rfl, id⟩
      (chipsOnly_timerWrite _ _)
  · exact .refl s

theorem chipsOnly_checkLine (s : State) : ChipsOnly s (checkLine s) := by
  unfold checkLine
  split
  · exact chipsOnly_lineUpdate s
  · exact .refl s

/-- No chip and no host changes a Processor register. -/
theorem chipsOnly_arbitrate (n : Nat) (s : State) : ChipsOnly s (arbitrate n s) :=
  ((((chipsOnly_dispatchVideo s).trans (chipsOnly_timerTick n _)).trans (chipsOnly_dispatchTimer _)).trans
    (chipsOnly_serveFrame _)).trans (chipsOnly_checkLine _)

theorem chipsOnly_afterStep (s : State) : ChipsOnly s (afterStep s) := by
  unfold afterStep
  split
  · exact .refl s
  · exact chipsOnly_arbitrate _ s

/-! ### The input cells -/

/-- No cell that `quietCell` gives is one the CORE stores to. -/
theorem chipCell_quietCell (k : Fin Config.quietCells) : Config.chipCell (Config.quietCell k) = false := by
  have hk : k.val < 8178 := k.isLt
  have hi : Config.intim.toNat = 0x284 := rfl
  simp only [Config.chipCell, Config.quietCell, Config.cxBase, Bool.or_eq_false_iff, Bool.and_eq_false_iff,
    decide_eq_false_iff_not, beq_eq_false_iff_ne, ne_eq, ← BitVec.toNat_inj, BitVec.toNat_ofNat, hi]
  split
  · omega
  · split
    · omega
    · split <;> omega

/-- Every cell the CORE does not store to is given: nothing else is assumed of an input cell. -/
theorem exists_quietCell (a : Addr) (h : Config.chipCell a = false) : ∃ k, Config.quietCell k = a := by
  have ha : a.toNat < 8192 := a.isLt
  have hi : Config.intim.toNat = 0x284 := rfl
  simp only [Config.chipCell, Config.cxBase, Bool.or_eq_false_iff, Bool.and_eq_false_iff, decide_eq_false_iff_not,
    beq_eq_false_iff_ne, ne_eq, ← BitVec.toNat_inj, hi] at h
  refine ⟨⟨if a.toNat < 0x20 then a.toNat else if a.toNat < 0x30 then a.toNat - 5
    else if a.toNat < 0x284 then a.toNat - 13 else a.toNat - 14, by simp only [Config.quietCells]; split_ifs <;> omega⟩, ?_⟩
  apply BitVec.eq_of_toNat_eq
  simp only [Config.quietCell, BitVec.toNat_ofNat]
  split_ifs <;> omega

/-- An input cell is none of the cells the CORE stores to (R412). -/
theorem chipCell_inputRegs (r : Config.InputReg) : Config.chipCell (Config.inputRegs r) = false :=
  chipCell_quietCell _

end Sys2Proof.Machine
end

