-- ==== Sys2Proof/Laws/Ops.lean ====
section
/-! SUPPORT. What the shared operations do: the Processor's write, the stack, the software interrupt and its return. -/

namespace Sys2Proof.Machine

/-! ### `MemWrite` changes the cell and the signals only -/

@[simp] theorem memWrite_a (w : Word) (v : Byte) (s : State) : (memWrite w v s).a = s.a := by
  unfold memWrite; split <;> rfl
@[simp] theorem memWrite_x (w : Word) (v : Byte) (s : State) : (memWrite w v s).x = s.x := by
  unfold memWrite; split <;> rfl
@[simp] theorem memWrite_y (w : Word) (v : Byte) (s : State) : (memWrite w v s).y = s.y := by
  unfold memWrite; split <;> rfl
@[simp] theorem memWrite_sp (w : Word) (v : Byte) (s : State) : (memWrite w v s).sp = s.sp := by
  unfold memWrite; split <;> rfl
@[simp] theorem memWrite_pc (w : Word) (v : Byte) (s : State) : (memWrite w v s).pc = s.pc := by
  unfold memWrite; split <;> rfl
@[simp] theorem memWrite_flags (w : Word) (v : Byte) (s : State) : (memWrite w v s).flags = s.flags := by
  unfold memWrite; split <;> rfl
@[simp] theorem memWrite_halted (w : Word) (v : Byte) (s : State) : (memWrite w v s).halted = s.halted := by
  unfold memWrite; split <;> rfl
@[simp] theorem memWrite_stepCost (w : Word) (v : Byte) (s : State) : (memWrite w v s).stepCost = s.stepCost := by
  unfold memWrite; split <;> rfl
@[simp] theorem memWrite_cyc (w : Word) (v : Byte) (s : State) : (memWrite w v s).cyc = s.cyc := by
  unfold memWrite; split <;> rfl
@[simp] theorem memWrite_video (w : Word) (v : Byte) (s : State) : (memWrite w v s).video = s.video := by
  unfold memWrite; split <;> rfl
@[simp] theorem memWrite_timer (w : Word) (v : Byte) (s : State) : (memWrite w v s).timer = s.timer := by
  unfold memWrite; split <;> rfl
@[simp] theorem memWrite_hostPort (w : Word) (v : Byte) (s : State) : (memWrite w v s).hostPort = s.hostPort := by
  unfold memWrite; split <;> rfl

/-- The hardwired port is the one cell whose write is discarded. -/
theorem writeIgnored_iff (a : Addr) : Config.writeIgnoreSet.contains a = true ↔ a = Config.inputPort := by
  simp [Config.writeIgnoreSet]

theorem memWrite_of_port {w : Word} (v : Byte) (s : State) (h : maskAddr w = Config.inputPort) :
    memWrite w v s = s := by
  rw [memWrite, if_pos ((writeIgnored_iff _).2 h)]

theorem memWrite_of_ne_port {w : Word} (v : Byte) (s : State) (h : maskAddr w ≠ Config.inputPort) :
    memWrite w v s = raiseSignals (maskAddr w) v (writeCell (maskAddr w) v s) := by
  rw [memWrite, if_neg fun hc => h ((writeIgnored_iff _).1 hc)]

/-- Every cell after a Processor write. -/
theorem readCell_memWrite (w : Word) (v : Byte) (k : Addr) (s : State) :
    readCell k (memWrite w v s) = if k = maskAddr w ∧ maskAddr w ≠ Config.inputPort then v else readCell k s := by
  by_cases h : maskAddr w = Config.inputPort
  · simp [memWrite_of_port v s h, h]
  · rw [memWrite_of_ne_port v s h]
    rw [readCell_congr (raiseSignals_mem _ _ _), readCell_writeCell]
    exact if_congr (by simp only [ne_eq, h, not_false_eq_true, and_true]) rfl rfl

theorem readCell_memWrite_of_ne {w : Word} (v : Byte) {k : Addr} (s : State) (h : k ≠ maskAddr w) :
    readCell k (memWrite w v s) = readCell k s := by
  simp [readCell_memWrite, h]

theorem memWrite_wf (w : Word) (v : Byte) {s : State} (h : s.mem.wf = true) : (memWrite w v s).mem.wf = true := by
  unfold memWrite
  split
  · exact h
  · exact writeCell_wf _ v h

/-- `MemWrite` decides by the memory and signals alone: every other part of the state passes through. -/
theorem memWrite_eq_with (w : Word) (v : Byte) (s : State) :
    memWrite w v s = { s with
      mem := (memWrite w v s).mem, vidPending := (memWrite w v s).vidPending
      timPending := (memWrite w v s).timPending } := by
  unfold memWrite; split <;> rfl

/-! ### The stack window -/

theorem stackAddr_toNat (sp : Byte) : (maskAddr (stackAddr sp)).toNat = 256 + sp.toNat := by
  have := sp.isLt
  simp [maskAddr, stackAddr, zext]
  omega

theorem stackAddr_ne_port (sp : Byte) : maskAddr (stackAddr sp) ≠ Config.inputPort := by
  intro h
  have h1 := congrArg BitVec.toNat h
  rw [stackAddr_toNat] at h1
  have := sp.isLt
  simp at h1
  omega

theorem stackAddr_not_video (sp : Byte) : inVideo (maskAddr (stackAddr sp)) = false := by
  simp only [inVideo, stackAddr_toNat, Config.videoHi]
  simp
  omega

theorem stackAddr_not_timer (sp : Byte) : inTimer (maskAddr (stackAddr sp)) = false := by
  have := sp.isLt
  simp only [inTimer, stackAddr_toNat, Config.timerLo]
  simp
  omega

theorem stackAddr_inj {p q : Byte} : maskAddr (stackAddr p) = maskAddr (stackAddr q) ↔ p = q := by
  refine ⟨fun h => ?_, fun h => h ▸ rfl⟩
  have h1 := congrArg BitVec.toNat h
  rw [stackAddr_toNat, stackAddr_toNat] at h1
  exact BitVec.eq_of_toNat_eq (by omega)

/-- A write of a stack cell is a raw write: no filter applies and no signal is raised. -/
theorem memWrite_stack (sp v : Byte) (s : State) :
    memWrite (stackAddr sp) v s = writeCell (maskAddr (stackAddr sp)) v s := by
  rw [memWrite_of_ne_port _ _ (stackAddr_ne_port sp), raiseSignals, stackAddr_not_video, stackAddr_not_timer]
  rfl

theorem push_eq (v : Byte) (s : State) :
    push v s = setSP (s.sp - 1) (writeCell (maskAddr (stackAddr s.sp)) v s) := by
  rw [push, memWrite_stack]

@[simp] theorem push_a (v : Byte) (s : State) : (push v s).a = s.a := by simp [push_eq]
@[simp] theorem push_x (v : Byte) (s : State) : (push v s).x = s.x := by simp [push_eq]
@[simp] theorem push_y (v : Byte) (s : State) : (push v s).y = s.y := by simp [push_eq]
@[simp] theorem push_pc (v : Byte) (s : State) : (push v s).pc = s.pc := by simp [push_eq]
@[simp] theorem push_flags (v : Byte) (s : State) : (push v s).flags = s.flags := by simp [push_eq]
@[simp] theorem push_halted (v : Byte) (s : State) : (push v s).halted = s.halted := by simp [push_eq]
@[simp] theorem push_stepCost (v : Byte) (s : State) : (push v s).stepCost = s.stepCost := by simp [push_eq]
@[simp] theorem push_cyc (v : Byte) (s : State) : (push v s).cyc = s.cyc := by simp [push_eq]
@[simp] theorem push_video (v : Byte) (s : State) : (push v s).video = s.video := by simp [push_eq]
@[simp] theorem push_timer (v : Byte) (s : State) : (push v s).timer = s.timer := by simp [push_eq]
@[simp] theorem push_hostPort (v : Byte) (s : State) : (push v s).hostPort = s.hostPort := by simp [push_eq]
@[simp] theorem push_vidPending (v : Byte) (s : State) : (push v s).vidPending = s.vidPending := by simp [push_eq]
@[simp] theorem push_timPending (v : Byte) (s : State) : (push v s).timPending = s.timPending := by simp [push_eq]
@[simp] theorem push_sp (v : Byte) (s : State) : (push v s).sp = s.sp - 1 := rfl
@[simp] theorem push_mem (v : Byte) (s : State) :
    (push v s).mem = s.mem.write (maskAddr (stackAddr s.sp)).toNat v := by simp [push_eq]

theorem push_wf (v : Byte) {s : State} (h : s.mem.wf = true) : (push v s).mem.wf = true := by
  rw [push_mem]
  exact Memory.wf_write (BitVec.isLt _) h

theorem readCell_push (v : Byte) (k : Addr) (s : State) :
    readCell k (push v s) = if k = maskAddr (stackAddr s.sp) then v else readCell k s := by
  rw [push_eq, readCell_congr (setSP_mem _ _), readCell_writeCell]

/-- What was pushed is pulled, with `SP` back where it was. -/
theorem pull_push (v : Byte) (s : State) : pull (push v s) = (v, setSP s.sp (push v s)) := by
  simp [pull, memRead, readCell_push]

@[simp] theorem pull_fst (s : State) : (pull s).1 = memRead (stackAddr (s.sp + 1)) s := rfl
@[simp] theorem pull_snd (s : State) : (pull s).2 = setSP (s.sp + 1) s := rfl

/-! ### Return addresses and the software interrupt -/

/-- The two pushes of a return address. -/
theorem pushWord_eq (w : Word) (s : State) : pushWord w s = push (lo8 w) (push (hi8 w) s) := rfl

/-- The return in one update: two bytes pulled, low first, and one added. -/
theorem pullReturn_eq (s : State) :
    pullReturn s = { s with
      sp := s.sp + 2
      pc := joinLE (memRead (stackAddr (s.sp + 1)) s) (memRead (stackAddr (s.sp + 2)) s) + 1 } := by
  have h : s.sp + 1 + 1 = s.sp + 2 := by rw [BitVec.add_assoc]; rfl
  simp only [pullReturn, pull, setPC, setSP, h]
  rfl

/-- The return from the software interrupt in one update. -/
theorem returnFromInterrupt_eq (s : State) :
    returnFromInterrupt s = { s with
      sp := s.sp + 3
      flags := unpack (memRead (stackAddr (s.sp + 1)) s)
      pc := joinLE (memRead (stackAddr (s.sp + 2)) s) (memRead (stackAddr (s.sp + 3)) s) + 1 } := by
  have h2 : s.sp + 1 + 1 = s.sp + 2 := by rw [BitVec.add_assoc]; rfl
  have h3 : s.sp + 1 + 2 = s.sp + 3 := by rw [BitVec.add_assoc]; rfl
  simp only [returnFromInterrupt, pull, pullReturn_eq, setFlags, setSP, h2, h3]
  rfl

/-- The vector of the software interrupt lies outside the stack window. -/
theorem vector_ne_stack (sp : Byte) : (0x1FFE : Addr) ≠ maskAddr (stackAddr sp) ∧
    (0x1FFF : Addr) ≠ maskAddr (stackAddr sp) := by
  have := sp.isLt
  constructor <;>
  · intro h
    have h1 := congrArg BitVec.toNat h
    rw [stackAddr_toNat] at h1
    simp at h1
    omega

/-- The entry of the software interrupt in one update over the three pushes. -/
theorem enterSoftwareInterrupt_eq (s : State) :
    enterSoftwareInterrupt s =
      { push (pack { s.flags with b := true }) (push (lo8 (s.pc - 1)) (push (hi8 (s.pc - 1)) s)) with
        flags := { s.flags with b := true, i := true }
        pc := joinLE (readCell 0x1FFE s) (readCell 0x1FFF s) } := by
  have hlo : ∀ t, memRead Config.vecBrk t = readCell 0x1FFE t := fun t => rfl
  have hhi : ∀ t, memRead (Config.vecBrk + 1) t = readCell 0x1FFF t := fun t => rfl
  simp only [enterSoftwareInterrupt, memRead16, hlo, hhi]
  simp [push_eq, pushWord_eq, setFlags, setPC, setSP, writeCell, readCell, Memory.read_write, stackAddr_toNat]
  have hs := fun p : Byte => p.isLt
  have h1 := hs s.sp
  have h2 := hs (s.sp - 1)
  have h3 := hs (s.sp - 1 - 1)
  rw [if_neg (by omega), if_neg (by omega), if_neg (by omega), if_neg (by omega), if_neg (by omega), if_neg (by omega)]

theorem enterSoftwareInterrupt_wf {s : State} (h : s.mem.wf = true) : (enterSoftwareInterrupt s).mem.wf = true := by
  rw [enterSoftwareInterrupt_eq]
  exact push_wf _ (push_wf _ (push_wf _ h))

end Sys2Proof.Machine
end

