-- ==== Sys2Proof/Laws/Table.lean ====
section
/-! SUPPORT. The opcode table: which forms have an entry, and what every entry satisfies. -/

namespace Sys2Proof

open Machine

/-- The length in bytes that an addressing mode gives an instruction (R100). -/
def Mode.length : Mode → Nat
  | .imp | .acc => 1
  | .imm | .zp | .zpx | .zpy | .izx | .izy | .rel => 2
  | .abs | .abx | .aby | .ind => 3

/-- The table has an entry for exactly the operand forms the instruction rules list. -/
theorem entry?_isSome_iff (mn : Mnemonic) (mode : Mode) : (entry? mn mode).isSome = (modesOf mn).contains mode := by
  cases mn <;> cases mode <;> rfl

/-- What holds of one entry: the length by the addressing mode, the range of the cost (the branch entries leave room for
their two extra cycles), and the page-cross flag for the three indexed modes only. -/
def Entry.sound (mode : Mode) (e : Entry) : Bool :=
  e.mode == mode && e.length == mode.length && decide (2 ≤ e.cycles) && decide (e.cycles + b2n e.pageCross ≤ 7) &&
    (!e.pageCross || [Mode.abx, .aby, .izy].contains mode) && (mode != .rel || e.cycles == 2)

theorem entry?_all_sound (mn : Mnemonic) (mode : Mode) : (entry? mn mode).all (Entry.sound mode) = true := by
  cases mn <;> cases mode <;> rfl

/-- What an entry found in the table satisfies. -/
theorem entry?_sound {mn : Mnemonic} {mode : Mode} {e : Entry} (h : entry? mn mode = some e) :
    e.mode = mode ∧ e.length = mode.length ∧ 2 ≤ e.cycles ∧ e.cycles + b2n e.pageCross ≤ 7 ∧
      (e.pageCross = true → mode ∈ [Mode.abx, .aby, .izy]) ∧ (mode = .rel → e.cycles = 2) := by
  have hs := entry?_all_sound mn mode
  rw [h] at hs
  simp only [Option.all_some, Entry.sound, Bool.and_eq_true, beq_iff_eq, decide_eq_true_eq] at hs
  obtain ⟨⟨⟨⟨⟨h1, h2⟩, h3⟩, h4⟩, h5⟩, h6⟩ := hs
  refine ⟨h1, h2, h3, h4, fun hp => ?_, fun hr => ?_⟩
  · simpa [hp] using h5
  · subst hr
    simpa using h6

/-- A well-formed instruction other than the illegal-opcode entry has its entry. -/
theorem Instr.entry?_of_wf {i : Instr} (h : i.wf = true) (hi : ∀ op, i ≠ .ill op) : ∃ e, i.entry? = some e := by
  have hm : (modesOf i.mnemonic).contains i.mode = true := by
    cases i <;> first | exact h | exact absurd rfl (hi _)
  rw [← entry?_isSome_iff] at hm
  exact Option.isSome_iff_exists.1 hm

/-- An instruction with an entry is well formed. -/
theorem Instr.wf_of_entry? {i : Instr} {e : Entry} (h : i.entry? = some e) : i.wf = true := by
  have hm : (modesOf i.mnemonic).contains i.mode = true := by
    rw [← entry?_isSome_iff]
    exact Option.isSome_iff_exists.2 ⟨e, h⟩
  cases i <;> first | exact hm | exact absurd h (by simp [Instr.entry?, Instr.mnemonic, Sys2Proof.entry?, entriesOf])

/-- The number of operand bytes of a data operand. -/
theorem Operand.bytes_length (m : Operand) : m.bytes.length + 1 = m.mode.length := by cases m <;> rfl

/-- The number of operand bytes of JMP. -/
theorem JumpOperand.bytes_length (t : JumpOperand) : t.bytes.length + 1 = t.mode.length := by cases t <;> rfl

/-- Opcode byte and operand bytes together have the length of the addressing mode. -/
theorem Instr.operandBytes_length (i : Instr) : i.operandBytes.length + 1 = i.mode.length := by
  cases i <;> first | rfl | exact Operand.bytes_length _ | exact JumpOperand.bytes_length _

theorem Mode.length_pos (m : Mode) : 1 ≤ m.length ∧ m.length ≤ 3 := by cases m <;> decide

/-- Where a form has an entry, its opcode byte is that entry's. -/
theorem Instr.opcode?_of_entry? {i : Instr} {e : Entry} (h : i.entry? = some e) : i.opcode? = some e.opcode := by
  cases i <;> first
    | (simp [Instr.opcode?, h]; done)
    | exact absurd h (by simp [Instr.entry?, Instr.mnemonic, Sys2Proof.entry?, entriesOf])

/-! ### The decoder -/

/-- The matrix and R103's table name the same entry for an opcode byte. -/
def cellSound (op : Byte) : Bool :=
  match cellAt op with
  | none => unassigned.contains op
  | some (mn, mode) => !unassigned.contains op && ((entry? mn mode).map (·.opcode) == some op)

theorem cellSound_all : ∀ op : Byte, cellSound op = true := by decide +kernel

theorem cellAt_eq_none_iff (op : Byte) : cellAt op = none ↔ op ∈ unassigned := by
  have h := cellSound_all op
  unfold cellSound at h
  split at h
  · simp_all
  · simp_all

/-- The entry of an assigned opcode byte carries that byte. -/
theorem entry?_of_cellAt {op : Byte} {mn : Mnemonic} {mode : Mode} (h : cellAt op = some (mn, mode)) :
    ∃ e, entry? mn mode = some e ∧ e.opcode = op := by
  have hs := cellSound_all op
  simp only [cellSound, h, Bool.and_eq_true, beq_iff_eq, Option.map_eq_some_iff] at hs
  exact hs.2

/-- Each entry's opcode byte selects that mnemonic and mode in the matrix. -/
theorem cellAt_of_entry? {mn : Mnemonic} {mode : Mode} {e : Entry} (h : entry? mn mode = some e) :
    cellAt e.opcode = some (mn, mode) := by
  have hall : (entry? mn mode).all (fun e => cellAt e.opcode == some (mn, mode)) = true := by
    cases mn <;> cases mode <;> rfl
  rw [h] at hall
  simpa using hall

/-- The length the decoder finds for an entry's opcode byte is the entry's. -/
theorem lengthAt_of_entry? {mn : Mnemonic} {mode : Mode} {e : Entry} (h : entry? mn mode = some e) :
    lengthAt e.opcode = e.length := by
  simp [lengthAt, cellAt_of_entry? h, h]

/-- Assembly in a mode the mnemonic allows gives an instruction of that mnemonic and mode, with the operand bytes it
was given. -/
theorem assemble_of_mode {mn : Mnemonic} {mode : Mode} (h : (modesOf mn).contains mode = true) (b1 b2 : Byte) :
    ∃ i, assemble mn mode b1 b2 = some i ∧ i.mnemonic = mn ∧ i.mode = mode ∧
      i.operandBytes = [b1, b2].take (mode.length - 1) := by
  cases mn <;> cases mode <;> first
    | exact absurd h (by decide)
    | exact ⟨_, rfl, rfl, rfl, rfl⟩
    | exact ⟨_, rfl, rfl, rfl, by simp [Mode.length, Instr.operandBytes, Operand.bytes, JumpOperand.bytes]⟩

/-- What `decode3` reads is a well-formed instruction. -/
theorem decode3_wf (op b1 b2 : Byte) : (decode3 op b1 b2).wf = true := by
  unfold decode3
  split
  · rename_i h
    simpa [Instr.wf] using (cellAt_eq_none_iff op).1 h
  · rename_i mn mode h
    obtain ⟨e, he, -⟩ := entry?_of_cellAt h
    obtain ⟨i, hi, hmn, hmode, -⟩ := assemble_of_mode (by rw [← entry?_isSome_iff, he]; rfl) b1 b2
    rw [hi]
    exact Instr.wf_of_entry? (i := i) (e := e) (by rw [Instr.entry?, hmn, hmode, he])

/-- The illegal-opcode entry is read for an unassigned byte only, and carries it. -/
theorem decode3_eq_ill {op b1 b2 k : Byte} (h : decode3 op b1 b2 = .ill k) : k = op ∧ op ∈ unassigned := by
  unfold decode3 at h
  split at h
  · rename_i hc
    injection h with h
    exact ⟨h.symm, (cellAt_eq_none_iff op).1 hc⟩
  · rename_i mn mode hc
    obtain ⟨e, he, -⟩ := entry?_of_cellAt hc
    obtain ⟨i, hi, hmn, hmode, -⟩ := assemble_of_mode (by rw [← entry?_isSome_iff, he]; rfl) b1 b2
    rw [hi] at h
    have hk : i = .ill k := h
    subst hk
    rw [← show Mnemonic.ill = mn from hmn] at he
    cases he

end Sys2Proof
end

