-- ==== Sys2Proof/Laws/Execute.lean ====
section
/-! SUPPORT. The Processor's step: the operations over operands, what `perform` answers, and the shape every meaning
has. -/

namespace Sys2Proof.Machine

/-! ### The updates around an operation -/

@[simp] theorem charge_a (n : Nat) (s : State) : (charge n s).a = s.a := rfl
@[simp] theorem charge_x (n : Nat) (s : State) : (charge n s).x = s.x := rfl
@[simp] theorem charge_y (n : Nat) (s : State) : (charge n s).y = s.y := rfl
@[simp] theorem charge_sp (n : Nat) (s : State) : (charge n s).sp = s.sp := rfl
@[simp] theorem charge_pc (n : Nat) (s : State) : (charge n s).pc = s.pc := rfl
@[simp] theorem charge_flags (n : Nat) (s : State) : (charge n s).flags = s.flags := rfl
@[simp] theorem charge_vidPending (n : Nat) (s : State) : (charge n s).vidPending = s.vidPending := rfl
@[simp] theorem charge_timPending (n : Nat) (s : State) : (charge n s).timPending = s.timPending := rfl
@[simp] theorem charge_halted (n : Nat) (s : State) : (charge n s).halted = s.halted := rfl
@[simp] theorem charge_stepCost (n : Nat) (s : State) : (charge n s).stepCost = n := rfl
@[simp] theorem charge_mem (n : Nat) (s : State) : (charge n s).mem = s.mem := rfl
@[simp] theorem charge_cyc (n : Nat) (s : State) : (charge n s).cyc = s.cyc + Config.clockRatio * n := rfl
@[simp] theorem charge_video (n : Nat) (s : State) : (charge n s).video = s.video := rfl
@[simp] theorem charge_timer (n : Nat) (s : State) : (charge n s).timer = s.timer := rfl
@[simp] theorem charge_hostPort (n : Nat) (s : State) : (charge n s).hostPort = s.hostPort := rfl

@[simp] theorem advancePC_a (n : Nat) (s : State) : (advancePC n s).a = s.a := rfl
@[simp] theorem advancePC_x (n : Nat) (s : State) : (advancePC n s).x = s.x := rfl
@[simp] theorem advancePC_y (n : Nat) (s : State) : (advancePC n s).y = s.y := rfl
@[simp] theorem advancePC_sp (n : Nat) (s : State) : (advancePC n s).sp = s.sp := rfl
@[simp] theorem advancePC_pc (n : Nat) (s : State) : (advancePC n s).pc = s.pc + BitVec.ofNat 16 n := rfl
@[simp] theorem advancePC_flags (n : Nat) (s : State) : (advancePC n s).flags = s.flags := rfl
@[simp] theorem advancePC_vidPending (n : Nat) (s : State) : (advancePC n s).vidPending = s.vidPending := rfl
@[simp] theorem advancePC_timPending (n : Nat) (s : State) : (advancePC n s).timPending = s.timPending := rfl
@[simp] theorem advancePC_halted (n : Nat) (s : State) : (advancePC n s).halted = s.halted := rfl
@[simp] theorem advancePC_stepCost (n : Nat) (s : State) : (advancePC n s).stepCost = s.stepCost := rfl
@[simp] theorem advancePC_mem (n : Nat) (s : State) : (advancePC n s).mem = s.mem := rfl
@[simp] theorem advancePC_cyc (n : Nat) (s : State) : (advancePC n s).cyc = s.cyc := rfl
@[simp] theorem advancePC_video (n : Nat) (s : State) : (advancePC n s).video = s.video := rfl
@[simp] theorem advancePC_timer (n : Nat) (s : State) : (advancePC n s).timer = s.timer := rfl
@[simp] theorem advancePC_hostPort (n : Nat) (s : State) : (advancePC n s).hostPort = s.hostPort := rfl

/-! ### Loads and stores of a resolved operand -/

/-- A load depends on the accumulator and the memory alone. -/
theorem load_congr {s t : State} (ha : t.a = s.a) (hm : t.mem = s.mem) (o : Resolved) : load o t = load o s := by
  cases o with
  | acc => exact ha
  | imm v => rfl
  | addr ea => exact memRead_congr hm ea

@[simp] theorem load_advancePC (o : Resolved) (n : Nat) (s : State) : load o (advancePC n s) = load o s :=
  load_congr rfl rfl o

@[simp] theorem store_x (o : Resolved) (v : Byte) (s : State) : (store o v s).x = s.x := by
  cases o <;> simp [store]
@[simp] theorem store_y (o : Resolved) (v : Byte) (s : State) : (store o v s).y = s.y := by
  cases o <;> simp [store]
@[simp] theorem store_sp (o : Resolved) (v : Byte) (s : State) : (store o v s).sp = s.sp := by
  cases o <;> simp [store]
@[simp] theorem store_pc (o : Resolved) (v : Byte) (s : State) : (store o v s).pc = s.pc := by
  cases o <;> simp [store]
@[simp] theorem store_flags (o : Resolved) (v : Byte) (s : State) : (store o v s).flags = s.flags := by
  cases o <;> simp [store]
@[simp] theorem store_halted (o : Resolved) (v : Byte) (s : State) : (store o v s).halted = s.halted := by
  cases o <;> simp [store]
@[simp] theorem store_stepCost (o : Resolved) (v : Byte) (s : State) : (store o v s).stepCost = s.stepCost := by
  cases o <;> simp [store]
@[simp] theorem store_cyc (o : Resolved) (v : Byte) (s : State) : (store o v s).cyc = s.cyc := by
  cases o <;> simp [store]
@[simp] theorem store_video (o : Resolved) (v : Byte) (s : State) : (store o v s).video = s.video := by
  cases o <;> simp [store]
@[simp] theorem store_timer (o : Resolved) (v : Byte) (s : State) : (store o v s).timer = s.timer := by
  cases o <;> simp [store]
@[simp] theorem store_hostPort (o : Resolved) (v : Byte) (s : State) : (store o v s).hostPort = s.hostPort := by
  cases o <;> simp [store]

theorem store_wf (o : Resolved) (v : Byte) {s : State} (h : s.mem.wf = true) : (store o v s).mem.wf = true := by
  cases o with
  | acc => exact h
  | imm _ => exact h
  | addr ea => exact memWrite_wf ea v h

/-- Every operand form but accumulator and immediate resolves to an address. -/
theorem resolve_addr_of_mode {m : Operand} (ha : m.mode ≠ .acc) (hi : m.mode ≠ .imm) (s : State) :
    ∃ ea, resolve m s = .addr ea := by
  cases m <;> first | exact ⟨_, rfl⟩ | exact absurd rfl ha | exact absurd rfl hi

/-- A form with an entry of a mnemonic that has neither accumulator nor immediate form resolves to an address. -/
theorem resolve_addr_of_entry? {mn : Mnemonic} {m : Operand} {e : Entry} (he : entry? mn m.mode = some e)
    (ha : Mode.acc ∉ modesOf mn) (hi : Mode.imm ∉ modesOf mn) (s : State) : ∃ ea, resolve m s = .addr ea := by
  have hm : m.mode ∈ modesOf mn := by
    have h := entry?_isSome_iff mn m.mode
    rw [he] at h
    simpa using h.symm
  exact resolve_addr_of_mode (fun h => ha (h ▸ hm)) (fun h => hi (h ▸ hm)) s

/-- A page is crossed only by ABX, ABY and IZY. -/
theorem crossed_eq_false {m : Operand} (h : m.mode ∉ [Mode.abx, .aby, .izy]) (s : State) : crossed m s = false := by
  cases m <;> first | rfl | exact absurd (by simp [Operand.mode]) h


/-! ### The read-modify-write and arithmetic operations -/

@[simp] theorem applyShift_x (f : Byte → Bool → Shifted) (o : Resolved) (s : State) : (applyShift f o s).x = s.x := by
  simp [applyShift]
@[simp] theorem applyShift_y (f : Byte → Bool → Shifted) (o : Resolved) (s : State) : (applyShift f o s).y = s.y := by
  simp [applyShift]
@[simp] theorem applyShift_sp (f : Byte → Bool → Shifted) (o : Resolved) (s : State) :
    (applyShift f o s).sp = s.sp := by
  simp [applyShift]
@[simp] theorem applyShift_pc (f : Byte → Bool → Shifted) (o : Resolved) (s : State) :
    (applyShift f o s).pc = s.pc := by
  simp [applyShift]
@[simp] theorem applyShift_halted (f : Byte → Bool → Shifted) (o : Resolved) (s : State) :
    (applyShift f o s).halted = s.halted := by
  simp [applyShift]
@[simp] theorem applyShift_stepCost (f : Byte → Bool → Shifted) (o : Resolved) (s : State) :
    (applyShift f o s).stepCost = s.stepCost := by
  simp [applyShift]
@[simp] theorem applyShift_cyc (f : Byte → Bool → Shifted) (o : Resolved) (s : State) :
    (applyShift f o s).cyc = s.cyc := by
  simp [applyShift]
@[simp] theorem applyShift_video (f : Byte → Bool → Shifted) (o : Resolved) (s : State) :
    (applyShift f o s).video = s.video := by
  simp [applyShift]
@[simp] theorem applyShift_timer (f : Byte → Bool → Shifted) (o : Resolved) (s : State) :
    (applyShift f o s).timer = s.timer := by
  simp [applyShift]
@[simp] theorem applyShift_hostPort (f : Byte → Bool → Shifted) (o : Resolved) (s : State) :
    (applyShift f o s).hostPort = s.hostPort := by
  simp [applyShift]
@[simp] theorem applyStep_x (f : Byte → Byte) (o : Resolved) (s : State) : (applyStep f o s).x = s.x := by
  simp [applyStep]
@[simp] theorem applyStep_y (f : Byte → Byte) (o : Resolved) (s : State) : (applyStep f o s).y = s.y := by
  simp [applyStep]
@[simp] theorem applyStep_sp (f : Byte → Byte) (o : Resolved) (s : State) : (applyStep f o s).sp = s.sp := by
  simp [applyStep]
@[simp] theorem applyStep_pc (f : Byte → Byte) (o : Resolved) (s : State) : (applyStep f o s).pc = s.pc := by
  simp [applyStep]
@[simp] theorem applyStep_halted (f : Byte → Byte) (o : Resolved) (s : State) :
    (applyStep f o s).halted = s.halted := by
  simp [applyStep]
@[simp] theorem applyStep_stepCost (f : Byte → Byte) (o : Resolved) (s : State) :
    (applyStep f o s).stepCost = s.stepCost := by
  simp [applyStep]
@[simp] theorem applyStep_cyc (f : Byte → Byte) (o : Resolved) (s : State) : (applyStep f o s).cyc = s.cyc := by
  simp [applyStep]
@[simp] theorem applyStep_video (f : Byte → Byte) (o : Resolved) (s : State) : (applyStep f o s).video = s.video := by
  simp [applyStep]
@[simp] theorem applyStep_timer (f : Byte → Byte) (o : Resolved) (s : State) : (applyStep f o s).timer = s.timer := by
  simp [applyStep]
@[simp] theorem applyStep_hostPort (f : Byte → Byte) (o : Resolved) (s : State) :
    (applyStep f o s).hostPort = s.hostPort := by
  simp [applyStep]

theorem applyShift_wf (f : Byte → Bool → Shifted) (o : Resolved) {s : State} (h : s.mem.wf = true) :
    (applyShift f o s).mem.wf = true := store_wf o _ h

theorem applyStep_wf (f : Byte → Byte) (o : Resolved) {s : State} (h : s.mem.wf = true) :
    (applyStep f o s).mem.wf = true := store_wf o _ h

@[simp] theorem setAlu_x (r : Alu) (s : State) : (setAlu r s).x = s.x := by
  rfl
@[simp] theorem setAlu_y (r : Alu) (s : State) : (setAlu r s).y = s.y := by
  rfl
@[simp] theorem setAlu_sp (r : Alu) (s : State) : (setAlu r s).sp = s.sp := by
  rfl
@[simp] theorem setAlu_pc (r : Alu) (s : State) : (setAlu r s).pc = s.pc := by
  rfl
@[simp] theorem setAlu_vidPending (r : Alu) (s : State) : (setAlu r s).vidPending = s.vidPending := by
  rfl
@[simp] theorem setAlu_timPending (r : Alu) (s : State) : (setAlu r s).timPending = s.timPending := by
  rfl
@[simp] theorem setAlu_halted (r : Alu) (s : State) : (setAlu r s).halted = s.halted := by
  rfl
@[simp] theorem setAlu_stepCost (r : Alu) (s : State) : (setAlu r s).stepCost = s.stepCost := by
  rfl
@[simp] theorem setAlu_mem (r : Alu) (s : State) : (setAlu r s).mem = s.mem := by
  rfl
@[simp] theorem setAlu_cyc (r : Alu) (s : State) : (setAlu r s).cyc = s.cyc := by
  rfl
@[simp] theorem setAlu_video (r : Alu) (s : State) : (setAlu r s).video = s.video := by
  rfl
@[simp] theorem setAlu_timer (r : Alu) (s : State) : (setAlu r s).timer = s.timer := by
  rfl
@[simp] theorem setAlu_hostPort (r : Alu) (s : State) : (setAlu r s).hostPort = s.hostPort := by
  rfl


@[simp] theorem pushWord_a (w : Word) (s : State) : (pushWord w s).a = s.a := by
  simp [pushWord_eq]
@[simp] theorem pushWord_x (w : Word) (s : State) : (pushWord w s).x = s.x := by
  simp [pushWord_eq]
@[simp] theorem pushWord_y (w : Word) (s : State) : (pushWord w s).y = s.y := by
  simp [pushWord_eq]
@[simp] theorem pushWord_pc (w : Word) (s : State) : (pushWord w s).pc = s.pc := by
  simp [pushWord_eq]
@[simp] theorem pushWord_flags (w : Word) (s : State) : (pushWord w s).flags = s.flags := by
  simp [pushWord_eq]
@[simp] theorem pushWord_vidPending (w : Word) (s : State) : (pushWord w s).vidPending = s.vidPending := by
  simp [pushWord_eq]
@[simp] theorem pushWord_timPending (w : Word) (s : State) : (pushWord w s).timPending = s.timPending := by
  simp [pushWord_eq]
@[simp] theorem pushWord_halted (w : Word) (s : State) : (pushWord w s).halted = s.halted := by
  simp [pushWord_eq]
@[simp] theorem pushWord_stepCost (w : Word) (s : State) : (pushWord w s).stepCost = s.stepCost := by
  simp [pushWord_eq]
@[simp] theorem pushWord_cyc (w : Word) (s : State) : (pushWord w s).cyc = s.cyc := by
  simp [pushWord_eq]
@[simp] theorem pushWord_video (w : Word) (s : State) : (pushWord w s).video = s.video := by
  simp [pushWord_eq]
@[simp] theorem pushWord_timer (w : Word) (s : State) : (pushWord w s).timer = s.timer := by
  simp [pushWord_eq]
@[simp] theorem pushWord_hostPort (w : Word) (s : State) : (pushWord w s).hostPort = s.hostPort := by
  simp [pushWord_eq]
@[simp] theorem pullReturn_a (s : State) : (pullReturn s).a = s.a := by
  simp [pullReturn_eq]
@[simp] theorem pullReturn_x (s : State) : (pullReturn s).x = s.x := by
  simp [pullReturn_eq]
@[simp] theorem pullReturn_y (s : State) : (pullReturn s).y = s.y := by
  simp [pullReturn_eq]
@[simp] theorem pullReturn_flags (s : State) : (pullReturn s).flags = s.flags := by
  simp [pullReturn_eq]
@[simp] theorem pullReturn_vidPending (s : State) : (pullReturn s).vidPending = s.vidPending := by
  simp [pullReturn_eq]
@[simp] theorem pullReturn_timPending (s : State) : (pullReturn s).timPending = s.timPending := by
  simp [pullReturn_eq]
@[simp] theorem pullReturn_halted (s : State) : (pullReturn s).halted = s.halted := by
  simp [pullReturn_eq]
@[simp] theorem pullReturn_stepCost (s : State) : (pullReturn s).stepCost = s.stepCost := by
  simp [pullReturn_eq]
@[simp] theorem pullReturn_mem (s : State) : (pullReturn s).mem = s.mem := by
  simp [pullReturn_eq]
@[simp] theorem pullReturn_cyc (s : State) : (pullReturn s).cyc = s.cyc := by
  simp [pullReturn_eq]
@[simp] theorem pullReturn_video (s : State) : (pullReturn s).video = s.video := by
  simp [pullReturn_eq]
@[simp] theorem pullReturn_timer (s : State) : (pullReturn s).timer = s.timer := by
  simp [pullReturn_eq]
@[simp] theorem pullReturn_hostPort (s : State) : (pullReturn s).hostPort = s.hostPort := by
  simp [pullReturn_eq]
@[simp] theorem returnFromInterrupt_a (s : State) : (returnFromInterrupt s).a = s.a := by
  simp [returnFromInterrupt_eq]
@[simp] theorem returnFromInterrupt_x (s : State) : (returnFromInterrupt s).x = s.x := by
  simp [returnFromInterrupt_eq]
@[simp] theorem returnFromInterrupt_y (s : State) : (returnFromInterrupt s).y = s.y := by
  simp [returnFromInterrupt_eq]
@[simp] theorem returnFromInterrupt_vidPending (s : State) : (returnFromInterrupt s).vidPending = s.vidPending := by
  simp [returnFromInterrupt_eq]
@[simp] theorem returnFromInterrupt_timPending (s : State) : (returnFromInterrupt s).timPending = s.timPending := by
  simp [returnFromInterrupt_eq]
@[simp] theorem returnFromInterrupt_halted (s : State) : (returnFromInterrupt s).halted = s.halted := by
  simp [returnFromInterrupt_eq]
@[simp] theorem returnFromInterrupt_stepCost (s : State) : (returnFromInterrupt s).stepCost = s.stepCost := by
  simp [returnFromInterrupt_eq]
@[simp] theorem returnFromInterrupt_mem (s : State) : (returnFromInterrupt s).mem = s.mem := by
  simp [returnFromInterrupt_eq]
@[simp] theorem returnFromInterrupt_cyc (s : State) : (returnFromInterrupt s).cyc = s.cyc := by
  simp [returnFromInterrupt_eq]
@[simp] theorem returnFromInterrupt_video (s : State) : (returnFromInterrupt s).video = s.video := by
  simp [returnFromInterrupt_eq]
@[simp] theorem returnFromInterrupt_timer (s : State) : (returnFromInterrupt s).timer = s.timer := by
  simp [returnFromInterrupt_eq]
@[simp] theorem returnFromInterrupt_hostPort (s : State) : (returnFromInterrupt s).hostPort = s.hostPort := by
  simp [returnFromInterrupt_eq]
@[simp] theorem enterSoftwareInterrupt_a (s : State) : (enterSoftwareInterrupt s).a = s.a := by
  simp [enterSoftwareInterrupt_eq]
@[simp] theorem enterSoftwareInterrupt_x (s : State) : (enterSoftwareInterrupt s).x = s.x := by
  simp [enterSoftwareInterrupt_eq]
@[simp] theorem enterSoftwareInterrupt_y (s : State) : (enterSoftwareInterrupt s).y = s.y := by
  simp [enterSoftwareInterrupt_eq]
@[simp] theorem enterSoftwareInterrupt_vidPending (s : State) :
    (enterSoftwareInterrupt s).vidPending = s.vidPending := by
  simp [enterSoftwareInterrupt_eq]
@[simp] theorem enterSoftwareInterrupt_timPending (s : State) :
    (enterSoftwareInterrupt s).timPending = s.timPending := by
  simp [enterSoftwareInterrupt_eq]
@[simp] theorem enterSoftwareInterrupt_halted (s : State) : (enterSoftwareInterrupt s).halted = s.halted := by
  simp [enterSoftwareInterrupt_eq]
@[simp] theorem enterSoftwareInterrupt_stepCost (s : State) : (enterSoftwareInterrupt s).stepCost = s.stepCost := by
  simp [enterSoftwareInterrupt_eq]
@[simp] theorem enterSoftwareInterrupt_cyc (s : State) : (enterSoftwareInterrupt s).cyc = s.cyc := by
  simp [enterSoftwareInterrupt_eq]
@[simp] theorem enterSoftwareInterrupt_video (s : State) : (enterSoftwareInterrupt s).video = s.video := by
  simp [enterSoftwareInterrupt_eq]
@[simp] theorem enterSoftwareInterrupt_timer (s : State) : (enterSoftwareInterrupt s).timer = s.timer := by
  simp [enterSoftwareInterrupt_eq]
@[simp] theorem enterSoftwareInterrupt_hostPort (s : State) : (enterSoftwareInterrupt s).hostPort = s.hostPort := by
  simp [enterSoftwareInterrupt_eq]

/-! ### Branches -/

/-- The extra cycles of a branch are at most two, and only `PC` changes. -/
theorem branch_eq (c : Bool) (d : Byte) (s : State) :
    (branch c d s).1 ≤ 2 ∧ (branch c d s).2 = setPC (if c then branchTarget s.pc d else s.pc) s := by
  unfold branch
  cases c
  · exact ⟨Nat.zero_le 2, rfl⟩
  · refine ⟨?_, rfl⟩
    show 1 + b2n _ ≤ 2
    unfold b2n
    split <;> omega


@[simp] theorem branch_snd_a (c : Bool) (d : Byte) (s : State) : ((branch c d s).2).a = s.a := by
  unfold branch; split <;> rfl
@[simp] theorem branch_snd_x (c : Bool) (d : Byte) (s : State) : ((branch c d s).2).x = s.x := by
  unfold branch; split <;> rfl
@[simp] theorem branch_snd_y (c : Bool) (d : Byte) (s : State) : ((branch c d s).2).y = s.y := by
  unfold branch; split <;> rfl
@[simp] theorem branch_snd_sp (c : Bool) (d : Byte) (s : State) : ((branch c d s).2).sp = s.sp := by
  unfold branch; split <;> rfl
@[simp] theorem branch_snd_flags (c : Bool) (d : Byte) (s : State) : ((branch c d s).2).flags = s.flags := by
  unfold branch; split <;> rfl
@[simp] theorem branch_snd_vidPending (c : Bool) (d : Byte) (s : State) :
    ((branch c d s).2).vidPending = s.vidPending := by
  unfold branch; split <;> rfl
@[simp] theorem branch_snd_timPending (c : Bool) (d : Byte) (s : State) :
    ((branch c d s).2).timPending = s.timPending := by
  unfold branch; split <;> rfl
@[simp] theorem branch_snd_halted (c : Bool) (d : Byte) (s : State) : ((branch c d s).2).halted = s.halted := by
  unfold branch; split <;> rfl
@[simp] theorem branch_snd_stepCost (c : Bool) (d : Byte) (s : State) : ((branch c d s).2).stepCost = s.stepCost := by
  unfold branch; split <;> rfl
@[simp] theorem branch_snd_mem (c : Bool) (d : Byte) (s : State) : ((branch c d s).2).mem = s.mem := by
  unfold branch; split <;> rfl
@[simp] theorem branch_snd_cyc (c : Bool) (d : Byte) (s : State) : ((branch c d s).2).cyc = s.cyc := by
  unfold branch; split <;> rfl
@[simp] theorem branch_snd_video (c : Bool) (d : Byte) (s : State) : ((branch c d s).2).video = s.video := by
  unfold branch; split <;> rfl
@[simp] theorem branch_snd_timer (c : Bool) (d : Byte) (s : State) : ((branch c d s).2).timer = s.timer := by
  unfold branch; split <;> rfl
@[simp] theorem branch_snd_hostPort (c : Bool) (d : Byte) (s : State) : ((branch c d s).2).hostPort = s.hostPort := by
  unfold branch; split <;> rfl

/-- A displacement byte as a signed number. -/
theorem sext8_eq (d : Byte) : sext8 d = d.toInt := by
  simp only [sext8, BitVec.toInt_eq_toNat_cond]
  split <;> split <;> omega

/-- The target of a branch is the sum with the sign-extended displacement, modulo 65536. -/
theorem branchTarget_eq (old : Word) (d : Byte) : branchTarget old d = old + d.signExtend 16 := by
  rw [branchTarget, sext8_eq, BitVec.ofInt_add, BitVec.ofInt_natCast, BitVec.ofNat_toNat, BitVec.setWidth_eq]
  rfl

/-! ### `perform` -/

theorem perform_of_entry {i : Instr} {e : Entry} (h : i.entry? = some e) (c : Bool) (op : State → Nat × State)
   (s : State) :
    perform i c op s =
      .next (charge (totalCost e c (op (advancePC e.length s)).1) (op (advancePC e.length s)).2) := by
  simp [perform, h]

/-- A meaning that answers has an entry, and answers its operation's state with the cost charged. -/
theorem perform_next {i : Instr} {c : Bool} {op : State → Nat × State} {s t : State}
    (h : perform i c op s = .next t) :
    ∃ e, i.entry? = some e ∧
      t = charge (totalCost e c (op (advancePC e.length s)).1) (op (advancePC e.length s)).2 := by
  unfold perform at h
  split at h
  · cases h
  · injection h with h
    exact ⟨_, ‹_›, h.symm⟩

/-- The cost of an operation without extra cycles. -/
theorem totalCost_bounds {mn : Mnemonic} {mode : Mode} {e : Entry} (h : entry? mn mode = some e) (c : Bool) :
    2 ≤ totalCost e c 0 ∧ totalCost e c 0 ≤ 7 := by
  obtain ⟨-, -, h2, h7, -⟩ := entry?_sound h
  have hb : b2n (e.pageCross && c) ≤ b2n e.pageCross := by cases e.pageCross <;> cases c <;> decide
  unfold totalCost
  omega

/-- The cost of a branch, with its extra cycles. -/
theorem totalCost_branch {mn : Mnemonic} {e : Entry} (h : entry? mn .rel = some e) {n : Nat} (hn : n ≤ 2) :
    2 ≤ totalCost e false n ∧ totalCost e false n ≤ 7 := by
  have h2 := (entry?_sound h).2.2.2.2.2 rfl
  simp only [totalCost, h2, Bool.and_false, b2n]
  simp
  omega

/-! ### The meanings -/

/-- The illegal-opcode entry sets `halted` and nothing else. -/
theorem exec_ill (op : Byte) (s : State) : exec (.ill op) s = .next (raiseFatal op s) := rfl

/-- Every other instruction is `perform` of some operation with some page-cross flag. -/
theorem exec_perform (i : Instr) (s : State) (h : ∀ op, i ≠ .ill op) : ∃ c op, exec i s = perform i c op s := by
  cases i
  case ill op => exact absurd rfl (h op)
  all_goals
    simp only [exec, performImplied, performData, performLoad,
      execLda, execLdx, execLdy, execSta, execStx, execSty, execTax, execTay, execTxa, execTya, execTsx,
      execTxs, execAdc, execSbc, execAnd, execOra, execEor, execCmp, execCpx, execCpy, execBit, execAsl,
      execLsr, execRol, execRor, execInc, execDec, execInx, execIny, execDex, execDey, execJmp, execJsr,
      execRts, execRti, execBrk, execBcc, execBcs, execBeq, execBne, execBmi, execBpl, execBvc, execBvs,
      execPha, execPla, execPhp, execPlp, execClc, execSec, execCli, execSei, execCld, execSed, execClv,
      execNop]
    exact ⟨_, _, rfl⟩

/-- No meaning faults. -/
theorem exec_ne_fault (i : Instr) (s : State) (f : Fault) : exec i s ≠ .fault f := by
  by_cases hi : ∃ op, i = .ill op
  · obtain ⟨op, rfl⟩ := hi
    simp [exec_ill]
  · obtain ⟨c, op, h⟩ := exec_perform i s fun op hop => hi ⟨op, hop⟩
    rw [h, perform]
    split <;> simp

/-- A meaning refuses exactly the terms that are no instruction; the illegal-opcode entry never refuses. -/
theorem exec_refused_iff (i : Instr) (s : State) (r : Refusal) :
    exec i s = .refused r ↔ r = .noSuchForm ∧ i.entry? = none ∧ ∀ op, i ≠ .ill op := by
  by_cases hi : ∃ op, i = .ill op
  · obtain ⟨op, rfl⟩ := hi
    simp [exec_ill]
  · have hi' : ∀ op, i ≠ .ill op := fun op hop => hi ⟨op, hop⟩
    obtain ⟨c, op, h⟩ := exec_perform i s hi'
    rw [h, perform]
    cases he : i.entry? with
    | none => simp [hi', eq_comm]
    | some e => simp

end Sys2Proof.Machine
end

