-- ==== Sys2Proof/Laws/PerInstr.lean ====
section
/-! SUPPORT. The family EncodedLength: one lemma per constructor of `Instr`. -/

namespace Sys2Proof.Laws.EncodedLength

/-- The encoding of a well-formed instruction has the length its table entry gives (one byte for the illegal-opcode
entry), starts with the opcode byte, and goes on with its operand bytes (R100, R102). -/
def Statement (i : Instr) : Prop :=
  i.wf = true → ∃ op, i.opcode? = some op ∧ encode i = op :: i.operandBytes ∧
    (encode i).length = (i.entry?.map (·.length)).getD 1

/-- The statement of an instruction with an entry. -/
theorem of_entry {i : Instr} {e : Entry} (h : i.entry? = some e) : Statement i := by
  intro _
  have hl := i.operandBytes_length
  have he := (entry?_sound (mn := i.mnemonic) h).2.1
  refine ⟨e.opcode, Instr.opcode?_of_entry? h, ?_, ?_⟩
  · simp [encode, Instr.opcode?_of_entry? h]
  · simp [encode, Instr.opcode?_of_entry? h, h, he, hl]

/-- The statement of an instruction other than the illegal-opcode entry. -/
theorem of_wf {i : Instr} (hi : i.mnemonic ≠ .ill) : Statement i := by
  intro h
  obtain ⟨e, he⟩ := Instr.entry?_of_wf h (by rintro op rfl; exact hi rfl)
  exact of_entry he h

theorem lda (m : Operand) : Statement (.lda m) := of_wf (by simp [Instr.mnemonic])
theorem ldx (m : Operand) : Statement (.ldx m) := of_wf (by simp [Instr.mnemonic])
theorem ldy (m : Operand) : Statement (.ldy m) := of_wf (by simp [Instr.mnemonic])
theorem sta (m : Operand) : Statement (.sta m) := of_wf (by simp [Instr.mnemonic])
theorem stx (m : Operand) : Statement (.stx m) := of_wf (by simp [Instr.mnemonic])
theorem sty (m : Operand) : Statement (.sty m) := of_wf (by simp [Instr.mnemonic])
theorem tax : Statement .tax := of_wf (by decide)
theorem tay : Statement .tay := of_wf (by decide)
theorem txa : Statement .txa := of_wf (by decide)
theorem tya : Statement .tya := of_wf (by decide)
theorem tsx : Statement .tsx := of_wf (by decide)
theorem txs : Statement .txs := of_wf (by decide)
theorem adc (m : Operand) : Statement (.adc m) := of_wf (by simp [Instr.mnemonic])
theorem sbc (m : Operand) : Statement (.sbc m) := of_wf (by simp [Instr.mnemonic])
theorem and (m : Operand) : Statement (.and m) := of_wf (by simp [Instr.mnemonic])
theorem ora (m : Operand) : Statement (.ora m) := of_wf (by simp [Instr.mnemonic])
theorem eor (m : Operand) : Statement (.eor m) := of_wf (by simp [Instr.mnemonic])
theorem cmp (m : Operand) : Statement (.cmp m) := of_wf (by simp [Instr.mnemonic])
theorem cpx (m : Operand) : Statement (.cpx m) := of_wf (by simp [Instr.mnemonic])
theorem cpy (m : Operand) : Statement (.cpy m) := of_wf (by simp [Instr.mnemonic])
theorem bit (m : Operand) : Statement (.bit m) := of_wf (by simp [Instr.mnemonic])
theorem asl (m : Operand) : Statement (.asl m) := of_wf (by simp [Instr.mnemonic])
theorem lsr (m : Operand) : Statement (.lsr m) := of_wf (by simp [Instr.mnemonic])
theorem rol (m : Operand) : Statement (.rol m) := of_wf (by simp [Instr.mnemonic])
theorem ror (m : Operand) : Statement (.ror m) := of_wf (by simp [Instr.mnemonic])
theorem inc (m : Operand) : Statement (.inc m) := of_wf (by simp [Instr.mnemonic])
theorem dec (m : Operand) : Statement (.dec m) := of_wf (by simp [Instr.mnemonic])
theorem inx : Statement .inx := of_wf (by decide)
theorem iny : Statement .iny := of_wf (by decide)
theorem dex : Statement .dex := of_wf (by decide)
theorem dey : Statement .dey := of_wf (by decide)
theorem jmp (target : JumpOperand) : Statement (.jmp target) := of_wf (by simp [Instr.mnemonic])
theorem jsr (target : Word) : Statement (.jsr target) := of_wf (by simp [Instr.mnemonic])
theorem rts : Statement .rts := of_wf (by decide)
theorem rti : Statement .rti := of_wf (by decide)
theorem brk : Statement .brk := of_wf (by decide)
theorem bcc (offset : Byte) : Statement (.bcc offset) := of_wf (by simp [Instr.mnemonic])
theorem bcs (offset : Byte) : Statement (.bcs offset) := of_wf (by simp [Instr.mnemonic])
theorem beq (offset : Byte) : Statement (.beq offset) := of_wf (by simp [Instr.mnemonic])
theorem bne (offset : Byte) : Statement (.bne offset) := of_wf (by simp [Instr.mnemonic])
theorem bmi (offset : Byte) : Statement (.bmi offset) := of_wf (by simp [Instr.mnemonic])
theorem bpl (offset : Byte) : Statement (.bpl offset) := of_wf (by simp [Instr.mnemonic])
theorem bvc (offset : Byte) : Statement (.bvc offset) := of_wf (by simp [Instr.mnemonic])
theorem bvs (offset : Byte) : Statement (.bvs offset) := of_wf (by simp [Instr.mnemonic])
theorem pha : Statement .pha := of_wf (by decide)
theorem pla : Statement .pla := of_wf (by decide)
theorem php : Statement .php := of_wf (by decide)
theorem plp : Statement .plp := of_wf (by decide)
theorem clc : Statement .clc := of_wf (by decide)
theorem sec : Statement .sec := of_wf (by decide)
theorem cli : Statement .cli := of_wf (by decide)
theorem sei : Statement .sei := of_wf (by decide)
theorem cld : Statement .cld := of_wf (by decide)
theorem sed : Statement .sed := of_wf (by decide)
theorem clv : Statement .clv := of_wf (by decide)
theorem nop : Statement .nop := of_wf (by decide)
theorem ill (opcode : Byte) : Statement (.ill opcode) := fun _ => ⟨opcode, rfl, rfl, rfl⟩

end Sys2Proof.Laws.EncodedLength
end

