-- ==== Sys2Proof/Laws/Reset.lean ====
section
/-! SUPPORT. The image load, and `State.reset` as an instance of `boot`. -/

namespace Sys2Proof.Machine

/-- Loading an image inside the address space keeps the canonical form. -/
theorem loadImage_wf (base : Nat) (image : List Byte) {m : Memory} (h : base + image.length ≤ 8192)
    (hm : m.wf = true) : (loadImage base image m).wf = true := by
  induction image generalizing base m with
  | nil => exact hm
  | cons b bs ih =>
    rw [List.length_cons] at h
    exact ih (base + 1) (by omega) (Memory.wf_write (by omega) hm)

/-- A loaded image reads back byte by byte, and every other address reads as before. -/
theorem read_loadImage (base : Nat) (image : List Byte) (m : Memory) (a : Nat) :
    (loadImage base image m).read a =
      if base ≤ a ∧ a < base + image.length then image.getD (a - base) 0 else m.read a := by
  induction image generalizing base m with
  | nil => rw [if_neg (by simp)]; rfl
  | cons b bs ih =>
    rw [loadImage, ih, Memory.read_write, List.length_cons]
    by_cases h : a = base
    · subst h
      simp
    · by_cases h1 : base + 1 ≤ a ∧ a < base + 1 + bs.length
      · rw [if_pos h1, if_pos (by omega), show a - base = (a - (base + 1)) + 1 by omega, List.getD_cons_succ]
      · rw [if_neg h1, if_neg h, if_neg (by omega)]

/-- `State.reset` is R450's reset with no image and the values of log 1, 2, 3 and 8 for what R450 leaves open. -/
theorem boot_no_image : boot [] Unspecified.chosen = State.reset := rfl

end Sys2Proof.Machine
end

