-- ==== Sys2Proof/Laws/Step.lean ====
section
/-! SUPPORT. One meaning and one step: what an instruction of the table keeps, that a step always answers, and the
induction over reachable states. -/

namespace Sys2Proof.Machine

/-- What an instruction of the table keeps: the chips, the host port, `halted`, and the memory's form; and what it adds
to the cycle counter. -/
structure Keeps (s t : State) : Prop where
  video : t.video = s.video
  timer : t.timer = s.timer
  hostPort : t.hostPort = s.hostPort
  halted : t.halted = s.halted
  wf : s.mem.wf = true → t.mem.wf = true
  cyc : t.cyc = s.cyc + 3 * t.stepCost

/-- An operation on the advanced state that keeps the chips makes a meaning that does. -/
theorem keeps_perform {i : Instr} {c : Bool} {op : State → Nat × State} {s t : State}
    (h : perform i c op s = .next t)
    (hop : ∀ u, (op u).2.video = u.video ∧ (op u).2.timer = u.timer ∧ (op u).2.hostPort = u.hostPort ∧
      (op u).2.halted = u.halted ∧ (op u).2.cyc = u.cyc ∧ (u.mem.wf = true → (op u).2.mem.wf = true)) :
    Keeps s t := by
  obtain ⟨e, -, rfl⟩ := perform_next h
  obtain ⟨h1, h2, h3, h4, h5, h6⟩ := hop (advancePC e.length s)
  refine ⟨h1, h2, h3, h4, h6, ?_⟩
  rw [charge_cyc, charge_stepCost, h5, advancePC_cyc]

/-- Every instruction of the table keeps all of it. -/
theorem exec_keeps {i : Instr} {s t : State} (hi : ∀ op, i ≠ .ill op) (h : exec i s = .next t) : Keeps s t := by
  cases i
  case ill op => exact absurd rfl (hi op)
  all_goals
    simp only [exec, performImplied, performData, performLoad,
      execLda, execLdx, execLdy, execSta, execStx, execSty, execTax, execTay, execTxa, execTya, execTsx,
      execTxs, execAdc, execSbc, execAnd, execOra, execEor, execCmp, execCpx, execCpy, execBit, execAsl,
      execLsr, execRol, execRor, execInc, execDec, execInx, execIny, execDex, execDey, execJmp, execJsr,
      execRts, execRti, execBrk, execBcc, execBcs, execBeq, execBne, execBmi, execBpl, execBvc, execBvs,
      execPha, execPla, execPhp, execPlp, execClc, execSec, execCli, execSei, execCld, execSed, execClv,
      execNop] at h
    refine keeps_perform h fun u => ?_
    first
      | exact ⟨rfl, rfl, rfl, rfl, rfl, id⟩
      | simp +contextual [store_wf, applyShift_wf, applyStep_wf, pushWord_eq, enterSoftwareInterrupt_wf,
          Memory.wf_write_addr]

/-- What is fetched is well formed, whatever the bytes. -/
theorem fetchInstr_wf (s : State) : (fetchInstr s).wf = true := decode3_wf _ _ _

/-- A fetched instruction is never refused and never faults. -/
theorem exec_fetchInstr_next (s : State) : ∃ t, exec (fetchInstr s) s = .next t := by
  cases h : exec (fetchInstr s) s with
  | next t => exact ⟨t, rfl⟩
  | fault f => exact absurd h (exec_ne_fault _ s f)
  | refused r =>
    obtain ⟨-, hn, hi⟩ := (exec_refused_iff _ s r).1 h
    obtain ⟨e, he⟩ := Instr.entry?_of_wf (fetchInstr_wf s) hi
    rw [hn] at he
    cases he

/-- A step that answers ran the fetched instruction of a machine that was not halted. -/
theorem step_next {s t : State} (h : step s = .next t) :
    s.halted = none ∧ ∃ u, exec (fetchInstr s) s = .next u ∧ t = afterStep u := by
  unfold step at h
  cases hh : s.halted with
  | some d => rw [hh] at h; cases h
  | none =>
    rw [hh] at h
    obtain ⟨u, hu⟩ := exec_fetchInstr_next s
    rw [hu] at h
    injection h with h
    exact ⟨rfl, u, hu, h.symm⟩

/-- What holds at the start and is kept by every step holds of every reachable state. -/
theorem Reaches.induction {P : State → Prop} {s t : State} (h : Reaches s t) (h0 : P s)
    (hs : ∀ u v, P u → StepsTo u v → P v) : P t := by
  induction h with
  | refl => exact h0
  | step _ hstep ih => exact hs _ _ ih hstep

end Sys2Proof.Machine
end

