-- ==== Sys2Proof/Machine/Assembly.lean ====
section
/-! DEFINITION. The conventional assembler syntax (R107, R108): mnemonic, then an operand whose shape shows the
addressing mode; `$` marks hexadecimal. -/

namespace Sys2Proof.Machine

/-- The three letters of a mnemonic, the illegal-opcode entry as the table names it. -/
def Mnemonic.text : Mnemonic → String
  | .lda => "LDA" | .ldx => "LDX" | .ldy => "LDY" | .sta => "STA" | .stx => "STX" | .sty => "STY"
  | .tax => "TAX" | .tay => "TAY" | .txa => "TXA" | .tya => "TYA" | .tsx => "TSX" | .txs => "TXS"
  | .adc => "ADC" | .sbc => "SBC" | .and => "AND" | .ora => "ORA" | .eor => "EOR"
  | .cmp => "CMP" | .cpx => "CPX" | .cpy => "CPY" | .bit => "BIT"
  | .asl => "ASL" | .lsr => "LSR" | .rol => "ROL" | .ror => "ROR" | .inc => "INC" | .dec => "DEC"
  | .inx => "INX" | .iny => "INY" | .dex => "DEX" | .dey => "DEY"
  | .jmp => "JMP" | .jsr => "JSR" | .rts => "RTS" | .rti => "RTI" | .brk => "BRK"
  | .bcc => "BCC" | .bcs => "BCS" | .beq => "BEQ" | .bne => "BNE"
  | .bmi => "BMI" | .bpl => "BPL" | .bvc => "BVC" | .bvs => "BVS"
  | .pha => "PHA" | .pla => "PLA" | .php => "PHP" | .plp => "PLP"
  | .clc => "CLC" | .sec => "SEC" | .cli => "CLI" | .sei => "SEI" | .cld => "CLD" | .sed => "SED" | .clv => "CLV"
  | .nop => "NOP" | .ill => "ILL"

/-- One hexadecimal digit. -/
def hexDigit (n : Nat) : Char := "0123456789ABCDEF".toList.getD n '0'

/-- Two hexadecimal digits after `$`. -/
def hex2 (b : Byte) : String := String.ofList ['$', hexDigit (b.toNat / 16), hexDigit (b.toNat % 16)]

/-- Four hexadecimal digits after `$`. -/
def hex4 (w : Word) : String :=
  String.ofList
    ['$', hexDigit (w.toNat / 4096), hexDigit (w.toNat / 256 % 16), hexDigit (w.toNat / 16 % 16),
      hexDigit (w.toNat % 16)]

/-- The operand text of each addressing mode. -/
def Operand.text : Operand → String
  | .acc => "A"
  | .imm v => "#" ++ hex2 v
  | .zp z => hex2 z
  | .zpx z => hex2 z ++ ",X"
  | .zpy z => hex2 z ++ ",Y"
  | .abs w => hex4 w
  | .abx w => hex4 w ++ ",X"
  | .aby w => hex4 w ++ ",Y"
  | .izx z => "(" ++ hex2 z ++ ",X)"
  | .izy z => "(" ++ hex2 z ++ "),Y"

/-- JMP's operand text. -/
def JumpOperand.text : JumpOperand → String
  | .abs w => hex4 w
  | .ind w => "(" ++ hex4 w ++ ")"

/-- The displacement byte of a branch at an address to a target: `target - (address of the branch + 2)` as a signed
byte; targets outside -128..127 are rejected. The distance is taken modulo 65536, as `PC` is (R235). -/
def branchOffset (branch target : Word) : Option Byte :=
  let d := (target - (branch + 2)).toInt
  if -128 ≤ d ∧ d ≤ 127 then some (BitVec.ofInt 8 d) else none

/-- The operand text of an instruction that stands at an address; the illegal-opcode entry shows its byte. -/
def Instr.operandText (pc : Word) : Instr → String
  | .lda m | .ldx m | .ldy m | .sta m | .stx m | .sty m | .adc m | .sbc m | .and m | .ora m | .eor m | .cmp m
  | .cpx m | .cpy m | .bit m | .asl m | .lsr m | .rol m | .ror m | .inc m | .dec m => Operand.text m
  | .jmp t => JumpOperand.text t
  | .jsr t => hex4 t
  | .bcc d | .bcs d | .beq d | .bne d | .bmi d | .bpl d | .bvc d | .bvs d => hex4 (pc + 2 + d.signExtend 16)
  | .ill opcode => hex2 opcode
  | .tax | .tay | .txa | .tya | .tsx | .txs | .inx | .iny | .dex | .dey | .rts | .rti | .brk | .pha | .pla
  | .php | .plp | .clc | .sec | .cli | .sei | .cld | .sed | .clv | .nop => ""

/-- The assembler text of an instruction that stands at an address. -/
def Instr.text (pc : Word) (i : Instr) : String :=
  match Instr.operandText pc i with
  | "" => Mnemonic.text i.mnemonic
  | t => Mnemonic.text i.mnemonic ++ " " ++ t

end Sys2Proof.Machine
end

