-- ==== Sys2Proof/Tests/Slice0.lean ====
section
/-! SUPPORT. Tests on fixed values, from R103's encodings and from the vectors of spec/95_test_vectors.md (each test's
name carries the vector's id), and a witness for the hypotheses of each statement. -/

namespace Sys2Proof.Tests

open Machine Claims

/-! ### Helpers -/

/-- Flags from seven bits, N V B D I Z C. -/
def fl (n : Nat) : Flags :=
  { n := n.testBit 6, v := n.testBit 5, b := n.testBit 4, d := n.testBit 3, i := n.testBit 2, z := n.testBit 1,
    c := n.testBit 0 }

/-- The seven bits of the flags, N V B D I Z C. -/
def flagNat (f : Flags) : Nat :=
  b2n f.n * 64 + b2n f.v * 32 + b2n f.b * 16 + b2n f.d * 8 + b2n f.i * 4 + b2n f.z * 2 + b2n f.c

/-- The start state of the vectors: SP = FF, the bytes at the given `PC`, the listed cells, all else zero. -/
def vec (pc : Word) (bytes : List Byte) (cells : List (Addr × Byte)) : State :=
  { State.reset with
    sp := 0xFF, pc := pc
    mem := cells.foldl (fun m c => m.write c.1.toNat c.2) (loadImage (maskAddr pc).toNat bytes []) }

/-- The Processor's step alone, as the vectors T show it: signals still pending. -/
def cpu (s : State) : Option State :=
  match exec (fetchInstr s) s with
  | .next t => some t
  | _ => none

/-- A whole iteration, as the vectors W show it. -/
def iterate (s : State) : Option State :=
  match step s with
  | .next t => some t
  | _ => none

/-- A, X, Y, SP, the flags, PC, the cost, the listed cells, and the pending signals. -/
def shows (cells : List Addr) (t : State) : List Nat × List Byte × Option Signal × Option Signal :=
  ([t.a.toNat, t.x.toNat, t.y.toNat, t.sp.toNat, flagNat t.flags, t.pc.toNat, t.stepCost],
    cells.map (readCell · t), t.vidPending, t.timPending)

/-! ### Well-formedness: an ill-formed term for each check -/

theorem test_wf_loads_stores :
    Instr.wf (.lda .acc) = false ∧ Instr.wf (.ldx (.zpx 0)) = false ∧ Instr.wf (.ldy (.aby 0)) = false ∧
      Instr.wf (.sta (.imm 0)) = false ∧ Instr.wf (.stx (.aby 0)) = false ∧ Instr.wf (.sty (.abx 0)) = false := by
  decide

theorem test_wf_arithmetic :
    Instr.wf (.adc (.zpy 0)) = false ∧ Instr.wf (.sbc .acc) = false ∧ Instr.wf (.and .acc) = false ∧
      Instr.wf (.ora (.zpy 0)) = false ∧ Instr.wf (.eor .acc) = false ∧ Instr.wf (.cmp (.zpy 0)) = false ∧
      Instr.wf (.cpx (.zpx 0)) = false ∧ Instr.wf (.cpy (.abx 0)) = false ∧ Instr.wf (.bit (.imm 0)) = false := by
  decide

theorem test_wf_shifts :
    Instr.wf (.asl (.imm 0)) = false ∧ Instr.wf (.lsr (.aby 0)) = false ∧ Instr.wf (.rol (.izx 0)) = false ∧
      Instr.wf (.ror (.zpy 0)) = false ∧ Instr.wf (.inc .acc) = false ∧ Instr.wf (.dec (.izy 0)) = false := by
  decide

theorem test_wf_ill :
    Instr.wf (.ill 0x00) = false ∧ Instr.wf (.ill 0xEA) = false ∧ Instr.wf (.ill 0x02) = true ∧
      Instr.wf (.ill 0xFF) = true := by
  decide

theorem test_wf_accepts :
    Instr.wf (.lda (.izy 0)) = true ∧ Instr.wf (.stx (.zpy 0)) = true ∧ Instr.wf (.ror .acc) = true ∧
      Instr.wf (.jmp (.ind 0)) = true ∧ Instr.wf (.bvs 0x80) = true ∧ Instr.wf .brk = true := by
  decide

/-- An ill-formed term has no meaning and no bytes. -/
theorem test_ill_formed_refused :
    (match exec (.sta (.imm 0)) (vec 0x1000 [] []) with | .refused .noSuchForm => true | _ => false) = true ∧
      encode (.sta (.imm 0)) = [] := by
  decide

/-- A truncated or empty byte string is rejected by name; the longest instruction and its tail decode. -/
theorem test_decode_rejects :
    decode [] = .error .empty ∧ decode [0xAD] = .error (.truncated 0xAD) ∧
      decode [0xAD, 0x34] = .error (.truncated 0xAD) ∧ decode [0x02] = .ok (.ill 0x02, []) ∧
      decode [0xAD, 0x34, 0x12, 0xEA] = .ok (.lda (.abs 0x1234), [0xEA]) := by
  decide

/-! ### Decoding: every entry of R103, its word written out with operand bytes B4 and 12

The word holds the opcode in its low byte, then the operand bytes, the low byte first (R102). -/

/-- The word decodes to the instruction, whose entry has these cycles and this page-cross flag. -/
def row (nbits w : Nat) (i : Instr) (cycles : Nat) (cross : Bool) : Bool :=
  decodeTableWord nbits w == some i && i.wf && i.entry?.map (fun e => (e.cycles, e.pageCross)) == some (cycles, cross)

theorem test_decode_arithmetic_1 :
    row 16 0xB469 (.adc (.imm 0xB4)) 2 false ∧
      row 16 0xB465 (.adc (.zp 0xB4)) 3 false ∧
      row 16 0xB475 (.adc (.zpx 0xB4)) 4 false ∧
      row 24 0x12B46D (.adc (.abs 0x12B4)) 4 false ∧
      row 24 0x12B47D (.adc (.abx 0x12B4)) 4 true ∧
      row 24 0x12B479 (.adc (.aby 0x12B4)) 4 true ∧
      row 16 0xB461 (.adc (.izx 0xB4)) 6 false ∧
      row 16 0xB471 (.adc (.izy 0xB4)) 5 true ∧
      row 16 0xB429 (.and (.imm 0xB4)) 2 false ∧
      row 16 0xB425 (.and (.zp 0xB4)) 3 false ∧
      row 16 0xB435 (.and (.zpx 0xB4)) 4 false ∧
      row 24 0x12B42D (.and (.abs 0x12B4)) 4 false := by
  decide

theorem test_decode_arithmetic_2 :
    row 24 0x12B43D (.and (.abx 0x12B4)) 4 true ∧
      row 24 0x12B439 (.and (.aby 0x12B4)) 4 true ∧
      row 16 0xB421 (.and (.izx 0xB4)) 6 false ∧
      row 16 0xB431 (.and (.izy 0xB4)) 5 true ∧
      row 16 0xB424 (.bit (.zp 0xB4)) 3 false ∧
      row 24 0x12B42C (.bit (.abs 0x12B4)) 4 false ∧
      row 16 0xB4C9 (.cmp (.imm 0xB4)) 2 false ∧
      row 16 0xB4C5 (.cmp (.zp 0xB4)) 3 false ∧
      row 16 0xB4D5 (.cmp (.zpx 0xB4)) 4 false ∧
      row 24 0x12B4CD (.cmp (.abs 0x12B4)) 4 false ∧
      row 24 0x12B4DD (.cmp (.abx 0x12B4)) 4 true ∧
      row 24 0x12B4D9 (.cmp (.aby 0x12B4)) 4 true := by
  decide

theorem test_decode_arithmetic_3 :
    row 16 0xB4C1 (.cmp (.izx 0xB4)) 6 false ∧
      row 16 0xB4D1 (.cmp (.izy 0xB4)) 5 true ∧
      row 16 0xB4E0 (.cpx (.imm 0xB4)) 2 false ∧
      row 16 0xB4E4 (.cpx (.zp 0xB4)) 3 false ∧
      row 24 0x12B4EC (.cpx (.abs 0x12B4)) 4 false ∧
      row 16 0xB4C0 (.cpy (.imm 0xB4)) 2 false ∧
      row 16 0xB4C4 (.cpy (.zp 0xB4)) 3 false ∧
      row 24 0x12B4CC (.cpy (.abs 0x12B4)) 4 false ∧
      row 16 0xB449 (.eor (.imm 0xB4)) 2 false ∧
      row 16 0xB445 (.eor (.zp 0xB4)) 3 false ∧
      row 16 0xB455 (.eor (.zpx 0xB4)) 4 false ∧
      row 24 0x12B44D (.eor (.abs 0x12B4)) 4 false := by
  decide

theorem test_decode_arithmetic_4 :
    row 24 0x12B45D (.eor (.abx 0x12B4)) 4 true ∧
      row 24 0x12B459 (.eor (.aby 0x12B4)) 4 true ∧
      row 16 0xB441 (.eor (.izx 0xB4)) 6 false ∧
      row 16 0xB451 (.eor (.izy 0xB4)) 5 true ∧
      row 16 0xB409 (.ora (.imm 0xB4)) 2 false ∧
      row 16 0xB405 (.ora (.zp 0xB4)) 3 false ∧
      row 16 0xB415 (.ora (.zpx 0xB4)) 4 false ∧
      row 24 0x12B40D (.ora (.abs 0x12B4)) 4 false ∧
      row 24 0x12B41D (.ora (.abx 0x12B4)) 4 true ∧
      row 24 0x12B419 (.ora (.aby 0x12B4)) 4 true ∧
      row 16 0xB401 (.ora (.izx 0xB4)) 6 false ∧
      row 16 0xB411 (.ora (.izy 0xB4)) 5 true := by
  decide

theorem test_decode_arithmetic_5 :
    row 16 0xB4E9 (.sbc (.imm 0xB4)) 2 false ∧
      row 16 0xB4E5 (.sbc (.zp 0xB4)) 3 false ∧
      row 16 0xB4F5 (.sbc (.zpx 0xB4)) 4 false ∧
      row 24 0x12B4ED (.sbc (.abs 0x12B4)) 4 false ∧
      row 24 0x12B4FD (.sbc (.abx 0x12B4)) 4 true ∧
      row 24 0x12B4F9 (.sbc (.aby 0x12B4)) 4 true ∧
      row 16 0xB4E1 (.sbc (.izx 0xB4)) 6 false ∧
      row 16 0xB4F1 (.sbc (.izy 0xB4)) 5 true := by
  decide

theorem test_decode_shifts_1 :
    row 8 0x0A (.asl .acc) 2 false ∧
      row 16 0xB406 (.asl (.zp 0xB4)) 5 false ∧
      row 16 0xB416 (.asl (.zpx 0xB4)) 6 false ∧
      row 24 0x12B40E (.asl (.abs 0x12B4)) 6 false ∧
      row 24 0x12B41E (.asl (.abx 0x12B4)) 7 false ∧
      row 16 0xB4C6 (.dec (.zp 0xB4)) 5 false ∧
      row 16 0xB4D6 (.dec (.zpx 0xB4)) 6 false ∧
      row 24 0x12B4CE (.dec (.abs 0x12B4)) 6 false ∧
      row 24 0x12B4DE (.dec (.abx 0x12B4)) 7 false ∧
      row 8 0xCA .dex 2 false ∧
      row 8 0x88 .dey 2 false ∧
      row 16 0xB4E6 (.inc (.zp 0xB4)) 5 false := by
  decide

theorem test_decode_shifts_2 :
    row 16 0xB4F6 (.inc (.zpx 0xB4)) 6 false ∧
      row 24 0x12B4EE (.inc (.abs 0x12B4)) 6 false ∧
      row 24 0x12B4FE (.inc (.abx 0x12B4)) 7 false ∧
      row 8 0xE8 .inx 2 false ∧
      row 8 0xC8 .iny 2 false ∧
      row 8 0x4A (.lsr .acc) 2 false ∧
      row 16 0xB446 (.lsr (.zp 0xB4)) 5 false ∧
      row 16 0xB456 (.lsr (.zpx 0xB4)) 6 false ∧
      row 24 0x12B44E (.lsr (.abs 0x12B4)) 6 false ∧
      row 24 0x12B45E (.lsr (.abx 0x12B4)) 7 false ∧
      row 8 0x2A (.rol .acc) 2 false ∧
      row 16 0xB426 (.rol (.zp 0xB4)) 5 false := by
  decide

theorem test_decode_shifts_3 :
    row 16 0xB436 (.rol (.zpx 0xB4)) 6 false ∧
      row 24 0x12B42E (.rol (.abs 0x12B4)) 6 false ∧
      row 24 0x12B43E (.rol (.abx 0x12B4)) 7 false ∧
      row 8 0x6A (.ror .acc) 2 false ∧
      row 16 0xB466 (.ror (.zp 0xB4)) 5 false ∧
      row 16 0xB476 (.ror (.zpx 0xB4)) 6 false ∧
      row 24 0x12B46E (.ror (.abs 0x12B4)) 6 false ∧
      row 24 0x12B47E (.ror (.abx 0x12B4)) 7 false := by
  decide

theorem test_decode_control_1 :
    row 16 0xB490 (.bcc 0xB4) 2 false ∧
      row 16 0xB4B0 (.bcs 0xB4) 2 false ∧
      row 16 0xB4F0 (.beq 0xB4) 2 false ∧
      row 16 0xB430 (.bmi 0xB4) 2 false ∧
      row 16 0xB4D0 (.bne 0xB4) 2 false ∧
      row 16 0xB410 (.bpl 0xB4) 2 false ∧
      row 8 0x00 .brk 7 false ∧
      row 16 0xB450 (.bvc 0xB4) 2 false ∧
      row 16 0xB470 (.bvs 0xB4) 2 false ∧
      row 24 0x12B44C (.jmp (.abs 0x12B4)) 3 false ∧
      row 24 0x12B46C (.jmp (.ind 0x12B4)) 5 false ∧
      row 24 0x12B420 (.jsr 0x12B4) 6 false := by
  decide

theorem test_decode_control_2 :
    row 8 0x40 .rti 6 false ∧
      row 8 0x60 .rts 6 false := by
  decide

theorem test_decode_stack_flags_1 :
    row 8 0x18 .clc 2 false ∧
      row 8 0xD8 .cld 2 false ∧
      row 8 0x58 .cli 2 false ∧
      row 8 0xB8 .clv 2 false ∧
      row 8 0xEA .nop 2 false ∧
      row 8 0x48 .pha 3 false ∧
      row 8 0x08 .php 3 false ∧
      row 8 0x68 .pla 4 false ∧
      row 8 0x28 .plp 4 false ∧
      row 8 0x38 .sec 2 false ∧
      row 8 0xF8 .sed 2 false ∧
      row 8 0x78 .sei 2 false := by
  decide

theorem test_decode_loads_stores_transfers_1 :
    row 16 0xB4A9 (.lda (.imm 0xB4)) 2 false ∧
      row 16 0xB4A5 (.lda (.zp 0xB4)) 3 false ∧
      row 16 0xB4B5 (.lda (.zpx 0xB4)) 4 false ∧
      row 24 0x12B4AD (.lda (.abs 0x12B4)) 4 false ∧
      row 24 0x12B4BD (.lda (.abx 0x12B4)) 4 true ∧
      row 24 0x12B4B9 (.lda (.aby 0x12B4)) 4 true ∧
      row 16 0xB4A1 (.lda (.izx 0xB4)) 6 false ∧
      row 16 0xB4B1 (.lda (.izy 0xB4)) 5 true ∧
      row 16 0xB4A2 (.ldx (.imm 0xB4)) 2 false ∧
      row 16 0xB4A6 (.ldx (.zp 0xB4)) 3 false ∧
      row 16 0xB4B6 (.ldx (.zpy 0xB4)) 4 false ∧
      row 24 0x12B4AE (.ldx (.abs 0x12B4)) 4 false := by
  decide

theorem test_decode_loads_stores_transfers_2 :
    row 24 0x12B4BE (.ldx (.aby 0x12B4)) 4 true ∧
      row 16 0xB4A0 (.ldy (.imm 0xB4)) 2 false ∧
      row 16 0xB4A4 (.ldy (.zp 0xB4)) 3 false ∧
      row 16 0xB4B4 (.ldy (.zpx 0xB4)) 4 false ∧
      row 24 0x12B4AC (.ldy (.abs 0x12B4)) 4 false ∧
      row 24 0x12B4BC (.ldy (.abx 0x12B4)) 4 true ∧
      row 16 0xB485 (.sta (.zp 0xB4)) 3 false ∧
      row 16 0xB495 (.sta (.zpx 0xB4)) 4 false ∧
      row 24 0x12B48D (.sta (.abs 0x12B4)) 4 false ∧
      row 24 0x12B49D (.sta (.abx 0x12B4)) 5 false ∧
      row 24 0x12B499 (.sta (.aby 0x12B4)) 5 false ∧
      row 16 0xB481 (.sta (.izx 0xB4)) 6 false := by
  decide

theorem test_decode_loads_stores_transfers_3 :
    row 16 0xB491 (.sta (.izy 0xB4)) 6 false ∧
      row 16 0xB486 (.stx (.zp 0xB4)) 3 false ∧
      row 16 0xB496 (.stx (.zpy 0xB4)) 4 false ∧
      row 24 0x12B48E (.stx (.abs 0x12B4)) 4 false ∧
      row 16 0xB484 (.sty (.zp 0xB4)) 3 false ∧
      row 16 0xB494 (.sty (.zpx 0xB4)) 4 false ∧
      row 24 0x12B48C (.sty (.abs 0x12B4)) 4 false ∧
      row 8 0xAA .tax 2 false ∧
      row 8 0xA8 .tay 2 false ∧
      row 8 0xBA .tsx 2 false ∧
      row 8 0x8A .txa 2 false ∧
      row 8 0x9A .txs 2 false := by
  decide

theorem test_decode_loads_stores_transfers_4 :
    row 8 0x98 .tya 2 false := by
  decide

/-- Unassigned bytes decode to the illegal-opcode entry (R104), whatever follows. -/
theorem test_decode_ill :
    decodeTableWord 8 0x02 = some (.ill 0x02) ∧ decodeTableWord 8 0x80 = some (.ill 0x80) ∧
      decodeTableWord 8 0xFF = some (.ill 0xFF) ∧ decode3 0x9E 0xB4 0x12 = .ill 0x9E := by
  decide

/-- The listing line `D0 F9  BNE $1005` at 100A of program P1, and the two programs' operand shapes (R107). -/
theorem test_assembly :
    Instr.text 0x100A (.bne 0xF9) = "BNE $1005" ∧ branchOffset 0x100A 0x1005 = some 0xF9 ∧
      branchOffset 0x1000 0x1082 = none ∧ branchOffset 0x1000 0x1081 = some 0x7F ∧
      Instr.text 0 (.lda (.izy 0x82)) = "LDA ($82),Y" ∧ Instr.text 0 (.sta (.aby 0x0090)) = "STA $0090,Y" ∧
      Instr.text 0 (.jmp (.ind 0x10FF)) = "JMP ($10FF)" ∧ Instr.text 0 .brk = "BRK" := by
  decide

/-! ### The Processor: vectors T -/

theorem test_T4_lda :
    (cpu { vec 0x1000 [0xB5, 0xF0] [(0x0010, 0xAA), (0x0110, 0xBB)] with x := 0x20 }).map (shows [0x0010, 0x0110]) =
      some ([0xAA, 0x20, 0x00, 0xFF, 0b1000000, 0x1002, 4], [0xAA, 0xBB], none, none) := by
  decide

theorem test_T8_lda :
    (cpu { vec 0x1000 [0xB9, 0xFF, 0xFF] [(0x0000, 0x33)] with y := 0x01 }).map (shows [0x0000]) =
      some ([0x33, 0x00, 0x01, 0xFF, 0b0000000, 0x1003, 5], [0x33], none, none) := by
  decide

theorem test_T14_ldx :
    (cpu { vec 0x1000 [0xB6, 0xFF] [(0x0000, 0x08), (0x0100, 0x09)] with y := 0x01 }).map (shows [0x0000, 0x0100]) =
      some ([0x00, 0x08, 0x01, 0xFF, 0b0000000, 0x1002, 4], [0x08, 0x09], none, none) := by
  decide

theorem test_T15_ldx :
    (cpu { vec 0x1000 [0xBE, 0xFF, 0x10] [(0x1100, 0x00)] with x := 0x33, y := 0x01 }).map (shows [0x1100]) =
      some ([0x00, 0x00, 0x01, 0xFF, 0b0000010, 0x1003, 5], [0x00], none, none) := by
  decide

theorem test_T16_ldy :
    (cpu (vec 0x1000 [0xA0, 0x7F] [])).map (shows []) =
      some ([0x00, 0x00, 0x7F, 0xFF, 0b0000000, 0x1002, 2], [], none, none) := by
  decide

theorem test_T17_ldy :
    (cpu { vec 0x1000 [0xBC, 0x80, 0x10] [(0x10FF, 0x80)] with x := 0x7F }).map (shows [0x10FF]) =
      some ([0x00, 0x7F, 0x80, 0xFF, 0b1000000, 0x1003, 4], [0x80], none, none) := by
  decide

theorem test_T19_sta :
    (cpu { vec 0x1000 [0x9D, 0xF0, 0x12] [] with a := 0x11, x := 0x20 }).map (shows [0x1310]) =
      some ([0x11, 0x20, 0x00, 0xFF, 0b0000000, 0x1003, 5], [0x11], none, none) := by
  decide

theorem test_T22_sta :
    (cpu { vec 0x1000 [0x8D, 0x82, 0x02] [(0x0282, 0x3C)] with a := 0xFF }).map (shows [0x0282]) =
      some ([0xFF, 0x00, 0x00, 0xFF, 0b0000000, 0x1003, 4], [0x3C], none, none) := by
  decide

theorem test_T24_stx :
    (cpu { vec 0x1000 [0x86, 0x02] [] with x := 0x07 }).map (shows [0x0002]) =
      some ([0x00, 0x07, 0x00, 0xFF, 0b0000000, 0x1002, 3], [0x07], some ⟨0x0002, 0x07⟩, none) := by
  decide

theorem test_T25_stx :
    (cpu { vec 0x1000 [0x96, 0x80] [] with x := 0x12, y := 0x90 }).map (shows [0x0010]) =
      some ([0x00, 0x12, 0x90, 0xFF, 0b0000000, 0x1002, 4], [0x12], some ⟨0x0010, 0x12⟩, none) := by
  decide

theorem test_T26_sty :
    (cpu { vec 0x1000 [0x8C, 0x96, 0x02] [] with y := 0x20 }).map (shows [0x0296]) =
      some ([0x00, 0x00, 0x20, 0xFF, 0b0000000, 0x1003, 4], [0x20], none, some ⟨0x0296, 0x20⟩) := by
  decide

theorem test_T27_sty :
    (cpu { vec 0x1000 [0x94, 0x20] [] with x := 0x01, y := 0x70 }).map (shows [0x0021]) =
      some ([0x00, 0x01, 0x70, 0xFF, 0b0000000, 0x1002, 4], [0x70], some ⟨0x0021, 0x70⟩, none) := by
  decide

theorem test_T28_tax :
    (cpu { vec 0x1000 [0xAA] [] with x := 0x05, flags := fl 0b1000000 }).map (shows []) =
      some ([0x00, 0x00, 0x00, 0xFF, 0b0000010, 0x1001, 2], [], none, none) := by
  decide

theorem test_T29_tay :
    (cpu { vec 0x1000 [0xA8] [] with a := 0x90 }).map (shows []) =
      some ([0x90, 0x00, 0x90, 0xFF, 0b1000000, 0x1001, 2], [], none, none) := by
  decide

theorem test_T30_txa :
    (cpu { vec 0x1000 [0x8A] [] with x := 0x01, flags := fl 0b1000010 }).map (shows []) =
      some ([0x01, 0x01, 0x00, 0xFF, 0b0000000, 0x1001, 2], [], none, none) := by
  decide

theorem test_T31_tya :
    (cpu { vec 0x1000 [0x98] [] with y := 0xFF }).map (shows []) =
      some ([0xFF, 0x00, 0xFF, 0xFF, 0b1000000, 0x1001, 2], [], none, none) := by
  decide

theorem test_T32_tsx :
    (cpu { vec 0x1000 [0xBA] [] with sp := 0xFD }).map (shows []) =
      some ([0x00, 0xFD, 0x00, 0xFD, 0b1000000, 0x1001, 2], [], none, none) := by
  decide

theorem test_T33_txs :
    (cpu { vec 0x1000 [0x9A] [] with sp := 0xFD }).map (shows []) =
      some ([0x00, 0x00, 0x00, 0x00, 0b0000000, 0x1001, 2], [], none, none) := by
  decide

theorem test_T103_adc :
    (cpu { vec 0x1000 [0x69, 0x00] [] with a := 0x7F, flags := fl 0b0000001 }).map (shows []) =
      some ([0x80, 0x00, 0x00, 0xFF, 0b1100000, 0x1002, 2], [], none, none) := by
  decide

theorem test_T105_adc :
    (cpu { vec 0x1000 [0x69, 0x01] [] with a := 0x09, flags := fl 0b0001000 }).map (shows []) =
      some ([0x0A, 0x00, 0x00, 0xFF, 0b0001000, 0x1002, 2], [], none, none) := by
  decide

theorem test_T109_sbc :
    (cpu { vec 0x1000 [0xE9, 0xB0] [] with a := 0x50, flags := fl 0b0000001 }).map (shows []) =
      some ([0xA0, 0x00, 0x00, 0xFF, 0b1100000, 0x1002, 2], [], none, none) := by
  decide

theorem test_T112_sbc :
    (cpu { vec 0x1000 [0xE9, 0x50] [] with a := 0x50 }).map (shows []) =
      some ([0xFF, 0x00, 0x00, 0xFF, 0b1000000, 0x1002, 2], [], none, none) := by
  decide

theorem test_T118_and :
    (cpu { vec 0x1000 [0x39, 0x34, 0x12] [(0x1300, 0x80)] with a := 0xFF, y := 0xCC }).map (shows [0x1300]) =
      some ([0x80, 0x00, 0xCC, 0xFF, 0b1000000, 0x1003, 5], [0x80], none, none) := by
  decide

theorem test_T119_ora :
    (cpu { vec 0x1000 [0x09, 0x80] [] with a := 0x01 }).map (shows []) =
      some ([0x81, 0x00, 0x00, 0xFF, 0b1000000, 0x1002, 2], [], none, none) := by
  decide

theorem test_T122_eor :
    (cpu { vec 0x1000 [0x49, 0xAA] [] with a := 0xAA, flags := fl 0b0100000 }).map (shows []) =
      some ([0x00, 0x00, 0x00, 0xFF, 0b0100010, 0x1002, 2], [], none, none) := by
  decide

theorem test_T124_cmp :
    (cpu { vec 0x1000 [0xC9, 0x01] [] with a := 0x80, flags := fl 0b0100000 }).map (shows []) =
      some ([0x80, 0x00, 0x00, 0xFF, 0b0100001, 0x1002, 2], [], none, none) := by
  decide

theorem test_T127_cmp :
    (cpu (vec 0x1000 [0xC9, 0xFF] [])).map (shows []) =
      some ([0x00, 0x00, 0x00, 0xFF, 0b0000000, 0x1002, 2], [], none, none) := by
  decide

theorem test_T128_cpx :
    (cpu { vec 0x1000 [0xE0, 0xC0] [] with x := 0xBF }).map (shows []) =
      some ([0x00, 0xBF, 0x00, 0xFF, 0b1000000, 0x1002, 2], [], none, none) := by
  decide

theorem test_T129_cpx :
    (cpu { vec 0x1000 [0xE4, 0x80] [(0x0080, 0x05)] with x := 0x05 }).map (shows [0x0080]) =
      some ([0x00, 0x05, 0x00, 0xFF, 0b0000011, 0x1002, 3], [0x05], none, none) := by
  decide

theorem test_T130_cpy :
    (cpu (vec 0x1000 [0xC0, 0x00] [])).map (shows []) =
      some ([0x00, 0x00, 0x00, 0xFF, 0b0000011, 0x1002, 2], [], none, none) := by
  decide

theorem test_T131_cpy :
    (cpu { vec 0x1000 [0xCC, 0x00, 0x13] [(0x1300, 0x3F)] with y := 0x40 }).map (shows [0x1300]) =
      some ([0x00, 0x00, 0x40, 0xFF, 0b0000001, 0x1003, 4], [0x3F], none, none) := by
  decide

theorem test_T132_bit :
    (cpu (vec 0x1000 [0x24, 0x30] [(0x0030, 0xC0)])).map (shows [0x0030]) =
      some ([0x00, 0x00, 0x00, 0xFF, 0b1100010, 0x1002, 3], [0xC0], none, none) := by
  decide

theorem test_T134_bit :
    (cpu { vec 0x1000 [0x2C, 0x84, 0x02] [(0x0284, 0x80)] with a := 0x80, flags := fl 0b0000001 }).map (shows [0x0284]) =
      some ([0x80, 0x00, 0x00, 0xFF, 0b1000001, 0x1003, 4], [0x80], none, none) := by
  decide

theorem test_T201_asl :
    (cpu { vec 0x1000 [0x0A] [] with a := 0x41 }).map (shows []) =
      some ([0x82, 0x00, 0x00, 0xFF, 0b1000000, 0x1001, 2], [], none, none) := by
  decide

theorem test_T203_asl :
    (cpu { vec 0x1000 [0x06, 0x80] [(0x0080, 0x55)] with flags := fl 0b0000001 }).map (shows [0x0080]) =
      some ([0x00, 0x00, 0x00, 0xFF, 0b1000000, 0x1002, 5], [0xAA], none, none) := by
  decide

theorem test_T204_lsr :
    (cpu { vec 0x1000 [0x4A] [] with a := 0x03, flags := fl 0b1000000 }).map (shows []) =
      some ([0x01, 0x00, 0x00, 0xFF, 0b0000001, 0x1001, 2], [], none, none) := by
  decide

theorem test_T206_lsr :
    (cpu { vec 0x1000 [0x5E, 0x00, 0x13] [(0x13FF, 0x80)] with x := 0xFF }).map (shows [0x13FF]) =
      some ([0x00, 0xFF, 0x00, 0xFF, 0b0000000, 0x1003, 7], [0x40], none, none) := by
  decide

theorem test_T207_rol :
    (cpu { vec 0x1000 [0x2A] [] with a := 0x80, flags := fl 0b0000001 }).map (shows []) =
      some ([0x01, 0x00, 0x00, 0xFF, 0b0000001, 0x1001, 2], [], none, none) := by
  decide

theorem test_T209_rol :
    (cpu { vec 0x1000 [0x26, 0x80] [(0x0080, 0x40)] with flags := fl 0b0000001 }).map (shows [0x0080]) =
      some ([0x00, 0x00, 0x00, 0xFF, 0b1000000, 0x1002, 5], [0x81], none, none) := by
  decide

theorem test_T211_ror :
    (cpu { vec 0x1000 [0x6A] [] with flags := fl 0b0000001 }).map (shows []) =
      some ([0x80, 0x00, 0x00, 0xFF, 0b1000000, 0x1001, 2], [], none, none) := by
  decide

theorem test_T212_ror :
    (cpu { vec 0x1000 [0x76, 0x80] [(0x0081, 0x02)] with x := 0x01, flags := fl 0b0000001 }).map (shows [0x0081]) =
      some ([0x00, 0x01, 0x00, 0xFF, 0b1000000, 0x1002, 6], [0x81], none, none) := by
  decide

theorem test_T213_inc :
    (cpu { vec 0x1000 [0xE6, 0x80] [(0x0080, 0xFF)] with flags := fl 0b0100001 }).map (shows [0x0080]) =
      some ([0x00, 0x00, 0x00, 0xFF, 0b0100011, 0x1002, 5], [0x00], none, none) := by
  decide

theorem test_T216_inc :
    (cpu (vec 0x1000 [0xEE, 0x82, 0x02] [(0x0282, 0x7F)])).map (shows [0x0282]) =
      some ([0x00, 0x00, 0x00, 0xFF, 0b1000000, 0x1003, 6], [0x7F], none, none) := by
  decide

theorem test_T217_dec :
    (cpu (vec 0x1000 [0xC6, 0x80] [(0x0080, 0x00)])).map (shows [0x0080]) =
      some ([0x00, 0x00, 0x00, 0xFF, 0b1000000, 0x1002, 5], [0xFF], none, none) := by
  decide

theorem test_T219_dec :
    (cpu { vec 0x1000 [0xDE, 0xFF, 0x12] [(0x1300, 0x10)] with x := 0x01 }).map (shows [0x1300]) =
      some ([0x00, 0x01, 0x00, 0xFF, 0b0000000, 0x1003, 7], [0x0F], none, none) := by
  decide

theorem test_T220_inx :
    (cpu { vec 0x1000 [0xE8] [] with x := 0xFF, flags := fl 0b0000001 }).map (shows []) =
      some ([0x00, 0x00, 0x00, 0xFF, 0b0000011, 0x1001, 2], [], none, none) := by
  decide

theorem test_T222_iny :
    (cpu { vec 0x1000 [0xC8] [] with y := 0x7F }).map (shows []) =
      some ([0x00, 0x00, 0x80, 0xFF, 0b1000000, 0x1001, 2], [], none, none) := by
  decide

theorem test_T225_dex :
    (cpu (vec 0x1000 [0xCA] [])).map (shows []) =
      some ([0x00, 0xFF, 0x00, 0xFF, 0b1000000, 0x1001, 2], [], none, none) := by
  decide

theorem test_T227_dey :
    (cpu { vec 0x1000 [0x88] [] with y := 0x80 }).map (shows []) =
      some ([0x00, 0x00, 0x7F, 0xFF, 0b0000000, 0x1001, 2], [], none, none) := by
  decide

theorem test_T303_jmp :
    (cpu (vec 0x1200 [0x6C, 0xFF, 0x10] [(0x10FF, 0x34), (0x1000, 0x12), (0x1100, 0x56)])).map (shows [0x1000, 0x10FF, 0x1100]) =
      some ([0x00, 0x00, 0x00, 0xFF, 0b0000000, 0x1234, 5], [0x12, 0x34, 0x56], none, none) := by
  decide

theorem test_T304_jmp :
    (cpu (vec 0x1000 [0x6C, 0x80, 0x00] [(0x0080, 0x00), (0x0081, 0x18)])).map (shows [0x0080, 0x0081]) =
      some ([0x00, 0x00, 0x00, 0xFF, 0b0000000, 0x1800, 5], [0x00, 0x18], none, none) := by
  decide

theorem test_T307_jsr :
    (cpu { vec 0x1000 [0x20, 0x00, 0x14] [] with sp := 0x00 }).map (shows [0x0100, 0x01FF]) =
      some ([0x00, 0x00, 0x00, 0xFE, 0b0000000, 0x1400, 6], [0x10, 0x02], none, none) := by
  decide

theorem test_T308_jsr :
    (cpu (vec 0x10FE [0x20, 0x00, 0x14] [(0x01FE, 0xEE)])).map (shows [0x01FE, 0x01FF]) =
      some ([0x00, 0x00, 0x00, 0xFD, 0b0000000, 0x1400, 6], [0x00, 0x11], none, none) := by
  decide

theorem test_T310_rts :
    (cpu { vec 0x1400 [0x60] [(0x01FE, 0xFF), (0x01FF, 0xFF)] with sp := 0xFD }).map (shows [0x01FE, 0x01FF]) =
      some ([0x00, 0x00, 0x00, 0xFF, 0b0000000, 0x0000, 6], [0xFF, 0xFF], none, none) := by
  decide

theorem test_T311_rts :
    (cpu (vec 0x1400 [0x60] [(0x0100, 0x33), (0x0101, 0x12)])).map (shows [0x0100, 0x0101]) =
      some ([0x00, 0x00, 0x00, 0x01, 0b0000000, 0x1234, 6], [0x33, 0x12], none, none) := by
  decide

theorem test_T312_rti :
    (cpu { vec 0x1800 [0x40] [(0x01FD, 0x30), (0x01FE, 0x00), (0x01FF, 0x10)] with sp := 0xFC }).map (shows [0x01FD, 0x01FE, 0x01FF]) =
      some ([0x00, 0x00, 0x00, 0xFF, 0b0010000, 0x1001, 6], [0x30, 0x00, 0x10], none, none) := by
  decide

theorem test_T313_rti :
    (cpu { vec 0x1800 [0x40] [(0x01FD, 0xCF), (0x01FE, 0xFF), (0x01FF, 0x12)] with sp := 0xFC, flags := fl 0b0000100 }).map (shows [0x01FD, 0x01FE, 0x01FF]) =
      some ([0x00, 0x00, 0x00, 0xFF, 0b1101111, 0x1300, 6], [0xCF, 0xFF, 0x12], none, none) := by
  decide

theorem test_T314_brk :
    (cpu (vec 0x1000 [0x00] [(0x01FE, 0xEE), (0x1FFE, 0x00), (0x1FFF, 0x18)])).map (shows [0x01FD, 0x01FE, 0x01FF, 0x1FFE, 0x1FFF]) =
      some ([0x00, 0x00, 0x00, 0xFC, 0b0010100, 0x1800, 7], [0x30, 0x00, 0x10, 0x00, 0x18], none, none) := by
  decide

theorem test_T315_brk :
    (cpu { vec 0x12AB [0x00] [(0x1FFE, 0x34), (0x1FFF, 0xF2)] with sp := 0x01, flags := fl 0b1100011 }).map (shows [0x0100, 0x0101, 0x01FF, 0x1FFE, 0x1FFF]) =
      some ([0x00, 0x00, 0x00, 0xFE, 0b1110111, 0xF234, 7], [0xAB, 0x12, 0xF3, 0x34, 0xF2], none, none) := by
  decide

theorem test_T316_bcc :
    (cpu (vec 0x1000 [0x90, 0x04] [])).map (shows []) =
      some ([0x00, 0x00, 0x00, 0xFF, 0b0000000, 0x1006, 3], [], none, none) := by
  decide

theorem test_T329_bcc :
    (cpu (vec 0x1080 [0x90, 0x7E] [])).map (shows []) =
      some ([0x00, 0x00, 0x00, 0xFF, 0b0000000, 0x1100, 4], [], none, none) := by
  decide

theorem test_T318_bcs :
    (cpu { vec 0x1000 [0xB0, 0xFE] [] with flags := fl 0b0000001 }).map (shows []) =
      some ([0x00, 0x00, 0x00, 0xFF, 0b0000001, 0x1000, 3], [], none, none) := by
  decide

theorem test_T319_beq :
    (cpu { vec 0x10F0 [0xF0, 0x10] [] with flags := fl 0b0000010 }).map (shows []) =
      some ([0x00, 0x00, 0x00, 0xFF, 0b0000010, 0x1102, 4], [], none, none) := by
  decide

theorem test_T320_beq :
    (cpu (vec 0x10F0 [0xF0, 0x10] [])).map (shows []) =
      some ([0x00, 0x00, 0x00, 0xFF, 0b0000000, 0x10F2, 2], [], none, none) := by
  decide

theorem test_T322_bne :
    (cpu (vec 0x1100 [0xD0, 0xFD] [])).map (shows []) =
      some ([0x00, 0x00, 0x00, 0xFF, 0b0000000, 0x10FF, 4], [], none, none) := by
  decide

theorem test_T330_bne :
    (cpu (vec 0xFFFD [0xD0, 0x01] [])).map (shows []) =
      some ([0x00, 0x00, 0x00, 0xFF, 0b0000000, 0x0000, 4], [], none, none) := by
  decide

theorem test_T324_bmi :
    (cpu { vec 0x1000 [0x30, 0x02] [] with flags := fl 0b1000000 }).map (shows []) =
      some ([0x00, 0x00, 0x00, 0xFF, 0b1000000, 0x1004, 3], [], none, none) := by
  decide

theorem test_T325_bpl :
    (cpu (vec 0x1005 [0x10, 0xFB] [])).map (shows []) =
      some ([0x00, 0x00, 0x00, 0xFF, 0b0000000, 0x1002, 3], [], none, none) := by
  decide

theorem test_T326_bvc :
    (cpu (vec 0x1000 [0x50, 0x7F] [])).map (shows []) =
      some ([0x00, 0x00, 0x00, 0xFF, 0b0000000, 0x1081, 3], [], none, none) := by
  decide

theorem test_T327_bvs :
    (cpu { vec 0x1000 [0x70, 0x80] [] with flags := fl 0b0100000 }).map (shows []) =
      some ([0x00, 0x00, 0x00, 0xFF, 0b0100000, 0x0F82, 4], [], none, none) := by
  decide

theorem test_T402_pha :
    (cpu { vec 0x1000 [0x48] [] with a := 0x77, sp := 0x00 }).map (shows [0x0100]) =
      some ([0x77, 0x00, 0x00, 0xFF, 0b0000000, 0x1001, 3], [0x77], none, none) := by
  decide

theorem test_T404_pla :
    (cpu { vec 0x1000 [0x68] [(0x0100, 0x00)] with a := 0x11 }).map (shows [0x0100]) =
      some ([0x00, 0x00, 0x00, 0x00, 0b0000010, 0x1001, 4], [0x00], none, none) := by
  decide

theorem test_T405_pla :
    (cpu { vec 0x1000 [0x68] [(0x0180, 0x80)] with sp := 0x7F }).map (shows [0x0180]) =
      some ([0x80, 0x00, 0x00, 0x80, 0b1000000, 0x1001, 4], [0x80], none, none) := by
  decide

theorem test_T406_php :
    (cpu { vec 0x1000 [0x08] [] with flags := fl 0b0000011 }).map (shows [0x01FF]) =
      some ([0x00, 0x00, 0x00, 0xFE, 0b0000011, 0x1001, 3], [0x23], none, none) := by
  decide

theorem test_T408_php :
    (cpu { vec 0x1000 [0x08] [] with flags := fl 0b1111111 }).map (shows [0x01FF]) =
      some ([0x00, 0x00, 0x00, 0xFE, 0b1111111, 0x1001, 3], [0xFF], none, none) := by
  decide

theorem test_T409_plp :
    (cpu { vec 0x1000 [0x28] [(0x01FF, 0xC3)] with sp := 0xFE }).map (shows [0x01FF]) =
      some ([0x00, 0x00, 0x00, 0xFF, 0b1100011, 0x1001, 4], [0xC3], none, none) := by
  decide

theorem test_T410_plp :
    (cpu { vec 0x1000 [0x28] [(0x01FF, 0x00)] with sp := 0xFE, flags := fl 0b1111111 }).map (shows [0x01FF]) =
      some ([0x00, 0x00, 0x00, 0xFF, 0b0000000, 0x1001, 4], [0x00], none, none) := by
  decide

theorem test_T412_clc :
    (cpu { vec 0x1000 [0x18] [] with flags := fl 0b1111111 }).map (shows []) =
      some ([0x00, 0x00, 0x00, 0xFF, 0b1111110, 0x1001, 2], [], none, none) := by
  decide

theorem test_T413_sec :
    (cpu (vec 0x1000 [0x38] [])).map (shows []) =
      some ([0x00, 0x00, 0x00, 0xFF, 0b0000001, 0x1001, 2], [], none, none) := by
  decide

theorem test_T414_cli :
    (cpu { vec 0x1000 [0x58] [] with flags := fl 0b1111111 }).map (shows []) =
      some ([0x00, 0x00, 0x00, 0xFF, 0b1111011, 0x1001, 2], [], none, none) := by
  decide

theorem test_T415_sei :
    (cpu (vec 0x1000 [0x78] [])).map (shows []) =
      some ([0x00, 0x00, 0x00, 0xFF, 0b0000100, 0x1001, 2], [], none, none) := by
  decide

theorem test_T416_cld :
    (cpu { vec 0x1000 [0xD8] [] with flags := fl 0b1111111 }).map (shows []) =
      some ([0x00, 0x00, 0x00, 0xFF, 0b1110111, 0x1001, 2], [], none, none) := by
  decide

theorem test_T417_sed :
    (cpu (vec 0x1000 [0xF8] [])).map (shows []) =
      some ([0x00, 0x00, 0x00, 0xFF, 0b0001000, 0x1001, 2], [], none, none) := by
  decide

theorem test_T418_clv :
    (cpu { vec 0x1000 [0xB8] [] with flags := fl 0b1111111 }).map (shows []) =
      some ([0x00, 0x00, 0x00, 0xFF, 0b1011111, 0x1001, 2], [], none, none) := by
  decide

theorem test_T419_nop :
    (cpu { vec 0x1000 [0xEA] [] with flags := fl 0b1000101, cyc := 10 }).map (shows []) =
      some ([0x00, 0x00, 0x00, 0xFF, 0b1000101, 0x1001, 2], [], none, none) := by
  decide

/-- T420 and T422: the diagnostic, and nothing else changed. -/
theorem test_T420_ill :
    (cpu { vec 0x1234 [0x02] [] with a := 0x12, cyc := 30 }).map (fun t => (t.halted, t.pc, t.a, t.cyc)) =
      some (some ⟨0x02, 0x1234⟩, 0x1234, 0x12, 30) := by
  decide

theorem test_T422_ill :
    (cpu (vec 0x1000 [0x80, 0x00] [])).map (fun t => (t.halted, t.pc, t.cyc)) =
      some (some ⟨0x80, 0x1000⟩, 0x1000, 0) := by
  decide

/-! ### The VideoChip's handlers: vectors V1 to V50 -/

/-- `VideoChip.write` of a register at beam cycle `c` with byte `v` in its cell. -/
def write (r : VReg) (c : Nat) (v : Byte) (s : State) : State :=
  videoWrite (vregAddr r) { writeCell (vregAddr r) v s with cyc := c }

/-- The start state with some positions. -/
def at' (p : Positions) (cells : List (Addr × Byte)) : State :=
  let s := vec 0x1000 [] cells
  { s with video := { s.video with pos := p } }

/-- All positions 0. -/
def origin : Positions := ⟨0, 0, 0, 0, 0⟩

theorem test_V1_V2_V3_resp0 :
    ([100, 30, 68, 69, 70, 248].map fun c => (write .resp0 c 0xAA (vec 0 [] [])).video.pos.p0) =
      [37, 6, 6, 6, 7, 25] := by
  decide

theorem test_V6_V8_V9_V14_reset_others :
    (write .resp1 225 0 (vec 0 [] [])).video.pos.p1 = 2 ∧ (write .resp1 222 0 (vec 0 [] [])).video.pos.p1 = 159 ∧
      (write .resm0 100 0 (vec 0 [] [])).video.pos.m0 = 32 ∧ (write .resm1 68 0 (vec 0 [] [])).video.pos.m1 = 1 ∧
      (write .resbl 228 0 (vec 0 [] [])).video.pos.bl = 0 ∧ (write .resbl 240 0 (vec 0 [] [])).video.pos.bl = 12 := by
  decide

/-- Start of V20 to V31: 11 in the left half, 22 in the right. -/
def halves : State :=
  let s := vec 0 [] []
  { s with video := { s.video with pfLeft := ⟨0x11, 0x11, 0x11⟩, pfRight := ⟨0x22, 0x22, 0x22⟩ } }

theorem test_V20_to_V31_playfield :
    ([67, 68, 147, 148].map fun c => let v := (write .pf0 c 0xF0 halves).video; (v.pfLeft.k0, v.pfRight.k0)) =
        [(0xF0, 0xF0), (0x11, 0xF0), (0x11, 0xF0), (0x11, 0x22)] ∧
      ([83, 84, 163, 164].map fun c => let v := (write .pf1 c 0xF0 halves).video; (v.pfLeft.k1, v.pfRight.k1)) =
        [(0xF0, 0xF0), (0x11, 0xF0), (0x11, 0xF0), (0x11, 0x22)] ∧
      ([115, 116, 195, 196].map fun c => let v := (write .pf2 c 0xF0 halves).video; (v.pfLeft.k2, v.pfRight.k2)) =
        [(0xF0, 0xF0), (0x11, 0xF0), (0x11, 0xF0), (0x11, 0x22)] := by
  decide

theorem test_V32_V33_V34_ctrlpf_colubk :
    (write .ctrlpf 147 0x01 (vec 0 [] [])).video.mirror = true ∧
      (write .ctrlpf 148 0x01 (vec 0 [] [])).video.mirror = false ∧
      (write .colubk 100 0x1E (vec 0 [] [])).video.bg = ⟨0x00, [⟨100, 0x1E⟩]⟩ := by
  decide

/-- Start of V35 to V41: 11 in all three slots of player 0. -/
def slots11 (nusiz : Byte) (pos : Fin Config.width) : State :=
  let s := at' { origin with p0 := pos } [(0x04, nusiz)]
  { s with video := { s.video with slots := { s.video.slots with p0 := Triple.const 0x11 } } }

theorem test_V35_to_V41_grp0 :
    ([118, 124, 125, 30, 230].map fun c => (write .grp0 c 0xFF (slots11 0x03 40)).video.slots.p0) =
        [⟨0x11, 0xFF, 0xFF⟩, ⟨0x11, 0xFF, 0xFF⟩, ⟨0x11, 0x11, 0xFF⟩, ⟨0xFF, 0xFF, 0xFF⟩, ⟨0x11, 0x11, 0x11⟩] ∧
      (write .grp0 30 0xFF (slots11 0x00 40)).video.slots.p0 = ⟨0xFF, 0x11, 0x11⟩ ∧
      (write .grp0 98 0xFF (slots11 0x06 150)).video.slots.p0 = ⟨0xFF, 0x11, 0xFF⟩ := by
  decide

/-- Start of V42. -/
def moving : State :=
  at' ⟨37, 0, 159, 80, 2⟩ [(0x20, 0xF0), (0x21, 0x80), (0x22, 0x10), (0x23, 0x7F), (0x24, 0x80)]

theorem test_V42_V43_hmove :
    (write .hmove 0 0 moving).video.pos = ⟨36, 152, 0, 87, 154⟩ ∧
      (write .hmove 0 0 (write .hmove 0 0 moving)).video.pos = ⟨35, 144, 1, 94, 146⟩ := by
  decide

theorem test_V44_hmclr :
    (let t := write .hmclr 0 0 moving
     ([0x20, 0x21, 0x22, 0x23, 0x24].map (readCell · t), t.video.pos)) =
      ([0, 0, 0, 0, 0], ⟨37, 0, 159, 80, 2⟩) := by
  decide

/-- Start of V46 to V49. -/
def frame4 (prev : Byte) : State :=
  let s := vec 0x1000 [] []
  { s with video := { s.video with vsyncPrev := prev, frameCount := 4, line := 260 } }

theorem test_V46_to_V49_vsync :
    ([(0x02, 0x00), (0x00, 0x02), (0x02, 0x03), (0x00, 0x00)].map fun pv : Byte × Byte =>
      let w := (write .vsync 50 pv.2 (frame4 pv.1)).video
      (w.frameComplete, w.frameCount, w.line, w.vsyncPrev)) =
      [(true, 5, 3, 0x00), (false, 4, 260, 0x02), (false, 4, 260, 0x03), (false, 4, 260, 0x00)] := by
  decide

theorem test_V50_wsync :
    (write .wsync 100 0 (vec 0 [] [])).cyc = 228 ∧ (write .wsync 231 0 (vec 0 [] [])).cyc = 228 := by
  decide

/-! ### The commit: vectors V50 to V68, at some pixels -/

/-- Start of Part H: the cells, the re-latch, the positions, a line and a beam cycle. -/
def line (n : Nat) (p : Positions) (cells : List (Addr × Byte)) : State :=
  let s := relatch (at' p cells)
  { s with cyc := 228, video := { s.video with line := n } }

/-- The colour bytes of some pixels. -/
def colours (s : State) (xs : List Nat) : List Byte := xs.map (colourAt (masks s) s)

theorem test_V50_background :
    colours (write .colubk 100 0x1E (line 40 origin [])) [0, 31, 32, 159] = [0x00, 0x00, 0x1E, 0x1E] := by
  decide

/-- Cells of V51. -/
def v51 : List (Addr × Byte) := [(0x08, 0x44), (0x09, 0x02), (0x0D, 0x10), (0x0E, 0x80), (0x0F, 0x01)]

theorem test_V51_playfield :
    colours (line 40 origin v51) [0, 3, 4, 16, 19, 20, 48, 52, 80, 96, 128, 132] =
      [0x44, 0x44, 0x02, 0x44, 0x44, 0x02, 0x44, 0x02, 0x44, 0x44, 0x44, 0x02] := by
  decide

theorem test_V52_mirrored :
    colours (line 40 origin ((0x0A, 0x01) :: v51)) [48, 80, 108, 111, 112, 140, 156, 159] =
      [0x44, 0x02, 0x44, 0x44, 0x02, 0x44, 0x44, 0x44] := by
  decide

/-- Cells of V54: GRP0 = C1, COLUP0 = 86. -/
def v54 : List (Addr × Byte) := [(0x06, 0x86), (0x1B, 0xC1)]

theorem test_V54_V55_player :
    colours (line 40 { origin with p0 := 37 } v54) [36, 37, 38, 39, 43, 44, 45] =
        [0x00, 0x86, 0x86, 0x00, 0x00, 0x86, 0x00] ∧
      colours (line 40 { origin with p0 := 37 } ((0x0B, 0x08) :: v54)) [36, 37, 38, 42, 43, 44, 45] =
        [0x00, 0x86, 0x00, 0x00, 0x86, 0x86, 0x00] := by
  decide

theorem test_V56_double_width_wraps :
    colours (line 40 { origin with p1 := 156 } [(0x05, 0x05), (0x07, 0x38), (0x1C, 0xFF)]) [0, 11, 12, 155, 156, 159] =
      [0x38, 0x38, 0x00, 0x00, 0x38, 0x38] := by
  decide

theorem test_V57_V58_copies :
    colours (line 40 { origin with p0 := 10 } [(0x04, 0x03), (0x06, 0x86), (0x1B, 0x80)]) [9, 10, 11, 26, 42, 58] =
        [0x00, 0x86, 0x00, 0x86, 0x86, 0x00] ∧
      colours (line 40 { origin with m0 := 32 } [(0x04, 0x21), (0x06, 0x86), (0x1D, 0x02)]) [31, 32, 35, 36, 48, 51, 52] =
        [0x00, 0x86, 0x86, 0x00, 0x86, 0x86, 0x00] := by
  decide

theorem test_V60_ball_wraps :
    colours (line 40 { origin with bl := 156 } [(0x08, 0x44), (0x0A, 0x30), (0x1F, 0x02)]) [0, 3, 4, 155, 156, 159] =
      [0x44, 0x44, 0x00, 0x00, 0x44, 0x44] := by
  decide

/-- Start of V61: the masks of the players share pixel 27 alone. -/
def v61 : State :=
  line 40 { origin with p0 := 20, p1 := 27 } [(0x1B, 0x01), (0x1C, 0x80), (0x30, 0x40), (0x37, 0x01)]

theorem test_V61_collision :
    ([26, 27, 28].map fun x => (masks v61 .p0 x, masks v61 .p1 x)) = [(false, false), (true, true), (false, false)] ∧
      readCell 0x37 (latchPair (masks v61) v61 ⟨.p0, .p1, 7, 7⟩) = 0x81 := by
  decide

theorem test_V62_order :
    colours
        (line 40 { origin with p0 := 3, m1 := 2, bl := 1 }
          [(0x05, 0x10), (0x06, 0x86), (0x07, 0x38), (0x08, 0x44), (0x09, 0x02), (0x0A, 0x10), (0x0D, 0x10),
            (0x1B, 0x80), (0x1E, 0x02), (0x1F, 0x02)])
        [0, 1, 2, 3, 4, 79, 80, 83, 84] =
      [0x44, 0x44, 0x38, 0x86, 0x02, 0x02, 0x44, 0x44, 0x02] := by
  decide

theorem test_V63_score_bit :
    colours (line 40 origin [(0x06, 0x86), (0x07, 0x38), (0x08, 0x44), (0x0A, 0x02), (0x0D, 0x10)]) [3, 4, 80, 83, 84] =
      [0x86, 0x00, 0x38, 0x38, 0x00] := by
  decide

theorem test_V64_V65_V68_counters :
    (let t := lineUpdate (line 39 { origin with p0 := 20, p1 := 27 } [(0x1B, 0x01), (0x1C, 0x80)])
     (t.video.line, t.cyc, readCell 0x37 t)) = (40, 0, 0x00) ∧
      (lineUpdate (line 232 origin [])).video.line = 233 ∧
      (lineUpdate { line 300 origin [] with cyc := 230 }).cyc = 2 := by
  decide

/-! ### Whole iterations: vectors W -/

/-- A start state of Part I: line, beam cycle, timer interval and remainder. -/
def start (n c : Nat) (pre : Prescaler) (acc : Nat) (s : State) : State :=
  { s with cyc := c, timer := ⟨pre, acc⟩, video := { s.video with line := n } }

/-- Line, beam cycle, countdown, timer. -/
def after (s : State) : Option (Nat × Nat × Byte × Timer) :=
  (iterate s).map fun t => (t.video.line, t.cyc, readCell 0x0284 t, t.timer)

theorem test_W6_W8_frame :
    ((iterate { frame4 0x02 with mem := (vec 0x1000 [0x85, 0x00] []).mem, cyc := 30 }).map fun t =>
        (t.video.frameCount, t.video.frameComplete, t.video.line, t.cyc)) = some (5, false, 3, 39) ∧
      ((iterate { frame4 0x02 with mem := (vec 0x1000 [0x85, 0x00] []).mem, cyc := 222 }).map fun t =>
        (t.video.frameCount, t.video.frameComplete, t.video.line, t.cyc)) = some (5, false, 4, 3) := by
  decide

theorem test_W3_W5_line_end :
    after (start 250 222 .every1 0 (vec 0x1000 [0x85, 0x02] [])) = some (251, 0, 0xFD, ⟨.every1, 0⟩) ∧
      ((iterate (start 250 222 .every1 0 (vec 0x1000 [0x85, 0x10] []))).map fun t => (t.video.pos.p0, t.cyc)) =
        some (8, 3) := by
  decide

theorem test_W9_to_W12_tick :
    after (start 3 0 .every64 62 (vec 0x1000 [0xEA] [(0x0284, 0x0A)])) = some (3, 6, 0x09, ⟨.every64, 0⟩) ∧
      after (start 3 0 .every64 61 (vec 0x1000 [0xEA] [(0x0284, 0x0A)])) = some (3, 6, 0x0A, ⟨.every64, 63⟩) ∧
      after (start 3 0 .every1 0 (vec 0x1000 [0xEA] [])) = some (3, 6, 0xFE, ⟨.every1, 0⟩) ∧
      after (start 3 0 .every8 7 (vec 0x1000 [0x00] [])) = some (3, 21, 0xFF, ⟨.every8, 6⟩) := by
  decide

theorem test_W13_to_W16_trigger :
    after { start 3 0 .every1 0 (vec 0x1000 [0x8D, 0x96, 0x02] [(0x0284, 0x80)]) with a := 0x05 } =
        some (3, 12, 0x05, ⟨.every64, 0⟩) ∧
      after { start 3 0 .every1024 1000 (vec 0x1000 [0x8D, 0x94, 0x02] [(0x0284, 0x80)]) with a := 0x05 } =
        some (3, 12, 0x05, ⟨.every1, 0⟩) ∧
      after { start 3 0 .every64 10 (vec 0x1000 [0x8D, 0x95, 0x02] []) with a := 0xFF } =
        some (3, 12, 0xFF, ⟨.every8, 0⟩) ∧
      after { start 3 0 .every64 10 (vec 0x1000 [0x8D, 0x97, 0x02] []) with a := 0x01 } =
        some (3, 12, 0x01, ⟨.every1024, 0⟩) := by
  decide

theorem test_W17_W20_other_timer_cells :
    after { start 3 0 .every1 0 (vec 0x1000 [0x8D, 0x84, 0x02] [(0x0284, 0x80)]) with a := 0x20 } =
        some (3, 12, 0x1C, ⟨.every1, 0⟩) ∧
      after { start 3 0 .every64 10 (vec 0x1000 [0x8D, 0x80, 0x02] [(0x0284, 0x80)]) with a := 0x20 } =
        some (3, 12, 0x80, ⟨.every64, 14⟩) := by
  decide

theorem test_W22_illegal :
    ((iterate (start 3 30 .every1 0 (vec 0x1000 [0x02] [(0x0284, 0x80)]))).map fun t =>
      (t.halted, readCell 0x0284 t, t.cyc, t.pc)) = some (some ⟨0x02, 0x1000⟩, 0x80, 30, 0x1000) := by
  decide

/-! ### Witnesses: a concrete state and operands for the hypotheses of each statement -/

/-- The instruction answers a next state that passes the test. -/
def answers (i : Instr) (s : State) (p : State → Bool) : Bool :=
  match exec i s with
  | .next t => p t
  | _ => false

/-- What `answers` says. -/
theorem answers_iff (i : Instr) (s : State) (p : State → Bool) :
    answers i s p = true ↔ ∃ t, exec i s = .next t ∧ p t = true := by
  unfold answers
  cases exec i s <;> simp

/-- A state at 0x1000 with every register, flag and some memory set: zero page pointers at 0x10 and 0xFF, the stack
pointer 0x80. -/
def busy : State :=
  { vec 0x1000 [] [(0x10, 0xF0), (0x11, 0x10), (0xFF, 0x34), (0x00, 0x12), (0x180, 0x55), (0x181, 0x66)] with
    a := 0x85, x := 0x20, y := 0x40, sp := 0x80, flags := fl 0b1010101 }

theorem witness_DecodeInvertsEncode :
    (Instr.adc (.izy 0xFF)).wf = true ∧ (Instr.sta (.aby 0xFFFF)).wf = true ∧ (Instr.bne 0x80).wf = true ∧
      (Instr.ror .acc).wf = true ∧ Instr.brk.wf = true ∧ (Instr.ill 0xFF).wf = true := by
  decide

theorem witness_EncodeInvertsDecode :
    decode [0xAD, 0xFF, 0xFF, 0x00] = .ok (.lda (.abs 0xFFFF), [0x00]) ∧ decode [0x00] = .ok (.brk, []) ∧
      decode [0xFF] = .ok (.ill 0xFF, []) := by
  decide

theorem witness_UnassignedOpcodesAreIllegal :
    (0x02 : Byte) ∈ unassigned ∧ (0xFF : Byte) ∈ unassigned ∧ (0x00 : Byte) ∉ unassigned ∧
      (0xFE : Byte) ∉ unassigned := by
  decide

/-- An instruction, the illegal opcode, and one whose bytes wrap past 0xFFFF. -/
theorem witness_StepRunsDecodedInstruction :
    (∀ p ∈ [(vec 0x1000 [0x69, 0x01] [], Instr.adc (.imm 0x01), ([0x00] : List Byte)),
        (vec 0x1000 [0x02] [], .ill 0x02, [0x00, 0x00]),
        (vec 0xFFFF [0x4C] [(0x00, 0x34), (0x01, 0x12)], .jmp (.abs 0x1234), [])],
      p.1.halted = none ∧
        decode [memRead p.1.pc p.1, memRead (p.1.pc + 1) p.1, memRead (p.1.pc + 2) p.1] = .ok (p.2.1, p.2.2)) := by
  decide

theorem witness_HaltedMachineHasNoStep :
    ({ State.reset with halted := some ⟨0x02, 0x1000⟩ } : State).halted = some ⟨0x02, 0x1000⟩ := rfl

theorem witness_OnlyIllegalOpcodesHalt :
    (vec 0x1000 [0xFF] []).halted = none ∧ memRead 0x1000 (vec 0x1000 [0xFF] []) ∈ unassigned ∧
      (vec 0x1000 [0xEA] []).halted = none ∧ memRead 0x1000 (vec 0x1000 [0xEA] []) ∉ unassigned := by
  decide

/-- A state on the last chip cycle of a line, with entries in its timeline. -/
theorem witness_StepKeepsInvariant :
    ∃ s : State, s.Inv ∧ s.cyc = 227 ∧ s.video.bg.later ≠ [] ∧ ∃ t, step s = .next t :=
  ⟨{ vec 0x1000 [0x85, 0x02] [] with
      cyc := 227
      video := { State.reset.video with bg := { first := 0x0E, later := [⟨80, 0x1C⟩, ⟨227, 0x2A⟩] } } },
    ⟨by decide, by decide, by decide, rfl, rfl, rfl, by decide, by decide⟩, rfl, by decide, _, rfl⟩

theorem witness_BootLeavesWhatResetSays :
    ([] : List Byte).length ≤ 4096 ∧ (List.replicate 4096 (0xEA : Byte)).length ≤ 4096 ∧
      Unspecified.chosen.mem.wf = true ∧ Memory.wf [(0x0000, 0x01), (0x1FFF, 0xF0)] = true := by
  refine ⟨by decide, Nat.le_of_eq List.length_replicate, rfl, by decide⟩

/-- The run ends halted, by the host, at the frame count. -/
theorem witness_RunEndsOnlyForAReason :
    (∃ t, run 1 1 (vec 0x1000 [0x02] []) = .ended (.halted ⟨0x02, 0x1000⟩) t) ∧
      (∃ t, run 9 1 { frame4 0x02 with
        mem := (vec 0x1000 [0x85, 0x00] []).mem, hostPort := ⟨[⟨[], true⟩], false⟩ } = .ended .quit t) ∧
      ∃ t, run 5 1 { frame4 0x02 with mem := (vec 0x1000 [0x85, 0x00] []).mem } = .ended .maxFrames t :=
  ⟨⟨_, rfl⟩, ⟨_, rfl⟩, ⟨_, rfl⟩⟩

/-- The shortest, the longest and the longest indexed cost, and the illegal opcode. -/
theorem witness_EveryInstructionCompletesWithItsCost :
    answers .nop busy (·.stepCost == 2) = true ∧ answers .brk busy (·.stepCost == 7) = true ∧
      answers (.inc (.abx 0x00F0)) busy (·.stepCost == 7) = true ∧
      answers (.ill 0x02) busy (·.halted == some ⟨0x02, 0x1000⟩) = true := by
  decide

/-- A changed register or flag for each clause. -/
theorem witness_RegistersChangeOnlyByTheirWriters :
    answers .pla busy (·.a != busy.a) = true ∧ answers .dex busy (·.x != busy.x) = true ∧
      answers .iny busy (·.y != busy.y) = true ∧ answers .txs busy (·.sp != busy.sp) = true ∧
      answers .clc busy (·.flags.c != busy.flags.c) = true ∧ answers .sec { busy with flags := fl 0 } (·.flags.c) = true ∧
      answers (.bit (.zp 0x10)) busy (·.flags.v != busy.flags.v) = true ∧
      answers .brk { busy with flags := fl 0 } (·.flags.i) = true ∧
      answers .sed busy (·.flags.d != busy.flags.d) = true ∧
      answers .brk { busy with flags := fl 0 } (·.flags.b) = true ∧
      answers (.lda (.imm 0x00)) busy (·.flags.z != busy.flags.z) = true ∧
      answers (.lda (.imm 0x00)) busy (·.flags.n != busy.flags.n) = true := by
  decide

/-- A form that stores nothing, one for each kind. -/
theorem witness_FormsThatStoreNothingKeepMemory :
    ∀ i ∈ [Instr.lda (.izx 0xFF), .tax, .sbc (.aby 0xFFFF), .bit (.abs 0x0282), .ror .acc, .dey, .jmp (.ind 0x10FF), .rts,
        .rti, .bvs 0x80, .pla, .plp, .clv, .nop, .ill 0x02],
      answers i busy (fun _ => true) = true ∧ storesNothing i = true := by
  decide

/-- Every storing form, its address at both ends of zero page and of the address space. -/
theorem witness_StoringFormsChangeOneCell :
    (∀ m ∈ [Operand.zp 0x00, .zpx 0xFF, .abs 0x0000, .abs 0xFFFF, .abx 0xFFFF],
      ∀ i ∈ [Instr.inc m, .dec m, .asl m, .lsr m, .rol m, .ror m, .sta m],
        answers i busy (fun _ => true) = true ∧ ∃ ea, resolve m busy = .addr ea) ∧
      (∀ m ∈ [Operand.izx 0xFF, .izy 0xFF, .aby 0xFFFF],
        answers (.sta m) busy (fun _ => true) = true ∧ ∃ ea, resolve m busy = .addr ea) ∧
      answers (.stx (.zpy 0xFF)) busy (fun _ => true) = true ∧ resolve (.zpy 0xFF) busy = .addr 0x003F ∧
      answers (.sty (.zpx 0xFF)) busy (fun _ => true) = true ∧ resolve (.zpx 0xFF) busy = .addr 0x001F := by
  simp only [List.forall_mem_cons]
  refine ⟨?_, ?_, by decide, rfl, by decide, rfl⟩ <;> repeat' apply And.intro
  all_goals first | exact ⟨_, rfl⟩ | decide

/-- The pushes, with the stack pointer in the middle and at its wrap. -/
theorem witness_PushesChangeOnlyTheirStackCells :
    (∀ p ∈ [(Instr.pha, 1), (.php, 1), (.jsr 0xFFFF, 2), (.brk, 3)], answers p.1 busy (fun _ => true) = true) ∧
      ∀ i ∈ [Instr.pha, .php, .jsr 0xFFFF, .brk], answers i { busy with sp := 0x00 } (fun _ => true) = true := by
  decide

/-- STA to an address changes a cell. -/
def changes (w : Word) (a : Addr) : Bool :=
  answers (.sta (.abs w)) busy fun t => readCell a t != readCell a busy

/-- A changed cell at and beside the ends of both ranges. -/
theorem witness_EveryChangedRegisterCellIsSignalled :
    changes 0x0000 0x0000 = true ∧
      changes 0x002C 0x002C = true ∧
      changes 0x002D 0x002D = true ∧
      changes 0x027F 0x027F = true ∧
      changes 0x0280 0x0280 = true ∧
      changes 0x0281 0x0281 = true ∧
      changes 0x0283 0x0283 = true ∧
      changes 0x0297 0x0297 = true ∧
      changes 0x0298 0x0298 = true ∧
      changes 0x1FFF 0x1FFF = true := by
  decide

/-- Instructions of the first kind; the two that push, with the stack pointer in the middle and where BRK's cells wrap. -/
theorem witness_DecimalFlagNeverAltersArithmetic :
    Instr.adc (.imm 0x99) ≠ .php ∧ Instr.adc (.imm 0x99) ≠ .brk ∧ Instr.plp ≠ .php ∧ Instr.rti ≠ .brk ∧
      (Instr.php, (0 : Byte)) ∈ [(Instr.php, (0 : Byte)), (.brk, 2)] ∧
      (Instr.brk, (2 : Byte)) ∈ [(Instr.php, (0 : Byte)), (.brk, 2)] ∧ 0 ≠ 3 ∧ 7 ≠ 3 ∧
      answers .php (withD true busy) (fun t => readCell 0x0180 t == 0xBD) = true ∧
      answers .php (withD false busy) (fun t => readCell 0x0180 t == 0xB5) = true ∧
      answers .brk { withD true busy with sp := 0x01 } (fun t => readCell 0x01FF t == 0xBD) = true := by
  decide

theorem witness_InterruptAndBreakFlagsHaveNoOtherEffect :
    Instr.cli ≠ .php ∧ Instr.cli ≠ .brk ∧ Instr.rti ≠ .php ∧ Instr.rti ≠ .brk := by
  decide

/-- The indexed modes with and without a page cross, and over the end of the address space. -/
theorem witness_IndexedModesCrossPagesWhenHighByteChanges :
    crossed (.abx 0x12E0) busy = true ∧ crossed (.abx 0x12DF) busy = false ∧ crossed (.abx 0xFFE0) busy = true ∧
      crossed (.aby 0x12C0) busy = true ∧ crossed (.aby 0x12BF) busy = false ∧ crossed (.aby 0xFFFF) busy = true := by
  decide

theorem witness_ZeroPagePointersWrapInsideThePage :
    crossed (.izy 0x10) busy = true ∧ crossed (.izy 0xFF) busy = false ∧ resolve (.izx 0xDF) busy = .addr 0x1234 := by
  decide

theorem witness_LoadsPutOperandInRegister :
    (∀ m ∈ [Operand.imm 0x00, .zp 0xFF, .zpx 0xFF, .abs 0xFFFF, .abx 0xFFFF, .aby 0xFFFF, .izx 0xFF, .izy 0xFF],
      (Instr.lda m).wf = true) ∧
      (∀ m ∈ [Operand.imm 0x80, .zp 0xFF, .zpy 0xFF, .abs 0xFFFF, .aby 0xFFFF], (Instr.ldx m).wf = true) ∧
      ∀ m ∈ [Operand.imm 0x80, .zp 0xFF, .zpx 0xFF, .abs 0xFFFF, .abx 0xFFFF], (Instr.ldy m).wf = true := by
  decide

theorem witness_StoresWriteRegister :
    (∀ m ∈ [Operand.zp 0xFF, .zpx 0xFF, .abs 0x0282, .abx 0xFFFF, .aby 0xFFFF, .izx 0xFF, .izy 0xFF],
      (Instr.sta m).wf = true) ∧
      (∀ m ∈ [Operand.zp 0xFF, .zpy 0xFF, .abs 0x0282], (Instr.stx m).wf = true) ∧
      ∀ m ∈ [Operand.zp 0xFF, .zpx 0xFF, .abs 0x0282], (Instr.sty m).wf = true := by
  decide

theorem witness_TransfersAndRegisterSteps :
    (Instr.tsx, (0x80 : Byte), { busy with x := 0x80 }) ∈ registerResults busy ∧
      (Instr.inx, (0x00 : Byte), { busy with x := 0x00 }) ∈ registerResults { busy with x := 0xFF } ∧
      (Instr.dey, (0xFF : Byte), { busy with y := 0xFF }) ∈ registerResults { busy with y := 0x00 } := by
  simp [registerResults]; decide

theorem witness_AdcMatchesReferenceArithmetic :
    ∀ m ∈ [Operand.imm 0x7F, .zp 0xFF, .zpx 0xFF, .abs 0xFFFF, .abx 0xFFFF, .aby 0xFFFF, .izx 0xFF, .izy 0xFF],
      (Instr.adc m).wf = true := by
  decide

theorem witness_SbcMatchesReferenceArithmetic :
    ∀ m ∈ [Operand.imm 0x80, .zp 0xFF, .zpx 0xFF, .abs 0xFFFF, .abx 0xFFFF, .aby 0xFFFF, .izx 0xFF, .izy 0xFF],
      (Instr.sbc m).wf = true := by
  decide

theorem witness_LogicPutsBitwiseResult :
    (∀ m ∈ [Operand.imm 0x0F, .zp 0xFF, .zpx 0xFF, .abs 0xFFFF, .abx 0xFFFF, .aby 0xFFFF, .izx 0xFF, .izy 0xFF],
      (Instr.and m).wf = true ∧ (Instr.ora m).wf = true ∧ (Instr.eor m).wf = true) ∧
      (Instr.eor (.imm 0x0F), (0x8A : Byte)) ∈ [(Instr.and (.imm 0x0F), busy.a &&& operand (.imm 0x0F) busy),
        (.ora (.imm 0x0F), busy.a ||| operand (.imm 0x0F) busy), (.eor (.imm 0x0F), busy.a ^^^ operand (.imm 0x0F) busy)] := by
  decide

theorem witness_ComparesAndBitTest :
    (∀ m ∈ [Operand.imm 0x85, .zp 0xFF, .abs 0xFFFF],
      (Instr.cmp m).wf = true ∧ (Instr.cpx m).wf = true ∧ (Instr.cpy m).wf = true) ∧
      (Instr.cmp (.izy 0xFF)).wf = true ∧ (Instr.bit (.zp 0xFF)).wf = true ∧ (Instr.bit (.abs 0xFFFF)).wf = true := by
  decide

theorem witness_ShiftsAndRotates :
    (∀ m ∈ [Operand.acc, .zp 0xFF, .zpx 0xFF, .abs 0x0282, .abx 0xFFFF],
      (Instr.asl m).wf = true ∧ (Instr.lsr m).wf = true ∧ (Instr.rol m).wf = true ∧ (Instr.ror m).wf = true) ∧
      (Instr.ror .acc, 0xC2, true) ∈ shiftResults .acc (operand .acc busy) busy.flags.c ∧
      (Instr.rol .acc, 0x0B, true) ∈ shiftResults .acc (operand .acc busy) busy.flags.c := by
  decide

theorem witness_IncrementsAndDecrementsOfMemory :
    (∀ m ∈ [Operand.zp 0xFF, .zpx 0xFF, .abs 0x0282, .abx 0xFFFF], (Instr.inc m).wf = true ∧ (Instr.dec m).wf = true) ∧
      operand (.zp 0xFF) busy + 1 = 0x35 ∧ operand (.zp 0x40) busy - 1 = 0xFF := by
  decide

/-- Each branch, taken and not taken. -/
theorem witness_BranchesTestTheirFlag :
    ∀ p ∈ [(Instr.bcc 0x80, 0b0000001), (.bcs 0x80, 0b0000000), (.beq 0x80, 0b0000000), (.bne 0x80, 0b0000010),
        (.bmi 0x80, 0b0000000), (.bpl 0x80, 0b1000000), (.bvc 0x80, 0b0100000), (.bvs 0x80, 0b0000000)],
      (p.1, false) ∈ branches 0x80 (fl p.2) ∧ (p.1, true) ∈ branches 0x80 (fl (0b1111111 - p.2)) := by
  decide

/-- The round trips run, with the stack pointer in the middle and at its wrap. -/
theorem witness_StackRoundTrips :
    ∀ s ∈ [busy, { busy with sp := 0x00 }],
      answers .pha s (fun t => answers .pla t fun _ => true) = true ∧
        answers .php s (fun t => answers .plp t fun _ => true) = true ∧
        answers (.jsr 0x1234) s (fun t => answers .rts t fun _ => true) = true ∧
        answers .brk s (fun t => answers .rti t fun _ => true) = true := by
  decide

theorem witness_FlagInstructionsAndNop :
    ∀ p ∈ [(Instr.clc, 0b1010100), (.sec, 0b1010101), (.cli, 0b1010001), (.sei, 0b1010101), (.cld, 0b1010101),
        (.sed, 0b1011101), (.clv, 0b1010101)],
      (p.1, fl p.2) ∈ flagSetters busy.flags := by
  decide

/-- Both sides of each end of the filter's ranges, under two of the eight names of a cell. -/
theorem witness_ProcessorWritesAreFiltered :
    ∀ p ∈ [((0x0000 : Addr), (0x2000 : Word)), (0x002C, 0xE02C), (0x002D, 0x002D), (0x027F, 0x027F), (0x0280, 0x2280),
        (0x0281, 0x0281), (0x0282, 0x2282), (0x0283, 0x0283), (0x0297, 0xE297), (0x0298, 0x0298), (0x1FFF, 0xFFFF)],
      p.1.toNat = p.2.toNat % 8192 := by
  simp

theorem witness_MemoryIsCanonical :
    Memory.wf [(0, 0x01), (8191, 0xFF)] = true ∧ 0 < 8192 ∧ 8191 < 8192 ∧
      (∀ a, Memory.read [(8191, 0xFF)] a = Memory.read (Memory.write [(0, 0x01), (8191, 0xFF)] 0 0x00) a) ∧
      Memory.wf (Memory.write [(0, 0x01), (8191, 0xFF)] 0 0x00) = true := by
  refine ⟨by decide, by decide, by decide, fun a => rfl, by decide⟩

theorem witness_ResetRegistersLatchPosition :
    (VReg.resp0, Obj.p0, (5 : Int)) ∈ resetRegs ∧ (VReg.resm0, Obj.m0, (0 : Int)) ∈ resetRegs ∧
      (VReg.resbl, Obj.bl, (0 : Int)) ∈ resetRegs := by
  decide

/-- A copy whose start pixel is the beam's, one behind it, and an object without second and third copy. -/
theorem witness_GraphicsWritesReachUndrawnCopies :
    ((0x1C : Addr), Obj.p1) ∈ graphicsRegs ∧ ((0x1F : Addr), Obj.bl) ∈ graphicsRegs ∧
      (copiesOf { busy with cyc := 68 } .p0).length = 1 ∧ 1 ≤ 2 ∧ 2 < 3 ∧ Obj.p0 ≠ .bl ∧ Obj.m1 ≠ .p1 ∧
      (copiesOf (vec 0x1000 [] [(0x05, 0x06)]) .m1).length = 3 := by
  decide

/-- Each register; the beam on both sides of its thresholds. -/
theorem witness_PlayfieldAndMirrorObeyThresholds :
    (VReg.pf0, 0, 68, 148) ∈ playfieldRegs ∧ (VReg.pf1, 1, 84, 164) ∈ playfieldRegs ∧
      (VReg.pf2, 2, 116, 196) ∈ playfieldRegs ∧
      ({ busy with cyc := 67 } : State).cyc < 68 ∧ ¬({ busy with cyc := 68 } : State).cyc < 68 ∧
      ({ busy with cyc := 195 } : State).cyc < 196 ∧ ¬({ busy with cyc := 196 } : State).cyc < 196 := by
  decide

/-- A write on the last pixel of the last visible line, with no object and no playfield there; and one before pixel 0. -/
theorem witness_BackgroundWritesExtendTimeline :
    (let s := { line 231 origin [(0x09, 0x1E)] with cyc := 227 }
     0 ≤ 159 ∧ s.video.line = 40 + 191 ∧ s.cyc ≤ 159 + 68 ∧
       ∀ l ∈ [Layer.p0, .p1, .m0, .m1, .bl, .pf], masks s l 159 = false) ∧
    (let s := { line 40 origin [(0x09, 0x1E)] with cyc := 68 }
     s.video.line = 40 + 0 ∧ s.cyc ≤ 0 + 68 ∧
       ∀ l ∈ [Layer.p0, .p1, .m0, .m1, .bl, .pf], masks s l 0 = false) := by
  decide

theorem witness_HmoveAddsSignedNibbles :
    ∀ p ∈ [(VReg.hmp0, Obj.p0), (.hmp1, .p1), (.hmm0, .m0), (.hmm1, .m1), (.hmbl, .bl)], p ∈ motionRegs := by
  decide

theorem witness_InertRegistersAndResmp :
    VReg.vblank ∈ inertRegs ∧ VReg.hmbl ∈ inertRegs ∧
      (VReg.resmp1, Obj.m1, Obj.p1) ∈ [(VReg.resmp0, Obj.m0, Obj.p0), (.resmp1, .m1, .p1)] := by
  decide

theorem witness_CommitAdvancesLineAndReducesCycles :
    228 ≤ ({ busy with cyc := 228 } : State).cyc ∧ ({ busy with cyc := 248 } : State).cyc < 228 + 21 := by
  decide

/-- A collision on the first visible line of the two players, over the line's right edge, with its latch bit. -/
theorem witness_CommitLatchesCollisions :
    let s := line 40 { origin with p0 := 155, p1 := 1 } [(0x1B, 0x02), (0x1C, 0x80)]
    0 < 8 ∧ 7 < 8 ∧ 40 ≤ s.video.line ∧ s.video.line < 232 ∧ (Layer.p0, Layer.p1, (0x37 : Addr), 7) ∈ latchTable ∧
      1 < 160 ∧ Covers s .p0 1 ∧ Covers s .p1 1 :=
  ⟨by decide, by decide, by decide, by decide, by decide, by decide,
    ⟨0, by decide, 6, by decide, 0, by decide, by decide, by decide⟩,
    ⟨0, by decide, 0, by decide, 0, by decide, by decide, by decide⟩⟩

/-- The first and the last playfield bit, in both halves (R351). -/
theorem test_playfield_covers :
    let s := line 40 origin [(0x0D, 0x10), (0x0F, 0x80)]
    Covers s .pf 0 ∧ Covers s .pf 79 ∧ ¬Covers s .pf 4 ∧ Covers s .pf 159 ∧ Covers s .pf 80 := by
  simp only [Covers, PlayfieldCovers]
  decide

theorem witness_CommitPaintsTopmostLayer :
    0 < 192 ∧ 191 < 192 ∧ 0 < 160 ∧ 159 < 160 ∧ 191 = (line 231 origin []).video.line - 40 := by
  decide

theorem witness_TimerCountsWholeIntervals :
    (0x0297, Prescaler.every1024) ∈
        [((0x0294 : Addr), Prescaler.every1), (0x0295, .every8), (0x0296, .every64), (0x0297, .every1024)] ∧
      (0x0293 : Addr) ∉ ([0x0294, 0x0295, 0x0296, 0x0297] : List Addr) ∧
      (0x0284 : Addr) ∉ ([0x0294, 0x0295, 0x0296, 0x0297] : List Addr) := by
  decide

/-- No frame complete; a frame complete with an answer, and with the script used up. -/
theorem witness_HostStoresOnlyToInputCells :
    busy.video.frameComplete = false ∧
      ({ busy with
        video := { busy.video with frameComplete := true }
        hostPort := ⟨[⟨[(.port, 0x3F)], true⟩], false⟩ } : State).video.frameComplete = true ∧
      (0x0080 : Addr) ≠ 0x0282 := by
  decide

/-- STA WSYNC at the start of a line; STX on its last cycle, through another name of the cell; INC. -/
theorem witness_WsyncEndsTheLine :
    (let s := vec 0x1000 [0x85, 0x02] []
     s.Inv ∧ s.halted = none ∧ fetchInstr s = .sta (.zp 0x02) ∧ resolve (.zp 0x02) s = .addr 0x0002 ∧
       (0x0002 : Word).toNat % 8192 = 2) ∧
    (let s := { vec 0x1000 [0x8E, 0x02, 0xE0] [] with cyc := 227 }
     s.Inv ∧ s.halted = none ∧ fetchInstr s = .stx (.abs 0xE002) ∧ resolve (.abs 0xE002) s = .addr 0xE002 ∧
       (0xE002 : Word).toNat % 8192 = 2) ∧
    (let s := vec 0x1000 [0xE6, 0x02] []
     s.Inv ∧ s.halted = none ∧ fetchInstr s = .inc (.zp 0x02) ∧ resolve (.zp 0x02) s = .addr 0x0002) := by
  refine ⟨⟨⟨by decide, by decide, by decide, rfl, rfl, rfl, by decide, by decide⟩, ?_⟩,
    ⟨⟨by decide, by decide, by decide, rfl, rfl, rfl, by decide, by decide⟩, ?_⟩,
    ⟨⟨by decide, by decide, by decide, rfl, rfl, rfl, by decide, by decide⟩, ?_⟩⟩ <;> decide

end Sys2Proof.Tests
end

section
/-! PROOFS. The life of `halted`: clear at reset, set by the illegal-opcode entry, and final (R29, R393, R425). -/

namespace Sys2Proof.Machine

/-- The re-latch (R361) writes descriptors only. -/
@[simp] theorem relatch_halted (s : State) : (relatch s).halted = s.halted := onVideo_halted _ s

/-- R450: no image and no unspecified value leaves the machine halted. -/
@[simp] theorem boot_halted (image : List Byte) (u : Unspecified) : (boot image u).halted = none :=
  (relatch_halted _).trans (setPC_halted _ _)

/-- "When true the Processor has no step" (R29). -/
theorem step_of_halted {s : State} {d : Diagnostic} (h : s.halted = some d) : step s = .fault (.halted d) := by
  simp only [step, h]

/-- Settles O6: reset by `boot_halted`, the entry by `exec_ill` and the definition of `raiseFatal`, the end by
`step_of_halted`. -/
theorem haltedMachineHasNoStep : Obligations.HaltedMachineHasNoStep := by
  unfold Obligations.HaltedMachineHasNoStep
  exact ⟨boot_halted, fun s op => exec_ill op s, fun _ _ => step_of_halted⟩

end Sys2Proof.Machine
end

section
/-! PROOFS. The cost of an implied instruction in the statements' words, and JMP (R134, R149, R230). -/

namespace Sys2Proof.Machine

/-- The charge of R135 and R136, with its clock ratio of 3, is the statements' `costing`. -/
theorem charge_eq_costing (n : Nat) (s : State) : charge n s = Claims.costing n s := rfl

/-- Without a page cross and without extra cycles the cost is the table's (R134). -/
@[simp] theorem totalCost_base (e : Entry) : totalCost e false 0 = e.cycles := by simp [totalCost, b2n]

theorem performImplied_of_entry {i : Instr} {e : Entry} (h : i.entry? = some e) (op : State → State) (s : State) :
    performImplied i op s = .next (Claims.costing e.cycles (op (advancePC e.length s))) := by
  rw [performImplied, perform_of_entry h, totalCost_base, charge_eq_costing]

/-- Setting `PC` forgets that it was advanced. -/
@[simp] theorem setPC_advancePC (w : Word) (n : Nat) (s : State) : setPC w (advancePC n s) = setPC w s := rfl

/-- The target of JMP depends on the memory alone. -/
theorem jumpTarget_congr {s t : State} (h : t.mem = s.mem) (j : JumpOperand) : jumpTarget j t = jumpTarget j s := by
  cases j with
  | abs w => rfl
  | ind ptr => simp only [jumpTarget, jumpPointer, memRead_congr h]

/-- R149's masked address as a number: the page of `w` with the low byte of `w + 1`. -/
theorem pageWrap_succ_eq_ofNat (w : Word) :
    (w &&& 0xFF00) ||| ((w + 1) &&& 0x00FF) = BitVec.ofNat 16 (w.toNat / 256 * 256 + (w.toNat + 1) % 256) := by
  have := w.isLt
  rw [pageWrap_eq]
  apply BitVec.eq_of_toNat_eq
  rw [toNat_joinLE, toNat_lo8, toNat_hi8, BitVec.toNat_add, BitVec.toNat_ofNat]
  simp only [BitVec.reduceToNat]
  omega

/-- The pointer of an indirect jump with the page wrap of R149 as a number. -/
theorem jumpPointer_eq (w : Word) (s : State) :
    jumpPointer w s =
      memRead (BitVec.ofNat 16 (w.toNat / 256 * 256 + (w.toNat + 1) % 256)) s ++ memRead w s := by
  rw [jumpPointer, pageWrap_succ_eq_ofNat, joinLE]

/-- JMP sets `PC` to its target, at the cost of its form, and changes nothing else (R230). -/
theorem exec_jmp {j : JumpOperand} {e : Entry} (h : (Instr.jmp j).entry? = some e) (s : State) :
    exec (.jmp j) s = .next (Claims.costing e.cycles (setPC (jumpTarget j s) s)) := by
  have harm : exec (.jmp j) s = execJmp j s := rfl
  rw [harm, execJmp, performImplied_of_entry h, setPC_advancePC, jumpTarget_congr (advancePC_mem _ s)]

theorem entry?_jmp_abs (w : Word) : (Instr.jmp (.abs w)).entry? = some ⟨.abs, 0x4C, 3, 3, false⟩ := rfl

theorem entry?_jmp_ind (w : Word) : (Instr.jmp (.ind w)).entry? = some ⟨.ind, 0x6C, 3, 5, false⟩ := rfl

/-- Settles O24: the bytes by the encoder's definition, both forms by `exec_jmp` with their table entries, and the
pointer's page wrap by `jumpPointer_eq`. -/
theorem jumpGoesToTargetWithPageWrapDefect : Obligations.JumpGoesToTargetWithPageWrapDefect := by
  unfold Obligations.JumpGoesToTargetWithPageWrapDefect
  intro s w
  refine ⟨rfl, rfl, ?_, ?_⟩
  · exact exec_jmp (entry?_jmp_abs w) s
  · rw [← jumpPointer_eq]
    exact exec_jmp (entry?_jmp_ind w) s

end Sys2Proof.Machine
end

section
/-! PROOFS. The stack: what a pull finds after a push, subroutine call and return, and the round trips (R231, R232,
R244). -/

namespace Sys2Proof.Machine

/-! ### Pushes as writes -/

/-- Two stack pointer steps down are one of two. -/
theorem sub_one_sub_one (sp : Byte) : sp - 1 - 1 = sp - 2 := by bv_omega

/-- `MemWrite` does not look at `SP`. -/
theorem memWrite_setSP (w : Word) (v p : Byte) (s : State) :
    memWrite w v (setSP p s) = setSP p (memWrite w v s) := by
  unfold memWrite
  split <;> rfl

/-- The two pushes of a return address as two writes, high byte first, the second below the first. -/
theorem pushWord_eq_memWrite (w : Word) (s : State) :
    pushWord w s =
      setSP (s.sp - 2) (memWrite (stackAddr (s.sp - 1)) (lo8 w) (memWrite (stackAddr s.sp) (hi8 w) s)) := by
  rw [pushWord_eq, push, push_sp, sub_one_sub_one, push, memWrite_setSP]
  rfl

@[simp] theorem pushWord_sp (w : Word) (s : State) : (pushWord w s).sp = s.sp - 2 := sub_one_sub_one s.sp

/-- A push and an advance of `PC` commute. -/
theorem push_advancePC (v : Byte) (n : Nat) (s : State) : push v (advancePC n s) = advancePC n (push v s) := by
  simp only [push_eq]
  rfl

theorem pushWord_advancePC (w : Word) (n : Nat) (s : State) :
    pushWord w (advancePC n s) = advancePC n (pushWord w s) := by
  simp only [pushWord_eq, push_advancePC]

/-! ### Pulls after pushes -/

theorem memRead_stackAddr_push (p v : Byte) (s : State) :
    memRead (stackAddr p) (push v s) = if p = s.sp then v else memRead (stackAddr p) s := by
  simp only [memRead, readCell_push, stackAddr_inj]

/-- The cell of the first push of a return address holds its high byte. -/
theorem memRead_pushWord_hi (w : Word) (s : State) : memRead (stackAddr s.sp) (pushWord w s) = hi8 w := by
  have hne : s.sp ≠ s.sp - 1 := by bv_omega
  rw [pushWord_eq, memRead_stackAddr_push, push_sp, if_neg hne, memRead_stackAddr_push, if_pos rfl]

/-- The cell below it holds the low byte. -/
theorem memRead_pushWord_lo (w : Word) (s : State) : memRead (stackAddr (s.sp - 1)) (pushWord w s) = lo8 w := by
  rw [pushWord_eq, memRead_stackAddr_push, push_sp, if_pos rfl]

/-- A pull finds what was pushed, in any state with the stack and memory of after the push. -/
theorem pull_of_push {v : Byte} {s t : State} (hmem : t.mem = (push v s).mem) (hsp : t.sp = s.sp - 1) :
    pull t = (v, setSP s.sp t) := by
  have h : t.sp + 1 = s.sp := by rw [hsp, BitVec.sub_add_cancel]
  rw [pull, h, memRead_congr hmem, memRead_stackAddr_push, if_pos rfl]

/-- A return goes past the word that the two cells above `SP` hold. -/
theorem pullReturn_of_reads {w : Word} {p : Byte} {t : State} (hsp : t.sp = p - 2)
    (hlo : memRead (stackAddr (p - 1)) t = lo8 w) (hhi : memRead (stackAddr p) t = hi8 w) :
    pullReturn t = { t with sp := p, pc := w + 1 } := by
  have h1 : t.sp + 1 = p - 1 := by rw [hsp]; bv_omega
  have h2 : t.sp + 2 = p := by rw [hsp, BitVec.sub_add_cancel]
  rw [pullReturn_eq, h1, h2, hlo, hhi, joinLE_lo8_hi8]

/-- A return goes past the pushed word, in any state with the stack and memory of after the pushes. -/
theorem pullReturn_of_pushWord {w : Word} {s t : State} (hmem : t.mem = (pushWord w s).mem) (hsp : t.sp = s.sp - 2) :
    pullReturn t = { t with sp := s.sp, pc := w + 1 } := by
  apply pullReturn_of_reads hsp
  · rw [memRead_congr hmem, memRead_pushWord_lo]
  · rw [memRead_congr hmem, memRead_pushWord_hi]

/-- The return from the software interrupt takes the pushed byte back as flags and goes past the pushed word. -/
theorem returnFromInterrupt_of_push {p : Byte} {w : Word} {s t : State} (hmem : t.mem = (push p (pushWord w s)).mem)
    (hsp : t.sp = s.sp - 3) : returnFromInterrupt t = { t with sp := s.sp, flags := unpack p, pc := w + 1 } := by
  have hpull : pull t = (p, setSP (s.sp - 2) t) := by
    rw [← pushWord_sp w s]
    exact pull_of_push hmem (by rw [hsp, pushWord_sp]; bv_omega)
  have hlo : s.sp - 1 ≠ s.sp - 2 := by bv_omega
  have hhi : s.sp ≠ s.sp - 2 := by bv_omega
  have hmem' : (setFlags (unpack p) (setSP (s.sp - 2) t)).mem = (push p (pushWord w s)).mem := hmem
  rw [returnFromInterrupt, hpull]
  apply pullReturn_of_reads (t := setFlags (unpack p) (setSP (s.sp - 2) t)) rfl
  · rw [memRead_congr hmem', memRead_stackAddr_push, pushWord_sp, if_neg hlo, memRead_pushWord_lo]
  · rw [memRead_congr hmem', memRead_stackAddr_push, pushWord_sp, if_neg hhi, memRead_pushWord_hi]

/-- `Unpack` takes back what `Pack` put together (R26). -/
@[simp] theorem unpack_pack (f : Flags) : unpack (pack f) = f := by
  obtain ⟨c, z, i, d, b, v, n⟩ := f
  revert c z i d b v n
  decide

/-- The memory of the software interrupt's entry is that of its three pushes. -/
theorem enterSoftwareInterrupt_mem (s : State) :
    (enterSoftwareInterrupt s).mem = (push (pack { s.flags with b := true }) (pushWord (s.pc - 1) s)).mem := by
  rw [enterSoftwareInterrupt_eq, pushWord_eq]

theorem enterSoftwareInterrupt_sp (s : State) : (enterSoftwareInterrupt s).sp = s.sp - 3 := by
  rw [enterSoftwareInterrupt_eq]
  show s.sp - 1 - 1 - 1 = s.sp - 3
  bv_omega

/-! ### The instructions that push and pull, with their costs -/

theorem exec_pha (s : State) : exec .pha s = .next (Claims.costing 3 (advancePC 1 (push s.a s))) := by
  rw [← push_advancePC]
  exact performImplied_of_entry (i := .pha) rfl _ s

theorem exec_pla (s : State) :
    exec .pla s = .next (Claims.costing 4 (advancePC 1 (markNZ (pull s).1 (setA (pull s).1 (pull s).2)))) :=
  performImplied_of_entry (i := .pla) rfl (fun t => markNZ (pull t).1 (setA (pull t).1 (pull t).2)) s

theorem exec_php (s : State) : exec .php s = .next (Claims.costing 3 (advancePC 1 (push (pack s.flags) s))) := by
  rw [← push_advancePC]
  exact performImplied_of_entry (i := .php) rfl _ s

theorem exec_plp (s : State) :
    exec .plp s = .next (Claims.costing 4 (advancePC 1 (setFlags (unpack (pull s).1) (pull s).2))) :=
  performImplied_of_entry (i := .plp) rfl (fun t => setFlags (unpack (pull t).1) (pull t).2) s

/-- JSR pushes the address of its last byte, `PC + 2`, and goes to its operand (R231). -/
theorem exec_jsr (w : Word) (s : State) :
    exec (.jsr w) s = .next (Claims.costing 6 (setPC w (pushWord (s.pc + 2) s))) := by
  have hret : (advancePC 3 s).pc - 1 = s.pc + 2 := by rw [advancePC_pc]; bv_omega
  have harm : exec (.jsr w) s = execJsr w s := rfl
  rw [harm, execJsr, performImplied_of_entry (e := ⟨.abs, 0x20, 3, 6, false⟩) rfl, hret, pushWord_advancePC,
    setPC_advancePC]

theorem exec_rts (s : State) : exec .rts s = .next (Claims.costing 6 (pullReturn s)) :=
  performImplied_of_entry (i := .rts) rfl _ s

theorem exec_brk (s : State) : exec .brk s = .next (Claims.costing 7 (enterSoftwareInterrupt (advancePC 1 s))) :=
  performImplied_of_entry (i := .brk) rfl _ s

theorem exec_rti (s : State) : exec .rti s = .next (Claims.costing 6 (returnFromInterrupt s)) :=
  performImplied_of_entry (i := .rti) rfl _ s

/-- Settles O34: the bytes by the encoder's definition, JSR by `exec_jsr` and its pushes as writes, RTS by `exec_rts` and
`pullReturn_eq`. -/
theorem subroutineCallAndReturn : Obligations.SubroutineCallAndReturn := by
  unfold Obligations.SubroutineCallAndReturn
  intro s w
  refine ⟨rfl, rfl, ?_, ?_⟩
  · rw [exec_jsr, pushWord_eq_memWrite]
    rfl
  · rw [exec_rts, pullReturn_eq]
    rfl

/-! ### The round trips -/

/-- The pull after an instruction that pushes. -/
theorem pull_costing_advancePC_push (n k : Nat) (v : Byte) (s : State) :
    pull (Claims.costing n (advancePC k (push v s))) =
      (v, setSP s.sp (Claims.costing n (advancePC k (push v s)))) :=
  pull_of_push rfl rfl

/-- `PC` after a push and a pull of one byte each. -/
theorem push_pc_add_one_add_one (v : Byte) (s : State) : (push v s).pc + 1 + 1 = s.pc + 2 := by
  rw [push_pc, BitVec.add_assoc]
  rfl

/-- PHA then PLA restores `A` and `SP` (R244). -/
theorem pla_after_pha {s t u : State} (ht : exec .pha s = .next t) (hu : exec .pla t = .next u) :
    u.a = s.a ∧ u.sp = s.sp ∧ u.pc = s.pc + 2 := by
  rw [exec_pha] at ht
  cases ht
  rw [exec_pla, pull_costing_advancePC_push] at hu
  cases hu
  exact ⟨rfl, rfl, push_pc_add_one_add_one s.a s⟩

/-- PHP then PLP restores the flags and `SP` (R244). -/
theorem plp_after_php {s t u : State} (ht : exec .php s = .next t) (hu : exec .plp t = .next u) :
    u.flags = s.flags ∧ u.sp = s.sp ∧ u.pc = s.pc + 2 := by
  rw [exec_php] at ht
  cases ht
  rw [exec_plp, pull_costing_advancePC_push, unpack_pack] at hu
  cases hu
  exact ⟨rfl, rfl, push_pc_add_one_add_one (pack s.flags) s⟩

/-- JSR then RTS resumes after the JSR with `SP` unchanged (R244). -/
theorem rts_after_jsr {s t u : State} {w : Word} (ht : exec (.jsr w) s = .next t) (hu : exec .rts t = .next u) :
    u.pc = s.pc + 3 ∧ u.sp = s.sp := by
  rw [exec_jsr] at ht
  cases ht
  rw [exec_rts, pullReturn_of_pushWord (t := Claims.costing 6 (setPC w (pushWord (s.pc + 2) s))) rfl
    (pushWord_sp _ s)] at hu
  cases hu
  exact ⟨BitVec.add_assoc s.pc 2 1, rfl⟩

/-- BRK then RTI resumes after BRK's one byte with `SP` unchanged, and the flags of before but for B (R233, R234). -/
theorem rti_after_brk {s t u : State} (ht : exec .brk s = .next t) (hu : exec .rti t = .next u) :
    u.pc = s.pc + 1 ∧ u.sp = s.sp ∧ u.flags = { s.flags with b := true } := by
  rw [exec_brk] at ht
  cases ht
  rw [exec_rti, returnFromInterrupt_of_push (t := Claims.costing 7 (enterSoftwareInterrupt (advancePC 1 s)))
    (enterSoftwareInterrupt_mem _) (enterSoftwareInterrupt_sp _), unpack_pack, BitVec.sub_add_cancel] at hu
  cases hu
  exact ⟨rfl, rfl, rfl⟩

/-- Settles O40: one lemma per round trip. -/
theorem stackRoundTrips : Obligations.StackRoundTrips := by
  unfold Obligations.StackRoundTrips
  exact fun _ _ _ _ => ⟨pla_after_pha, plp_after_php, rts_after_jsr, rti_after_brk⟩

end Sys2Proof.Machine
end

section
/-! PROOFS. The stack and flag instructions: PHA, CLD, SED, and what `D` does to the other instructions and to the pushed
flag byte (R260, R268, R269, R26, R27). -/

namespace Sys2Proof.Machine

/-! ### The flags replaced before an operation

The Processor reads flags in its flag computations, branches and pushes only: addresses, loads and stores are the same
with the flags replaced. -/

/-- The state with its flags changed by a function. -/
def onFlags (g : Flags → Flags) (s : State) : State := setFlags (g s.flags) s

theorem resolve_onFlags (g : Flags → Flags) (m : Operand) (s : State) : resolve m (onFlags g s) = resolve m s := by
  cases m <;> rfl

theorem crossed_onFlags (g : Flags → Flags) (m : Operand) (s : State) : crossed m (onFlags g s) = crossed m s := by
  cases m <;> rfl

theorem load_onFlags (g : Flags → Flags) (o : Resolved) (s : State) : load o (onFlags g s) = load o s :=
  load_congr rfl rfl o

theorem memWrite_onFlags (g : Flags → Flags) (w : Word) (v : Byte) (s : State) :
    memWrite w v (onFlags g s) = onFlags g (memWrite w v s) := by
  unfold memWrite
  split <;> rfl

theorem store_onFlags (g : Flags → Flags) (o : Resolved) (v : Byte) (s : State) :
    store o v (onFlags g s) = onFlags g (store o v s) := by
  cases o with
  | acc => rfl
  | imm _ => rfl
  | addr ea => exact memWrite_onFlags g ea v s

theorem push_onFlags (g : Flags → Flags) (v : Byte) (s : State) : push v (onFlags g s) = onFlags g (push v s) := by
  rw [push, memWrite_onFlags]
  rfl

theorem pushWord_onFlags (g : Flags → Flags) (w : Word) (s : State) :
    pushWord w (onFlags g s) = onFlags g (pushWord w s) := by
  simp only [pushWord_eq, push_onFlags]

theorem branch_onFlags (g : Flags → Flags) (c : Bool) (k : Byte) (s : State) :
    branch c k (onFlags g s) = ((branch c k s).1, onFlags g (branch c k s).2) := by
  cases c <;> rfl

/-- Seen through `h`, the result of an operation is the same whether or not `g` changed the flags before it. -/
def Ignores (g h : Flags → Flags) (op : State → State) : Prop :=
  ∀ t, onFlags h (op (onFlags g t)) = onFlags h (op t)

/-- An operation whose cost and result do not show the change of the flags makes a meaning that does not. -/
theorem mapNext_perform_onFlags {g h : Flags → Flags} {op : State → Nat × State} (i : Instr) (c : Bool) (s : State)
    (hcost : ∀ t, (op (onFlags g t)).1 = (op t).1) (hop : Ignores g h fun t => (op t).2) :
    Claims.mapNext (onFlags h) (perform i c op (onFlags g s)) = Claims.mapNext (onFlags h) (perform i c op s) := by
  unfold perform
  cases i.entry? with
  | none => rfl
  | some e =>
    have hadv : advancePC e.length (onFlags g s) = onFlags g (advancePC e.length s) := rfl
    have hcharge : ∀ n t, onFlags h (charge n t) = charge n (onFlags h t) := fun _ _ => rfl
    simp only [Claims.mapNext, hadv, hcost, hcharge, hop (advancePC e.length s)]

theorem mapNext_performImplied_onFlags {g h : Flags → Flags} {op : State → State} (i : Instr) (s : State)
    (hop : Ignores g h op) :
    Claims.mapNext (onFlags h) (performImplied i op (onFlags g s)) =
      Claims.mapNext (onFlags h) (performImplied i op s) :=
  mapNext_perform_onFlags i false s (fun _ => rfl) hop

theorem mapNext_performData_onFlags {g h : Flags → Flags} {op : Resolved → State → State} (i : Instr) (m : Operand)
    (s : State) (hop : ∀ o, Ignores g h (op o)) :
    Claims.mapNext (onFlags h) (performData i m op (onFlags g s)) =
      Claims.mapNext (onFlags h) (performData i m op s) := by
  rw [performData, resolve_onFlags, crossed_onFlags]
  exact mapNext_perform_onFlags i (crossed m s) s (fun _ => rfl) (hop (resolve m s))

theorem mapNext_performLoad_onFlags {g h : Flags → Flags} {op : Byte → State → State} (i : Instr) (m : Operand)
    (s : State) (hop : ∀ v, Ignores g h (op v)) :
    Claims.mapNext (onFlags h) (performLoad i m op (onFlags g s)) =
      Claims.mapNext (onFlags h) (performLoad i m op s) := by
  refine mapNext_performData_onFlags i m s fun o t => ?_
  rw [load_onFlags]
  exact hop (load o t) t

/-! ### The operations that read no replaced flag -/

section
variable {g h : Flags → Flags}

theorem onFlags_onFlags (hgh : ∀ f, h (g f) = h f) (s : State) : onFlags h (onFlags g s) = onFlags h s :=
  congrArg (setFlags · s) (hgh s.flags)

theorem ignores_store (hgh : ∀ f, h (g f) = h f) {r : State → Byte} (hr : ∀ t, r (onFlags g t) = r t) (o : Resolved) :
    Ignores g h fun t => store o (r t) t := fun t => by
  simp only [hr, store_onFlags, onFlags_onFlags hgh]

theorem ignores_applyShift (hc : ∀ f, (g f).c = f.c) (hshift : ∀ r f, h (shiftFlags r (g f)) = h (shiftFlags r f))
    (sh : Byte → Bool → Shifted) (o : Resolved) : Ignores g h (applyShift sh o) := fun t => by
  have hcarry : (onFlags g t).flags.c = t.flags.c := hc t.flags
  simp only [applyShift, load_onFlags, store_onFlags, hcarry]
  exact congrArg (setFlags · _) (hshift _ t.flags)

theorem ignores_applyStep (hstep : ∀ v f, h (setNZ v (g f)) = h (setNZ v f)) (f : Byte → Byte) (o : Resolved) :
    Ignores g h (applyStep f o) := fun t => by
  simp only [applyStep, load_onFlags, store_onFlags]
  exact congrArg (setFlags · _) (hstep _ _)

theorem ignores_push (hgh : ∀ f, h (g f) = h f) {r : State → Byte} (hr : ∀ t, r (onFlags g t) = r t) :
    Ignores g h fun t => push (r t) t := fun t => by
  simp only [hr, push_onFlags, onFlags_onFlags hgh]

theorem ignores_jsr (hgh : ∀ f, h (g f) = h f) (w : Word) :
    Ignores g h fun t => setPC w (pushWord (t.pc - 1) t) := fun t => by
  simp only [pushWord_onFlags]
  exact onFlags_onFlags hgh (setPC w (pushWord (t.pc - 1) t))

theorem mapNext_perform_branch_onFlags (hgh : ∀ f, h (g f) = h f) {cond : State → Bool}
    (hcond : ∀ t, cond (onFlags g t) = cond t) (i : Instr) (c : Bool) (k : Byte) (s : State) :
    Claims.mapNext (onFlags h) (perform i c (fun t => branch (cond t) k t) (onFlags g s)) =
      Claims.mapNext (onFlags h) (perform i c (fun t => branch (cond t) k t) s) := by
  apply mapNext_perform_onFlags
  · intro t
    rw [hcond, branch_onFlags]
  · intro t
    simp only [hcond, branch_onFlags]
    exact onFlags_onFlags hgh _

end

/-! ### `D` before the instructions that do not push it -/

/-- The flag `D` replaced. -/
def setD (d : Bool) (f : Flags) : Flags := { f with d := d }

theorem withD_eq_onFlags (d : Bool) : Claims.withD d = onFlags (setD d) := rfl

/-- Every instruction but PHP and BRK gives the same outcome, up to `D`, whatever `D` was before it: no flag computation
and no branch condition reads it. -/
theorem exec_withD {i : Instr} (hphp : i ≠ .php) (hbrk : i ≠ .brk) (s : State) (d : Bool) :
    Claims.mapNext (Claims.withD false) (exec i (Claims.withD d s)) =
      Claims.mapNext (Claims.withD false) (exec i s) := by
  have hset : ∀ f, setD false (setD d f) = setD false f := fun _ => rfl
  have hcarry : ∀ f, (setD d f).c = f.c := fun _ => rfl
  have hshift : ∀ r f, setD false (shiftFlags r (setD d f)) = setD false (shiftFlags r f) := fun _ _ => rfl
  have hstep : ∀ v f, setD false (setNZ v (setD d f)) = setD false (setNZ v f) := fun _ _ => rfl
  rw [withD_eq_onFlags, withD_eq_onFlags]
  cases i
  case php => exact absurd rfl hphp
  case brk => exact absurd rfl hbrk
  case ill op => rfl
  all_goals simp only [exec]
  case lda m | ldx m | ldy m | adc m | sbc m | and m | ora m | eor m | cmp m | cpx m | cpy m | bit m =>
    exact mapNext_performLoad_onFlags _ m s fun _ _ => by rfl
  case sta m | stx m | sty m =>
    exact mapNext_performData_onFlags _ m s (ignores_store hset fun _ => rfl)
  case asl m | lsr m | rol m | ror m =>
    exact mapNext_performData_onFlags _ m s (ignores_applyShift hcarry hshift _)
  case inc m | dec m =>
    exact mapNext_performData_onFlags _ m s (ignores_applyStep hstep _)
  case bcc k | bcs k | beq k | bne k | bmi k | bpl k | bvc k | bvs k =>
    exact mapNext_perform_branch_onFlags hset (fun _ => rfl) _ false k s
  case pha => exact mapNext_performImplied_onFlags _ s (ignores_push hset fun _ => rfl)
  case jsr w => exact mapNext_performImplied_onFlags _ s (ignores_jsr hset w)
  case tax | tay | txa | tya | tsx | txs | inx | iny | dex | dey | jmp | rts | rti | pla | plp | clc | sec | cli | sei |
      cld | sed | clv | nop =>
    exact mapNext_performImplied_onFlags _ s fun _ => by rfl

/-! ### `D` in the pushed flag byte -/

/-- The bits of the flag byte, from bit 0 up (R26). -/
theorem getLsbD_pack (f : Flags) (k : Nat) :
    (pack f).getLsbD k = [f.c, f.z, f.i, f.d, f.b, true, f.v, f.n].getD k false := by
  by_cases hk : k < 8
  · obtain ⟨c, z, i, d, b, v, n⟩ := f
    revert c z i d b v n k
    decide
  · rw [BitVec.getLsbD_of_ge _ _ (by omega), List.getD_eq_default _ _ (by simpa using hk)]

/-- `D` is bit 3 of the flag byte. -/
theorem getLsbD_pack_three (f : Flags) : (pack f).getLsbD 3 = f.d := getLsbD_pack f 3

/-- No other bit of the flag byte depends on `D`. -/
theorem getLsbD_pack_setD (d : Bool) (f : Flags) {k : Nat} (hk : k ≠ 3) :
    (pack (setD d f)).getLsbD k = (pack f).getLsbD k := by
  rw [getLsbD_pack, getLsbD_pack]
  match k with
  | 0 | 1 | 2 => rfl
  | 3 => exact absurd rfl hk
  | _ + 4 => rfl

/-- How two states differ whose pushed flag byte, at the cell `a`, has the bit `D` once as `d` and once as `e`: in `D`
and in that cell at most, and there in bit 3 at most. -/
def DifferInPushedD (a : Addr) (d e : Bool) (t u : State) : Prop :=
  (readCell a t).getLsbD 3 = d ∧ (readCell a u).getLsbD 3 = e ∧
    (∀ k, k ≠ 3 → (readCell a t).getLsbD k = (readCell a u).getLsbD k) ∧
    Claims.SameMemoryOutside [a] t u ∧ Claims.withD false { t with mem := u.mem } = Claims.withD false u

/-- States that are alike up to `D` and memory, with the memory of after a push of the flag byte. -/
theorem differInPushedD_of_push {d : Bool} {f : Flags} {r t u : State} (ht : t.mem = (push (pack (setD d f)) r).mem)
    (hu : u.mem = (push (pack f) r).mem)
    (hrest : Claims.withD false { t with mem := u.mem } = Claims.withD false u) :
    DifferInPushedD (maskAddr (stackAddr r.sp)) d f.d t u := by
  have hcell : readCell (maskAddr (stackAddr r.sp)) t = pack (setD d f) := by
    rw [readCell_congr ht, readCell_push, if_pos rfl]
  have hcell' : readCell (maskAddr (stackAddr r.sp)) u = pack f := by
    rw [readCell_congr hu, readCell_push, if_pos rfl]
  rw [DifferInPushedD, hcell, hcell']
  refine ⟨getLsbD_pack_three _, getLsbD_pack_three f, fun k hk => getLsbD_pack_setD d f hk, fun a ha => ?_, hrest⟩
  have hne : a ≠ maskAddr (stackAddr r.sp) := fun h => ha (List.mem_singleton.2 h)
  rw [readCell_congr ht, readCell_congr hu, readCell_push, readCell_push, if_neg hne, if_neg hne]

/-- PHP pushes the flag byte at `SP`'s cell. -/
theorem exec_php_withD (s : State) (d : Bool) :
    ∃ t u, exec .php (Claims.withD d s) = .next t ∧ exec .php s = .next u ∧
      DifferInPushedD (maskAddr (stackAddr s.sp)) d s.flags.d t u := by
  refine ⟨_, _, exec_php _, exec_php s, ?_⟩
  have hmem := congrArg State.mem (push_onFlags (setD d) (pack (setD d s.flags)) s)
  refine differInPushedD_of_push hmem rfl ?_
  simp only [push_eq]
  rfl

/-- BRK pushes it at the second cell below, under the return address. -/
theorem exec_brk_withD (s : State) (d : Bool) :
    ∃ t u, exec .brk (Claims.withD d s) = .next t ∧ exec .brk s = .next u ∧
      DifferInPushedD (maskAddr (stackAddr (s.sp - 2))) d s.flags.d t u := by
  refine ⟨_, _, exec_brk _, exec_brk s, ?_⟩
  have hmem := enterSoftwareInterrupt_mem (onFlags (setD d) (advancePC 1 s))
  rw [pushWord_onFlags, push_onFlags] at hmem
  have hsp : (pushWord ((advancePC 1 s).pc - 1) (advancePC 1 s)).sp = s.sp - 2 := pushWord_sp _ _
  rw [← hsp]
  refine differInPushedD_of_push (f := { s.flags with b := true }) hmem (enterSoftwareInterrupt_mem (advancePC 1 s)) ?_
  simp only [enterSoftwareInterrupt_eq, push_eq]
  rfl

/-! ### CLD and SED, and the whole of R268 and R269 -/

theorem exec_cld (s : State) :
    exec .cld s = .next (Claims.costing 2 (advancePC 1 (setFlags { s.flags with d := false } s))) :=
  performImplied_of_entry (i := .cld) rfl (fun t => setFlags { t.flags with d := false } t) s

theorem exec_sed (s : State) :
    exec .sed s = .next (Claims.costing 2 (advancePC 1 (setFlags { s.flags with d := true } s))) :=
  performImplied_of_entry (i := .sed) rfl (fun t => setFlags { t.flags with d := true } t) s

/-- Settles O19: the bytes by the encoder's definition, CLD and SED by `exec_cld` and `exec_sed`, the instructions that do
not push `D` by `exec_withD`, PHP and BRK by `exec_php_withD` and `exec_brk_withD`. -/
theorem decimalFlagNeverAltersArithmetic : Obligations.DecimalFlagNeverAltersArithmetic := by
  unfold Obligations.DecimalFlagNeverAltersArithmetic
  refine ⟨rfl, rfl, fun s => ⟨exec_cld s, exec_sed s⟩, fun i s d hphp hbrk => exec_withD hphp hbrk s d,
    fun i n s d hin => ?_⟩
  simp only [List.mem_cons, Prod.mk.injEq, List.not_mem_nil, or_false] at hin
  obtain ⟨rfl, rfl⟩ | ⟨rfl, rfl⟩ := hin
  · have hsp : s.sp - 0 = s.sp := BitVec.sub_zero s.sp
    rw [hsp]
    exact exec_php_withD s d
  · exact exec_brk_withD s d

/-! ### PHA -/

/-- Settles O38: PHA is one push, by `exec_pha`, and a push is a write and a step of `SP`. -/
theorem phaPushesAccumulator : Obligations.PhaPushesAccumulator := by
  unfold Obligations.PhaPushesAccumulator
  refine ⟨rfl, fun s => ?_⟩
  rw [exec_pha, advancePC, push_pc]
  rfl

end Sys2Proof.Machine
end

section
/-! PROOFS. The VideoChip's register-write handlers: COLUBK and the background timeline as far as the delivered pixel,
HMCLR and the HMOVE after it (R300, R310, R335, R336, R358, R359, R361). -/

namespace Sys2Proof.Machine

/-! ### Dispatch to a register's handler -/

@[simp] theorem vregAt_vregAddr (r : VReg) : vregAt (vregAddr r) = some r := by cases r <;> rfl

/-- R300: a write to a register's address runs that register's handler on the byte in its cell. -/
theorem videoWrite_vregAddr (r : VReg) (s : State) : videoWrite (vregAddr r) s = handleReg r (readReg r s) s := by
  simp only [videoWrite, vregAt_vregAddr, readReg]

/-! ### The background timeline -/

/-- Of the entries at or before a pixel the last one recorded wins, so a new entry decides every pixel from its own
offset on. Offsets are beam cycles: an entry in the blanking starts at pixel 0. -/
theorem backgroundAt_append (bg : Timeline) (e : Span) (x : Nat) :
    backgroundAt { bg with later := bg.later ++ [e] } x = if e.off ≤ x + 68 then e.col else backgroundAt bg x := by
  simp only [backgroundAt, List.foldl_append, List.foldl_cons, List.foldl_nil, Config.hblank, Nat.sub_le_iff_le_add]

theorem copiesMask_handleColubk (o : Obj) (v : Byte) (s : State) (k : Nat) (offs : List Nat) :
    copiesMask o (handleColubk v s) k offs = copiesMask o s k offs := by
  induction offs generalizing k with
  | nil => rfl
  | cons off offs ih =>
    simp only [copiesMask, ih]
    rfl

/-- The masks are made without the background timeline (R351 to R356). -/
theorem masks_handleColubk (v : Byte) (s : State) : masks (handleColubk v s) = masks s := by
  have hobject (o : Obj) : objectMask o (handleColubk v s) = objectMask o s :=
    copiesMask_handleColubk o v s 0 (offsetsOf o s)
  funext l
  cases l with
  | pf => rfl
  | p0 => exact hobject .p0
  | p1 => exact hobject .p1
  | m0 => exact hobject .m0
  | m1 => exact hobject .m1
  | bl => exact hobject .bl

/-! ### The commit, from the background to the next line -/

/-- R358: what no layer covers shows the background. -/
theorem colourAt_of_uncovered {ms : Layer → Mask} {x : Nat} (h : ∀ l, ms l x = false) (s : State) :
    colourAt ms s x = backgroundAt s.video.bg x := by
  simp [colourAt, h]

/-- R359: the commit of a visible line paints that line's row of the frame buffer. -/
theorem lineUpdate_pixel {s : State} {row x : Nat} (hr : row < 192) (hx : x < 160) (hline : s.video.line = 40 + row) :
    (lineUpdate s).video.frame[row][x] = col (colourAt (masks s) (latchCollisions (masks s) s) x) := by
  have hvis : visible s.video = true := by
    simp only [visible, hline, Config.visFirst, Config.visLast, Bool.and_eq_true, decide_eq_true_eq]
    omega
  have hrow : s.video.line - Config.visFirst = row := by rw [hline, Nat.add_sub_cancel_left]
  simp only [lineUpdate_frame, if_pos hvis, hrow, Vector.getElem_setIfInBounds_self, paint, Vector.getElem_ofFn]

/-- R358 and R359 together: an uncovered pixel of a visible line is delivered in the background's colour. -/
theorem lineUpdate_pixel_of_uncovered {s : State} {row x : Nat} (hr : row < 192) (hx : x < 160)
    (hline : s.video.line = 40 + row) (h : ∀ l, masks s l x = false) :
    (lineUpdate s).video.frame[row][x] = col (backgroundAt s.video.bg x) := by
  obtain ⟨m, hm⟩ := latchCollisions_shape (masks s) s
  rw [lineUpdate_pixel hr hx hline, colourAt_of_uncovered h, hm]

/-- R361: the next line's timeline holds COLUBK's persistent value alone. -/
theorem lineUpdate_bg (s : State) : (lineUpdate s).video.bg = { first := readReg .colubk s, later := [] } :=
  congrArg (fun c => ({ first := c, later := [] } : Timeline)) (readCell_lineUpdate s (k := vregAddr .colubk) rfl)

/-- Settles O47: the write by `videoWrite_vregAddr`, the background by `backgroundAt_append`, the delivered pixel by
`lineUpdate_pixel_of_uncovered`, the next line by `lineUpdate_bg`. -/
theorem backgroundWritesExtendTimeline : Obligations.BackgroundWritesExtendTimeline := by
  unfold Obligations.BackgroundWritesExtendTimeline
  intro s
  have hwrite : videoWrite 0x09 s = handleColubk (readCell 0x09 s) s := videoWrite_vregAddr .colubk s
  have hbg (x : Nat) : backgroundAt (handleColubk (readCell 0x09 s) s).video.bg x =
      if s.cyc ≤ x + 68 then readCell 0x09 s else backgroundAt s.video.bg x :=
    backgroundAt_append s.video.bg ⟨s.cyc, readCell 0x09 s⟩ x
  simp only [hwrite]
  refine ⟨rfl, fun x _ => hbg x, fun row hr x hx hline hpassed hclear => ?_, lineUpdate_bg _⟩
  have huncovered (l : Layer) : masks (handleColubk (readCell 0x09 s) s) l x = false := by
    rw [masks_handleColubk]
    exact hclear l (by cases l <;> decide)
  rw [lineUpdate_pixel_of_uncovered (s := handleColubk (readCell 0x09 s) s) hr hx hline huncovered, hbg,
    if_pos hpassed, col]

/-! ### Positions -/

/-- A position is already reduced modulo the line width. -/
@[simp] theorem wrapPos_val (p : Fin Config.width) : wrapPos (p.val : Int) = p := by
  have hp : p.val < 160 := p.isLt
  apply Fin.ext
  show ((p.val : Int) % 160).toNat = p.val
  omega

@[simp] theorem Positions.set_get (p : Positions) (o : Obj) : p.set o (p.get o) = p := by cases o <;> rfl

/-- R335 on a zeroed motion register: the object keeps its position. -/
theorem moveObj_of_zero (o : Obj) {r : VReg} {s : State} (h : readReg r s = 0) : moveObj o r s = s := by
  have hstep : Config.hmoveSign * snibHi (readReg r s) = 0 := by rw [h]; decide
  rw [moveObj, hstep, Int.add_zero, setPos, wrapPos_val, onVideo, Positions.set_get]

/-! ### The motion registers -/

/-- R44: the five motion registers are the cells 0x20 to 0x24. -/
theorem mem_motionCells (a : Addr) :
    a ∈ [VReg.hmp0, .hmp1, .hmm0, .hmm1, .hmbl].map vregAddr ↔ 0x20 ≤ a.toNat ∧ a.toNat ≤ 0x24 := by
  simp only [List.map_cons, List.map_nil, List.mem_cons, List.not_mem_nil, or_false, vregAddr]
  bv_omega

theorem readCell_handleHmclr (a : Addr) (s : State) :
    readCell a (handleHmclr s) = if 0x20 ≤ a.toNat ∧ a.toNat ≤ 0x24 then 0 else readCell a s := by
  simp only [handleHmclr, readCell_zeroCells, mem_motionCells]

/-- HMOVE on zeroed motion registers moves nothing. -/
theorem handleHmove_of_zero {s : State} (h : ∀ a : Addr, 0x20 ≤ a.toNat ∧ a.toNat ≤ 0x24 → readCell a s = 0) :
    handleHmove s = s := by
  rw [handleHmove, moveObj_of_zero .p0 (h _ (by decide)), moveObj_of_zero .p1 (h _ (by decide)),
    moveObj_of_zero .m0 (h _ (by decide)), moveObj_of_zero .m1 (h _ (by decide)), moveObj_of_zero .bl (h _ (by decide))]

/-- Settles O50: the cells by `readCell_handleHmclr`, the rest by `zeroCells_shape`, the HMOVE after it by
`handleHmove_of_zero`. -/
theorem hmclrZeroesMotionRegisters : Obligations.HmclrZeroesMotionRegisters := by
  unfold Obligations.HmclrZeroesMotionRegisters
  intro s
  have hclear : videoWrite 0x2B s = handleHmclr s := videoWrite_vregAddr .hmclr s
  have hmove : videoWrite 0x2A (handleHmclr s) = handleHmove (handleHmclr s) := videoWrite_vregAddr .hmove _
  rw [hclear, hmove]
  refine ⟨fun a => readCell_handleHmclr a s, ?_, ?_⟩
  · obtain ⟨m, hm⟩ : ∃ m, handleHmclr s = { s with mem := m } := zeroCells_shape _ s
    rw [hm]
  · exact handleHmove_of_zero fun a ha => (readCell_handleHmclr a s).trans (if_pos ha)

end Sys2Proof.Machine
end

section
/-! PROOFS. The commit's counters (47_video_line_commit.md, R360). -/

namespace Sys2Proof.Machine

/-- Settles O53: the counters after the commit are `lineUpdate_counters`; an overshoot below 21 is less than a line, so
the remainder is the overshoot itself. -/
theorem commitAdvancesLineAndReducesCycles : Obligations.CommitAdvancesLineAndReducesCycles := by
  unfold Obligations.CommitAdvancesLineAndReducesCycles
  intro s
  obtain ⟨hcyc, hline, -⟩ := lineUpdate_counters s
  have hmod : (lineUpdate s).cyc = s.cyc % 228 := hcyc
  refine ⟨hline, hmod, fun hend hover => ?_⟩
  have hcarry : s.cyc % 228 = s.cyc - 228 := by
    rw [Nat.mod_eq_sub_mod hend, Nat.mod_eq_of_lt (by omega)]
  omega

end Sys2Proof.Machine
end

section
/-! PROOFS. The decoder and the encoder are inverse to each other (R100 to R104, R110). -/

namespace Sys2Proof

open Machine

/-! ### Operand bytes and operand assembly -/

/-- Operand assembly takes back a data operand from its bytes, whatever follows them (R102). -/
theorem operandOf_bytes (m : Operand) (rest : List Byte) :
    operandOf m.mode ((m.bytes ++ rest).getD 0 0) ((m.bytes ++ rest).getD 1 0) = some m := by
  cases m <;> simp [operandOf, Operand.mode, Operand.bytes]

/-- The same for JMP's operand (R102, R230). -/
theorem jumpOperandOf_bytes (t : JumpOperand) (rest : List Byte) :
    jumpOperandOf t.mode ((t.bytes ++ rest).getD 0 0) ((t.bytes ++ rest).getD 1 0) = some t := by
  cases t <;> simp [jumpOperandOf, JumpOperand.mode, JumpOperand.bytes]

/-- Assembly for an instruction's mnemonic and mode takes the instruction back from its operand bytes. -/
theorem assemble_operandBytes {i : Instr} (hi : ∀ op, i ≠ .ill op) (rest : List Byte) :
    assemble i.mnemonic i.mode ((i.operandBytes ++ rest).getD 0 0) ((i.operandBytes ++ rest).getD 1 0) = some i := by
  cases i
  case ill op => exact absurd rfl (hi op)
  case lda m | ldx m | ldy m | sta m | stx m | sty m | adc m | sbc m | and m | ora m | eor m | cmp m | cpx m | cpy m |
      bit m | asl m | lsr m | rol m | ror m | inc m | dec m =>
    exact congrArg (Option.map _) (operandOf_bytes m rest)
  case jmp t => exact congrArg (Option.map _) (jumpOperandOf_bytes t rest)
  case jsr w => exact congrArg (some ∘ Instr.jsr) (joinLE_lo8_hi8 w)
  all_goals rfl

/-- The first `n` of a string's first two bytes, and the string from byte `n` on, are the string. -/
theorem take_getD_append_drop {l : List Byte} {n : Nat} (hn : n ≤ 2) (hl : n ≤ l.length) :
    [l.getD 0 0, l.getD 1 0].take n ++ l.drop n = l := by
  match n, l with
  | 0, _ => rfl
  | 1, _ :: _ => rfl
  | 2, _ :: _ :: _ => rfl

/-! ### Encoded instructions -/

theorem encode_ill (op : Byte) : encode (.ill op) = [op] := rfl

/-- The bytes of an instruction with an entry. -/
theorem encode_of_entry? {i : Instr} {e : Entry} (h : i.entry? = some e) : encode i = e.opcode :: i.operandBytes := by
  rw [encode, Instr.opcode?_of_entry? h]

/-- The decoder reads an unassigned byte as the illegal-opcode entry, alone. -/
theorem decode_unassigned {op : Byte} (h : op ∈ unassigned) (rest : List Byte) :
    decode (op :: rest) = .ok (.ill op, rest) := by
  have hcell := (cellAt_eq_none_iff op).2 h
  simp [decode, lengthAt, decode3, hcell]

/-- The decoder reads an assigned opcode byte with as many operand bytes as its entry's length says. -/
theorem decode_of_entry? {i : Instr} {e : Entry} (h : i.entry? = some e) (hi : ∀ op, i ≠ .ill op) (rest : List Byte) :
    decode (e.opcode :: (i.operandBytes ++ rest)) = .ok (i, rest) := by
  have hlength : lengthAt e.opcode = i.operandBytes.length + 1 := by
    rw [lengthAt_of_entry? h, (entry?_sound h).2.1, i.operandBytes_length]
  have hdecode : decode3 e.opcode ((i.operandBytes ++ rest).getD 0 0) ((i.operandBytes ++ rest).getD 1 0) = i := by
    simp only [decode3, cellAt_of_entry? h, assemble_operandBytes hi, Option.getD_some]
  have hlong : ¬(i.operandBytes ++ rest).length + 1 < i.operandBytes.length + 1 := by
    rw [List.length_append]
    omega
  rw [decode, hlength, if_neg hlong, hdecode, Nat.add_sub_cancel, List.drop_left]

/-- Settles O1: an unassigned byte by `decode_unassigned`, every other instruction by its table entry and
`decode_of_entry?`. -/
theorem decodeInvertsEncode : Obligations.DecodeInvertsEncode := by
  unfold Obligations.DecodeInvertsEncode
  intro i rest hwf
  by_cases hill : ∃ op, i = .ill op
  · obtain ⟨op, rfl⟩ := hill
    exact decode_unassigned (by simpa [Instr.wf] using hwf) rest
  · have hi : ∀ op, i ≠ .ill op := fun op h => hill ⟨op, h⟩
    obtain ⟨e, he⟩ := Instr.entry?_of_wf hwf hi
    rw [encode_of_entry? he]
    exact decode_of_entry? he hi rest

/-! ### Decoded instructions -/

/-- What `decode3` reads encodes to the opcode byte and as many of the two bytes after it as the length asks for. -/
theorem encode_decode3 (op b1 b2 : Byte) :
    lengthAt op ≤ 3 ∧ encode (decode3 op b1 b2) = op :: [b1, b2].take (lengthAt op - 1) := by
  cases hcell : cellAt op with
  | none => simp [lengthAt, decode3, hcell, encode_ill]
  | some cell =>
    obtain ⟨mn, mode⟩ := cell
    obtain ⟨e, he, rfl⟩ := entry?_of_cellAt hcell
    obtain ⟨i, hi, hmn, hmode, hbytes⟩ := assemble_of_mode (by rw [← entry?_isSome_iff, he]; rfl) b1 b2
    have hentry : i.entry? = some e := by rw [Instr.entry?, hmn, hmode, he]
    have hdecode : decode3 e.opcode b1 b2 = i := by simp only [decode3, hcell, hi, Option.getD_some]
    have hlength : lengthAt e.opcode = mode.length := (lengthAt_of_entry? he).trans (entry?_sound he).2.1
    rw [hdecode, encode_of_entry? hentry, hbytes, hlength]
    exact ⟨mode.length_pos.2, rfl⟩

/-- Settles O2: what decodes is what `decode3` reads, so it is well formed by `decode3_wf` and encodes by
`encode_decode3`. -/
theorem encodeInvertsDecode : Obligations.EncodeInvertsDecode := by
  unfold Obligations.EncodeInvertsDecode
  intro bytes i rest h
  cases bytes with
  | nil => cases h
  | cons op tail =>
    obtain ⟨hmax, hencode⟩ := encode_decode3 op (tail.getD 0 0) (tail.getD 1 0)
    rw [decode] at h
    split at h
    · cases h
    · cases h
      refine ⟨decode3_wf _ _ _, ?_⟩
      rw [hencode, List.cons_append, take_getD_append_drop (by omega) (by omega)]

/-! ### The unassigned bytes -/

/-- A byte is unassigned exactly when it decodes to the illegal-opcode entry, whatever follows it (R104). -/
theorem mem_unassigned_iff_decode3 (op b1 b2 : Byte) : op ∈ unassigned ↔ decode3 op b1 b2 = .ill op := by
  refine ⟨fun h => ?_, fun h => (decode3_eq_ill h).2⟩
  simp only [decode3, (cellAt_eq_none_iff op).2 h]

/-- Settles O4: the list is counted, and a byte of it is one without a cell in the matrix. -/
theorem unassignedOpcodesAreIllegal : Obligations.UnassignedOpcodesAreIllegal := by
  unfold Obligations.UnassignedOpcodesAreIllegal
  exact ⟨rfl, fun op b1 b2 => ⟨mem_unassigned_iff_decode3 op b1 b2, (cellAt_eq_none_iff op).symm⟩⟩

/-- Settles O3: eight closed words, each decoded by evaluation. -/
theorem writtenOutWordsDecode : Obligations.WrittenOutWordsDecode := by
  unfold Obligations.WrittenOutWordsDecode
  refine ⟨?_, ?_, ?_, ?_, ?_, ?_, ?_, ?_⟩ <;> rfl

end Sys2Proof
end

section
/-! PROOFS. The Arbiter's sequence: what each part leaves, the Processor untouched, and the invariant over a whole
iteration (R390, R391, R33, R42). -/

namespace Sys2Proof.Machine

/-! ### A video write and its dispatch -/

/-- No handler touches a signal, the timer or the host's port. -/
theorem videoWrite_keeps (a : Addr) (s : State) :
    (videoWrite a s).vidPending = s.vidPending ∧ (videoWrite a s).timPending = s.timPending ∧
      (videoWrite a s).timer = s.timer ∧ (videoWrite a s).hostPort = s.hostPort := by
  rcases videoWrite_cases a s with ⟨v, h, -⟩ | h | h | ⟨cells, -, h⟩
  · rw [h]; exact ⟨rfl, rfl, rfl, rfl⟩
  · rw [h]; exact ⟨rfl, rfl, rfl, rfl⟩
  · rw [h]; exact ⟨rfl, rfl, rfl, rfl⟩
  · obtain ⟨m, hm⟩ := zeroCells_shape cells s
    rw [h, hm]
    exact ⟨rfl, rfl, rfl, rfl⟩

@[simp] theorem dispatchVideo_vidPending (s : State) : (dispatchVideo s).vidPending = none := by
  unfold dispatchVideo
  split
  · exact (videoWrite_keeps _ _).1
  · assumption

/-! ### The timeline under a video write -/

theorem Timeline.ordered_mono {bg : Timeline} {c d : Nat} (hcd : c ≤ d) (h : bg.ordered c) : bg.ordered d :=
  ⟨h.1, fun e he => (h.2 e he).trans hcd⟩

/-- An entry at the beam keeps the timeline in order (R310). -/
theorem Timeline.ordered_append {bg : Timeline} {c : Nat} (h : bg.ordered c) (v : Byte) :
    Timeline.ordered { bg with later := bg.later ++ [⟨c, v⟩] } c := by
  obtain ⟨hpair, hle⟩ := h
  constructor
  · simpa [List.pairwise_append, hpair] using hle
  · simpa [or_imp, forall_and] using hle

/-- A video write keeps a timeline in order that the beam was past before the instruction: WSYNC sets the counter to
228, and no entry of a line lies beyond. -/
theorem videoWrite_ordered {c : Nat} {s : State} (h : s.video.bg.ordered c) (hcyc : c ≤ s.cyc)
    (hline : c ≤ Config.lineCycles) (a : Addr) : (videoWrite a s).video.bg.ordered (videoWrite a s).cyc := by
  rcases videoWrite_cases a s with ⟨v, ht, hv⟩ | ht | ht | ⟨cells, -, ht⟩
  · rw [ht]
    exact hv ▸ Timeline.ordered_mono hcyc h
  · rw [ht]
    exact Timeline.ordered_mono hline h
  · rw [ht]
    exact Timeline.ordered_append (Timeline.ordered_mono hcyc h) (readCell a s)
  · obtain ⟨m, hm⟩ := zeroCells_shape cells s
    rw [ht, hm]
    exact Timeline.ordered_mono hcyc h

theorem dispatchVideo_ordered {c : Nat} {s : State} (h : s.video.bg.ordered c) (hcyc : c ≤ s.cyc)
    (hline : c ≤ Config.lineCycles) : (dispatchVideo s).video.bg.ordered (dispatchVideo s).cyc := by
  unfold dispatchVideo
  split
  · exact videoWrite_ordered (s := { s with vidPending := none }) h hcyc hline _
  · exact Timeline.ordered_mono hcyc h

/-! ### From the video write to the line check -/

/-- The Arbiter's sequence up to the line check. -/
def beforeLineCheck (n : Nat) (s : State) : State := serveFrame (dispatchTimer (timerTick n (dispatchVideo s)))

theorem arbitrate_eq (n : Nat) (s : State) : arbitrate n s = checkLine (beforeLineCheck n s) := rfl

/-- A dispatched timer write touches the signal, memory and the timer. -/
theorem dispatchTimer_shape (s : State) : ∃ m tm,
    dispatchTimer s = { s with timPending := none, mem := m, timer := tm } ∧ (tm = s.timer ∨ tm.acc = 0) := by
  unfold dispatchTimer
  split
  · exact timerWrite_shape _ _
  · rename_i h
    exact ⟨s.mem, s.timer, by rw [← h], .inl rfl⟩

/-- Between the video write and the line check only memory, the timer, the host's port, the timer signal and the frame
event change; the timer's remainder is below its interval. -/
theorem beforeLineCheck_shape (n : Nat) (s : State) : ∃ m tm h,
    beforeLineCheck n s = { dispatchVideo s with
      timPending := none, mem := m, timer := tm, hostPort := h
      video := { (dispatchVideo s).video with frameComplete := false } } ∧ tm.acc < tm.pre.cycles := by
  obtain ⟨m, tm, htimer, hacc⟩ := dispatchTimer_shape (timerTick n (dispatchVideo s))
  obtain ⟨m', h, hserve⟩ := serveFrame_shape (dispatchTimer (timerTick n (dispatchVideo s)))
  refine ⟨m', tm, h, ?_, ?_⟩
  · rw [beforeLineCheck, hserve, htimer]
    rfl
  · rcases hacc with rfl | hacc
    · exact Nat.mod_lt _ (Prescaler.cycles_pos _)
    · rw [hacc]
      exact Prescaler.cycles_pos _

/-! ### The line check -/

/-- The line check keeps signals, timer and frame event. -/
theorem checkLine_keeps (s : State) :
    (checkLine s).vidPending = s.vidPending ∧ (checkLine s).timPending = s.timPending ∧
      (checkLine s).timer = s.timer ∧ (checkLine s).video.frameComplete = s.video.frameComplete := by
  unfold checkLine
  split
  · obtain ⟨-, -, -, hvid, htim, htimer, -, hframe, -⟩ := lineUpdate_counters s
    exact ⟨hvid, htim, htimer, hframe⟩
  · exact ⟨rfl, rfl, rfl, rfl⟩

/-- After the line check the beam is before the end of the line, with the timeline in order: as it was, or a new
line's, which has no later entry. -/
theorem checkLine_beam {s : State} (h : s.video.bg.ordered s.cyc) :
    (checkLine s).cyc < Config.lineCycles ∧ (checkLine s).video.bg.ordered (checkLine s).cyc := by
  unfold checkLine
  split
  · obtain ⟨hcyc, -, hbg, -⟩ := lineUpdate_counters s
    rw [hcyc, Timeline.ordered, hbg]
    exact ⟨Nat.mod_lt _ (by decide), by simp⟩
  · exact ⟨by omega, h⟩

/-! ### The Processor is not touched (R391 e) -/

theorem ChipsOnly.sameProcessor {s t : State} (h : ChipsOnly s t) : Claims.SameProcessor s t :=
  ⟨h.a, h.x, h.y, h.sp, h.pc, h.flags, h.halted, h.stepCost⟩

/-- After the Arbiter's sequence no signal is pending and no frame is unserved. -/
theorem arbitrate_settled (n : Nat) (s : State) : (arbitrate n s).vidPending = none ∧
    (arbitrate n s).timPending = none ∧ (arbitrate n s).video.frameComplete = false := by
  obtain ⟨hvid, htim, -, hframe⟩ := checkLine_keeps (beforeLineCheck n s)
  obtain ⟨m, tm, h, hshape, -⟩ := beforeLineCheck_shape n s
  rw [arbitrate_eq, hvid, htim, hframe, hshape]
  exact ⟨dispatchVideo_vidPending s, rfl, rfl⟩

/-- Settles O58: `chipsOnly_arbitrate` for the Processor, `arbitrate_settled` for signals and frame event. -/
theorem arbiterNeverChangesProcessor : Obligations.ArbiterNeverChangesProcessor := by
  unfold Obligations.ArbiterNeverChangesProcessor
  exact fun n s => ⟨(chipsOnly_arbitrate n s).sameProcessor, arbitrate_settled n s⟩

/-! ### The invariant -/

/-- The Arbiter's sequence establishes the invariant after an instruction that found the beam at `c` in the line, with
the timeline in order up to there. -/
theorem arbitrate_inv {c : Nat} {s : State} (hwf : s.mem.wf = true) (hbg : s.video.bg.ordered c) (hcyc : c ≤ s.cyc)
    (hline : c < Config.lineCycles) (n : Nat) : (arbitrate n s).Inv := by
  obtain ⟨hvid, htim, hframe⟩ := arbitrate_settled n s
  obtain ⟨m, tm, h, hshape, hacc⟩ := beforeLineCheck_shape n s
  have hordered : (beforeLineCheck n s).video.bg.ordered (beforeLineCheck n s).cyc := by
    rw [hshape]
    exact dispatchVideo_ordered hbg hcyc hline.le
  obtain ⟨hlt, hbg'⟩ := checkLine_beam hordered
  have htimer : (arbitrate n s).timer = tm := by
    rw [arbitrate_eq, (checkLine_keeps _).2.2.1, hshape]
  exact ⟨(chipsOnly_arbitrate n s).wf hwf, hlt, htimer ▸ hacc, hvid, htim, hframe, hbg'⟩

/-- The fatal halt keeps the invariant: nothing of it is touched. -/
theorem State.Inv.raiseFatal {s : State} (h : s.Inv) (op : Byte) : (raiseFatal op s).Inv :=
  ⟨h.mem_wf, h.cyc_lt, h.acc_lt, h.no_video, h.no_timer, h.served, h.bg_ordered⟩

theorem afterStep_of_not_halted {s : State} (h : s.halted = none) : afterStep s = arbitrate s.stepCost s := by
  simp only [afterStep, h]

/-- What a step did: a fatal halt with nothing after it, or an instruction that kept the chips, with the Arbiter's
sequence after it. -/
theorem step_next_cases {s t : State} (h : step s = .next t) :
    (∃ op, fetchInstr s = .ill op ∧ t = raiseFatal op s) ∨
      ∃ u, exec (fetchInstr s) s = .next u ∧ Keeps s u ∧ u.halted = none ∧ t = arbitrate u.stepCost u := by
  obtain ⟨hrun, u, hu, rfl⟩ := step_next h
  by_cases hill : ∃ op, fetchInstr s = .ill op
  · obtain ⟨op, hop⟩ := hill
    rw [hop, exec_ill] at hu
    cases hu
    exact .inl ⟨op, hop, rfl⟩
  · have hkeeps := exec_keeps (fun op hop => hill ⟨op, hop⟩) hu
    have hu' : u.halted = none := hkeeps.halted.trans hrun
    exact .inr ⟨u, hu, hkeeps, hu', afterStep_of_not_halted hu'⟩

/-- Settles O8: a fatal halt touches nothing of the invariant; after any other instruction the Arbiter's sequence
establishes it, by `arbitrate_inv` with the beam of before the step. -/
theorem stepKeepsInvariant : Obligations.StepKeepsInvariant := by
  unfold Obligations.StepKeepsInvariant
  intro s t hinv hstep
  rcases step_next_cases hstep with ⟨op, -, rfl⟩ | ⟨u, -, hkeeps, -, rfl⟩
  · exact hinv.raiseFatal op
  · have hbg : u.video.bg.ordered s.cyc := hkeeps.video ▸ hinv.bg_ordered
    have hcyc : s.cyc ≤ u.cyc := by rw [hkeeps.cyc]; exact Nat.le_add_right _ _
    exact arbitrate_inv (hkeeps.wf hinv.mem_wf) hbg hcyc hinv.cyc_lt u.stepCost

/-- Settles O9: reset lists no memory, stands at cycle 0 with remainder 0, and has an empty timeline. -/
theorem resetHasInvariant : Obligations.ResetHasInvariant := by
  unfold Obligations.ResetHasInvariant
  exact ⟨rfl, by decide, by decide, rfl, rfl, rfl, by simp [Timeline.ordered, State.reset]⟩

end Sys2Proof.Machine
end

section
/-! PROOFS. The step and the run: the fetched instruction and the sequence after it, the cost of an instruction, the
halt on an unassigned byte, and the end of a run (R134, R135, R390, R393, R421). -/

namespace Sys2Proof.Machine

/-! ### The step of a machine that is not halted -/

theorem step_of_exec {s t : State} (hrun : s.halted = none) (h : exec (fetchInstr s) s = .next t) :
    step s = .next (afterStep t) := by
  simp only [step, hrun, h]

theorem exists_step_of_not_halted {s : State} (hrun : s.halted = none) : ∃ t, step s = .next t := by
  obtain ⟨t, ht⟩ := exec_fetchInstr_next s
  exact ⟨afterStep t, step_of_exec hrun ht⟩

/-- R104 at `PC`: the illegal-opcode entry is fetched exactly from an unassigned byte. -/
theorem fetchInstr_eq_ill_iff (s : State) (op : Byte) :
    fetchInstr s = .ill op ↔ memRead s.pc s = op ∧ op ∈ unassigned := by
  constructor
  · intro h
    obtain ⟨rfl, hop⟩ := decode3_eq_ill h
    exact ⟨rfl, hop⟩
  · rintro ⟨rfl, hop⟩
    exact (mem_unassigned_iff_decode3 _ _ _).1 hop

/-- Settles O7: the machine steps by `exists_step_of_not_halted`; by `step_next_cases` the step is the fatal halt of a
fetched illegal-opcode entry, or the Arbiter's sequence, which keeps `halted`. -/
theorem onlyIllegalOpcodesHalt : Obligations.OnlyIllegalOpcodesHalt := by
  unfold Obligations.OnlyIllegalOpcodesHalt
  intro s hrun
  obtain ⟨t, hstep⟩ := exists_step_of_not_halted hrun
  refine ⟨t, hstep, ?_⟩
  rcases step_next_cases hstep with ⟨op, hfetch, rfl⟩ | ⟨u, hexec, -, hu, rfl⟩
  · obtain ⟨rfl, hop⟩ := (fetchInstr_eq_ill_iff s op).1 hfetch
    rw [if_pos hop]
    rfl
  · have hop : memRead s.pc s ∉ unassigned := by
      intro hop
      rw [(fetchInstr_eq_ill_iff s _).2 ⟨rfl, hop⟩, exec_ill] at hexec
      cases hexec
      cases hu
    rw [if_neg hop, (chipsOnly_arbitrate _ u).halted, hu]

/-! ### The Arbiter's sequence as the statements write it -/

theorem dispatchVideo_eq_elim (s : State) :
    dispatchVideo s = s.vidPending.elim s fun sig => videoWrite sig.addr { s with vidPending := none } := by
  unfold dispatchVideo
  cases s.vidPending <;> rfl

theorem dispatchTimer_eq_elim (s : State) :
    dispatchTimer s = s.timPending.elim s fun sig => timerWrite sig.addr { s with timPending := none } := by
  unfold dispatchTimer
  cases s.timPending <;> rfl

theorem afterProcessor_eq_arbitrate (s : State) : Claims.afterProcessor s = arbitrate s.stepCost s := by
  rw [arbitrate, dispatchTimer_eq_elim, dispatchVideo_eq_elim]
  rfl

/-- What decodes from three bytes is what `decode3` reads from them. -/
theorem eq_decode3_of_decode {b0 b1 b2 : Byte} {i : Instr} {rest : List Byte}
    (h : decode [b0, b1, b2] = .ok (i, rest)) : i = decode3 b0 b1 b2 := by
  rw [decode] at h
  split at h
  · cases h
  · cases h
    rfl

/-- Settles O5: the decoded instruction is the fetched one, it answers by `exec_fetchInstr_next`, and the step goes on
with `afterStep`. -/
theorem stepRunsDecodedInstruction : Obligations.StepRunsDecodedInstruction := by
  unfold Obligations.StepRunsDecodedInstruction
  intro s i rest hrun hdecode
  obtain rfl : i = fetchInstr s := eq_decode3_of_decode hdecode
  obtain ⟨t, ht⟩ := exec_fetchInstr_next s
  refine ⟨fetchInstr_wf s, t, ht, (step_of_exec hrun ht).trans ?_⟩
  cases hhalt : t.halted with
  | some d => simp only [afterStep, hhalt]
  | none => simp only [afterStep, hhalt, afterProcessor_eq_arbitrate]

/-! ### The cost of an instruction -/

/-- An operation without extra cycles costs 2 to 7 cycles (R134). -/
theorem stepCost_perform {i : Instr} {c : Bool} {op : State → State} {s t : State}
    (h : perform i c (fun u => (0, op u)) s = .next t) : 2 ≤ t.stepCost ∧ t.stepCost ≤ 7 := by
  obtain ⟨e, he, rfl⟩ := perform_next h
  exact totalCost_bounds he c

theorem stepCost_performImplied {i : Instr} {op : State → State} {s t : State}
    (h : performImplied i op s = .next t) : 2 ≤ t.stepCost ∧ t.stepCost ≤ 7 := stepCost_perform h

theorem stepCost_performData {i : Instr} {m : Operand} {op : Resolved → State → State} {s t : State}
    (h : performData i m op s = .next t) : 2 ≤ t.stepCost ∧ t.stepCost ≤ 7 := stepCost_perform h

theorem stepCost_performLoad {i : Instr} {m : Operand} {op : Byte → State → State} {s t : State}
    (h : performLoad i m op s = .next t) : 2 ≤ t.stepCost ∧ t.stepCost ≤ 7 := stepCost_performData h

/-- A branch with its extra cycles costs 2 to 7 cycles (R134, R235). -/
theorem stepCost_branch {i : Instr} {cond : State → Bool} {d : Byte} {s t : State} (hi : i.mode = .rel)
    (h : perform i false (fun u => branch (cond u) d u) s = .next t) : 2 ≤ t.stepCost ∧ t.stepCost ≤ 7 := by
  obtain ⟨e, he, rfl⟩ := perform_next h
  rw [Instr.entry?, hi] at he
  exact totalCost_branch he (branch_eq _ d _).1

theorem exec_stepCost {i : Instr} {s t : State} (hi : ∀ op, i ≠ .ill op) (h : exec i s = .next t) :
    2 ≤ t.stepCost ∧ t.stepCost ≤ 7 := by
  cases i
  case ill op => exact absurd rfl (hi op)
  all_goals simp only [exec] at h
  case bcc d | bcs d | beq d | bne d | bmi d | bpl d | bvc d | bvs d => exact stepCost_branch rfl h
  case lda m | ldx m | ldy m | adc m | sbc m | and m | ora m | eor m | cmp m | cpx m | cpy m | bit m =>
    exact stepCost_performLoad h
  case sta m | stx m | sty m | asl m | lsr m | rol m | ror m | inc m | dec m => exact stepCost_performData h
  all_goals exact stepCost_performImplied h

/-- A well-formed instruction answers a next state. -/
theorem exists_exec_next {i : Instr} (h : i.wf = true) (s : State) : ∃ t, exec i s = .next t := by
  cases hexec : exec i s with
  | next t => exact ⟨t, rfl⟩
  | fault f => exact absurd hexec (exec_ne_fault i s f)
  | refused r =>
    obtain ⟨-, hnone, hi⟩ := (exec_refused_iff i s r).1 hexec
    obtain ⟨e, he⟩ := Instr.entry?_of_wf h hi
    rw [hnone] at he
    cases he

/-- Settles O12: the answer by `exists_exec_next`, the illegal-opcode entry by `exec_ill`, every other instruction by
`exec_keeps` and `exec_stepCost`. -/
theorem everyInstructionCompletesWithItsCost : Obligations.EveryInstructionCompletesWithItsCost := by
  unfold Obligations.EveryInstructionCompletesWithItsCost
  intro i s hwf
  obtain ⟨t, ht⟩ := exists_exec_next hwf s
  refine ⟨t, ht, ?_⟩
  by_cases hill : ∃ op, i = .ill op
  · obtain ⟨op, rfl⟩ := hill
    rw [exec_ill] at ht
    cases ht
    exact .inl ⟨op, rfl, rfl⟩
  · have hi : ∀ op, i ≠ .ill op := fun op hop => hill ⟨op, hop⟩
    have hkeeps := exec_keeps hi ht
    have hcyc := hkeeps.cyc
    obtain ⟨hmin, hmax⟩ := exec_stepCost hi ht
    exact .inr ⟨hkeeps.halted, hcyc, hmin, hmax, by omega, by omega⟩

/-! ### The end of a run -/

/-- A run that starts with a step reaches what it reaches after it. -/
theorem Reaches.head {s t u : State} (hst : StepsTo s t) (htu : Reaches t u) : Reaches s u := by
  induction htu with
  | refl => exact .step .refl hst
  | step _ hstep ih => exact .step ih hstep

/-- The reason that a state at the end of a run gives (R393). -/
def EndsFor (maxFrames : Nat) (why : EndReason) (t : State) : Prop :=
  (∃ d, why = .halted d ∧ t.halted = some d) ∨ (why = .quit ∧ t.hostPort.quit = true) ∨
    (why = .maxFrames ∧ t.video.frameCount = maxFrames)

/-- The test at the end of an iteration finds a reason or a machine that is not halted. -/
theorem endOfRun_cases (maxFrames : Nat) (t : State) :
    (∃ why, endOfRun maxFrames t = some why ∧ EndsFor maxFrames why t) ∨
      (endOfRun maxFrames t = none ∧ t.halted = none) := by
  unfold endOfRun
  cases hhalt : t.halted with
  | some d => exact .inl ⟨.halted d, rfl, .inl ⟨d, rfl, hhalt⟩⟩
  | none =>
    dsimp only
    split
    · exact .inl ⟨.quit, rfl, .inr (.inl ⟨rfl, ‹_›⟩)⟩
    · split
      · exact .inl ⟨.maxFrames, rfl, .inr (.inr ⟨rfl, ‹_›⟩)⟩
      · exact .inr ⟨rfl, rfl⟩

/-- Settles O11: by induction on the fuel; each iteration steps, and ends the run for the reason that `endOfRun_cases`
finds or goes on not halted. -/
theorem runEndsOnlyForAReason : Obligations.RunEndsOnlyForAReason := by
  unfold Obligations.RunEndsOnlyForAReason
  intro maxFrames fuel
  induction fuel with
  | zero =>
    intro s t why _ hrun
    cases hrun
  | succ fuel ih =>
    intro s t why hs hrun
    obtain ⟨u, hu⟩ := exists_step_of_not_halted hs
    simp only [run, hu] at hrun
    rcases endOfRun_cases maxFrames u with ⟨why', hend, hreason⟩ | ⟨hend, hgo⟩
    · rw [hend] at hrun
      cases hrun
      exact ⟨.step .refl hu, hreason⟩
    · rw [hend] at hrun
      obtain ⟨hreach, hreason⟩ := ih u t why hgo hrun
      exact ⟨hreach.head hu, hreason⟩

end Sys2Proof.Machine
end

section
/-! PROOFS. What reset leaves (R411, R450 to R452). -/

namespace Sys2Proof.Machine

/-- Reset's memory is the image loaded into the cartridge window over what was there. -/
theorem boot_mem (image : List Byte) (u : Unspecified) :
    (boot image u).mem = loadImage Config.romBase (image.take Config.romSize) u.mem := rfl

/-- A cell after reset: the image's byte in the window as far as the image goes, and the old byte elsewhere. -/
theorem readCell_boot {image : List Byte} (hlen : image.length ≤ 4096) (u : Unspecified) (a : Addr) :
    readCell a (boot image u) =
      if 0x1000 ≤ a.toNat ∧ a.toNat < 0x1000 + image.length then image.getD (a.toNat - 0x1000) 0
      else u.mem.read a.toNat := by
  rw [readCell, boot_mem, read_loadImage, List.take_of_length_le hlen]

/-- The re-latch starts the timeline anew. -/
theorem relatch_bg_later (s : State) : (relatch s).video.bg.later = [] := rfl

theorem boot_inv {image : List Byte} (hlen : image.length ≤ 4096) {u : Unspecified} (hwf : u.mem.wf = true) :
    (boot image u).Inv := by
  have hmem : (boot image u).mem.wf = true := by
    rw [boot_mem, List.take_of_length_le hlen]
    exact loadImage_wf _ image (by simp only [Config.romBase]; omega) hwf
  have hbg : (boot image u).video.bg.later = [] := relatch_bg_later _
  refine ⟨hmem, Nat.zero_lt_succ _, Prescaler.cycles_pos u.pre, rfl, rfl, rfl, ?_⟩
  simp [Timeline.ordered, hbg]

/-- Settles O10: the cells by `readCell_boot`, `PC` and the fixed values by reset's definition, the invariant by
`boot_inv`. -/
theorem bootLeavesWhatResetSays : Obligations.BootLeavesWhatResetSays := by
  unfold Obligations.BootLeavesWhatResetSays
  intro image u hlen hwf
  refine ⟨fun k hk => ?_, fun a ha => ?_, rfl, rfl, rfl, rfl, rfl, rfl, rfl, rfl, rfl, rfl, rfl, rfl, rfl, rfl, rfl,
    rfl, rfl, rfl, rfl, boot_inv hlen hwf⟩
  · have haddr : (BitVec.ofNat 13 (0x1000 + k)).toNat = 0x1000 + k := by
      rw [BitVec.toNat_ofNat]
      omega
    rw [readCell_boot hlen, haddr, if_pos (by omega), Nat.add_sub_cancel_left, List.getD_eq_getElem _ _ hk]
  · rw [readCell_boot hlen, if_neg (by omega)]

end Sys2Proof.Machine
end

section
/-! PROOFS. Addressing modes as arithmetic (R142 to R153). -/

namespace Sys2Proof.Machine

/-! ### Sums of addresses -/

theorem toNat_zext_add (z k : Byte) : (zext (z + k)).toNat = (z.toNat + k.toNat) % 256 := by
  rw [toNat_zext, BitVec.toNat_add]

theorem toNat_add_zext (w : Word) (k : Byte) : (w + zext k).toNat = (w.toNat + k.toNat) % 65536 := by
  rw [BitVec.toNat_add, toNat_zext]

/-- R153: the low bytes overflow exactly when the high byte of the sum is another, modulo 65536. -/
theorem pageCross_iff (w : Word) (k : Byte) :
    pageCross w k = true ↔ w.toNat / 256 ≠ ((w.toNat + k.toNat) % 65536) / 256 := by
  have hw := w.isLt
  have hk := k.isLt
  rw [pageCross, decide_eq_true_iff, toNat_lo8]
  omega

/-- A zero-page cell is read at its own number. -/
theorem memRead_zext (z : Byte) (s : State) : memRead (zext z) s = s.mem.read z.toNat := by
  have h : (maskAddr (zext z)).toNat = z.toNat := by
    rw [toNat_maskAddr, toNat_zext]
    have := z.isLt
    omega
  rw [memRead, readCell, h]

/-- The pointer at a zero-page cell, both bytes from page zero (R150, R151). -/
theorem toNat_zeroPagePointer (z : Byte) (s : State) :
    (zeroPagePointer z s).toNat = (s.mem.read z.toNat).toNat + 256 * (s.mem.read ((z.toNat + 1) % 256)).toNat := by
  rw [zeroPagePointer, toNat_joinLE, memRead_zext, memRead_zext, BitVec.toNat_add]
  rfl

/-- Settles O21: the wrapped sums by `toNat_zext_add`, the rest by the definition of `resolve`. -/
theorem directModesResolve : Obligations.DirectModesResolve := by
  unfold Obligations.DirectModesResolve
  intro s z w
  exact ⟨⟨rfl, rfl⟩, ⟨_, rfl, toNat_zext z, rfl⟩, ⟨_, rfl, toNat_zext_add z s.x, rfl⟩,
    ⟨_, rfl, toNat_zext_add z s.y, rfl⟩, rfl, rfl⟩

/-- Adding an index: the 16-bit wrap and the page cross of an indexed address. -/
theorem indexed_address (w : Word) (k : Byte) :
    (w + zext k).toNat = (w.toNat + k.toNat) % 65536 ∧
      (pageCross w k = true ↔ w.toNat / 256 ≠ (w + zext k).toNat / 256) := by
  rw [toNat_add_zext]
  exact ⟨rfl, pageCross_iff w k⟩

/-- Settles O22: `indexed_address` for X and for Y. -/
theorem indexedModesCrossPagesWhenHighByteChanges : Obligations.IndexedModesCrossPagesWhenHighByteChanges := by
  unfold Obligations.IndexedModesCrossPagesWhenHighByteChanges
  intro s w
  exact ⟨⟨_, rfl, indexed_address w s.x⟩, ⟨_, rfl, indexed_address w s.y⟩⟩

/-- Settles O23: the pointers by `toNat_zeroPagePointer`, the index after the dereference by `indexed_address`. -/
theorem zeroPagePointersWrapInsideThePage : Obligations.ZeroPagePointersWrapInsideThePage := by
  unfold Obligations.ZeroPagePointersWrapInsideThePage
  intro s z
  have hx := toNat_zeroPagePointer (z + s.x) s
  rw [BitVec.toNat_add, Nat.mod_add_mod] at hx
  obtain ⟨hy, hcross⟩ := indexed_address (zeroPagePointer z s) s.y
  rw [toNat_zeroPagePointer] at hy hcross
  exact ⟨_, _, rfl, rfl, hx, rfl, hy, hcross⟩

end Sys2Proof.Machine
end

section
/-! PROOFS. The results of the instructions over operands, as equations between whole states: loads, stores, logic,
arithmetic, compares, BIT, shifts, and increments (R160 to R165, R180 to R189, R210 to R215, R220). -/

namespace Sys2Proof.Machine

/-! ### Operations that leave `PC` and the cycle counter to the frame around them -/

/-- An operation that neither reads nor writes `PC` and adds no cycle. -/
structure Plain (op : State → State) : Prop where
  setPC : ∀ w t, op (setPC w t) = Machine.setPC w (op t)
  cyc : ∀ t, (op t).cyc = t.cyc

theorem Plain.advancePC {op : State → State} (h : Plain op) (n : Nat) (s : State) :
    op (advancePC n s) = { op s with pc := s.pc + BitVec.ofNat 16 n } :=
  h.setPC _ s

/-- The cost in the statements' words is the model's. -/
theorem costOf_eq_totalCost {i : Instr} {e : Entry} (h : i.entry? = some e) (c : Bool) (n : Nat) :
    Claims.costOf i c n = totalCost e c n := by
  simp only [Claims.costOf, h, Option.map_some, Option.getD_some, totalCost, b2n]

theorem lengthOf_eq {i : Instr} {e : Entry} (h : i.entry? = some e) : Claims.lengthOf i = e.length := by
  simp only [Claims.lengthOf, h, Option.map_some, Option.getD_some]

/-- An instruction with a plain operation answers its result, completed. -/
theorem perform_eq_completed {i : Instr} {e : Entry} (h : i.entry? = some e) {op : State → State} (hop : Plain op)
    (c : Bool) (s : State) : perform i c (fun t => (0, op t)) s = .next (Claims.completed i s c (op s)) := by
  rw [perform_of_entry h, Claims.completed, costOf_eq_totalCost h, lengthOf_eq h, hop.advancePC, charge, hop.cyc]

/-- A well-formed instruction whose rule lists operand forms has an entry for its form. -/
theorem exists_entry_of_wf {i : Instr} (h : i.wf = true) (hi : i.mnemonic ≠ .ill) : ∃ e, i.entry? = some e :=
  Instr.entry?_of_wf h (by rintro op rfl; exact hi rfl)

/-- A well-formed instruction with a data operand and a plain operation answers its result, completed. -/
theorem exec_eq_of_performData {i : Instr} {m : Operand} {op : Resolved → State → State} {s t : State}
    (harm : exec i s = performData i m op s) (h : i.wf = true) (hop : ∀ o, Plain (op o))
    (ht : op (resolve m s) s = t) (hi : i.mnemonic ≠ .ill := by exact nofun) :
    exec i s = .next (Claims.completed i s (crossed m s) t) := by
  obtain ⟨e, he⟩ := exists_entry_of_wf h hi
  rw [harm, performData, perform_eq_completed he (hop _), ht]

/-- The same of an instruction that acts on its operand byte. -/
theorem exec_eq_of_performLoad {i : Instr} {m : Operand} {op : Byte → State → State} {s t : State}
    (harm : exec i s = performLoad i m op s) (h : i.wf = true) (ht : op (Claims.operand m s) s = t)
    (hop : ∀ v, Plain (op v) := by exact fun _ => ⟨fun _ _ => rfl, fun _ => rfl⟩)
    (hi : i.mnemonic ≠ .ill := by exact nofun) :
    exec i s = .next (Claims.completed i s (crossed m s) t) := by
  refine exec_eq_of_performData harm h (fun o => ⟨fun w u => ?_, fun u => (hop _).cyc u⟩) ht hi
  have hload : load o (setPC w u) = load o u := load_congr rfl rfl o
  rw [hload]
  exact (hop _).setPC w u

theorem memWrite_setPC (w : Word) (v : Byte) (p : Word) (s : State) :
    memWrite w v (setPC p s) = setPC p (memWrite w v s) := by
  unfold memWrite
  split <;> rfl

theorem store_setPC (o : Resolved) (v : Byte) (p : Word) (s : State) :
    store o v (setPC p s) = setPC p (store o v s) := by
  cases o with
  | acc => rfl
  | imm _ => rfl
  | addr ea => exact memWrite_setPC ea v p s

theorem load_setPC (o : Resolved) (p : Word) (s : State) : load o (setPC p s) = load o s := load_congr rfl rfl o

/-! ### Loads -/

/-- Z and N in the statements' words. -/
theorem setNZ_eq_nz (v : Byte) (f : Flags) : setNZ v f = Claims.nz v f := by
  rw [setNZ, testBit, getLsbD_seven]
  rfl

theorem markNZ_eq (v : Byte) (s : State) : markNZ v s = { s with flags := Claims.nz v s.flags } := by
  rw [markNZ, setNZ_eq_nz]
  rfl

/-- Settles O25: each load is a plain operation on its operand byte, and `markNZ_eq` gives its flags. -/
theorem loadsPutOperandInRegister : Obligations.LoadsPutOperandInRegister := by
  unfold Obligations.LoadsPutOperandInRegister
  intro m s
  refine ⟨fun h => ?_, fun h => ?_, fun h => ?_⟩
  · exact exec_eq_of_performLoad (Eq.refl (execLda m s)) h (markNZ_eq _ _)
  · exact exec_eq_of_performLoad (Eq.refl (execLdx m s)) h (markNZ_eq _ _)
  · exact exec_eq_of_performLoad (Eq.refl (execLdy m s)) h (markNZ_eq _ _)

/-! ### Stores -/

/-- The mode of a well-formed form is one its mnemonic's rule lists. -/
theorem mode_ne_of_wf {i : Instr} {mn : Mnemonic} {mode : Mode} (h : i.wf = true) (hmn : i.mnemonic = mn)
    (hmode : mn ≠ .ill ∧ mode ∉ modesOf mn) : i.mode ≠ mode := by
  subst hmn
  obtain ⟨e, he⟩ := exists_entry_of_wf h hmode.1
  rintro rfl
  have hmem := entry?_isSome_iff i.mnemonic i.mode
  rw [← Instr.entry?, he] at hmem
  exact hmode.2 (by simpa using hmem.symm)

/-- Storing a register is plain when the register is not `PC`. -/
theorem plain_store {r : State → Byte} (hr : ∀ w t, r (setPC w t) = r t) (o : Resolved) :
    Plain fun t => store o (r t) t where
  setPC w t := by rw [hr, store_setPC]
  cyc t := store_cyc o (r t) t

/-- A store instruction, which has neither accumulator nor immediate form, writes its register to the address its form
resolves to. -/
theorem exec_eq_of_store {i : Instr} {mn : Mnemonic} {m : Operand} {r : State → Byte} {s : State}
    (harm : exec i s = performData i m (fun o t => store o (r t) t) s) (h : i.wf = true) (hmn : i.mnemonic = mn)
    (hmode : i.mode = m.mode) (hr : ∀ w t, r (setPC w t) = r t)
    (hacc : mn ≠ .ill ∧ Mode.acc ∉ modesOf mn) (himm : mn ≠ .ill ∧ Mode.imm ∉ modesOf mn) :
    ∃ ea, resolve m s = .addr ea ∧
      exec i s = .next (Claims.completed i s (crossed m s) (memWrite ea (r s) s)) := by
  obtain ⟨ea, hea⟩ := resolve_addr_of_mode (hmode ▸ mode_ne_of_wf h hmn hacc) (hmode ▸ mode_ne_of_wf h hmn himm) s
  exact ⟨ea, hea, exec_eq_of_performData harm h (plain_store hr) (by rw [hea]; rfl) (hmn ▸ hacc.1)⟩

/-- Settles O26: one `exec_eq_of_store` per register. -/
theorem storesWriteRegister : Obligations.StoresWriteRegister := by
  unfold Obligations.StoresWriteRegister
  intro m s
  refine ⟨fun h => ?_, fun h => ?_, fun h => ?_⟩
  · exact exec_eq_of_store (mn := .sta) (r := (·.a)) rfl h rfl rfl (fun _ _ => rfl) (by decide) (by decide)
  · exact exec_eq_of_store (mn := .stx) (r := (·.x)) rfl h rfl rfl (fun _ _ => rfl) (by decide) (by decide)
  · exact exec_eq_of_store (mn := .sty) (r := (·.y)) rfl h rfl rfl (fun _ _ => rfl) (by decide) (by decide)

/-! ### Logic -/

/-- Settles O30: each is a plain operation on its operand byte. -/
theorem logicPutsBitwiseResult : Obligations.LogicPutsBitwiseResult := by
  unfold Obligations.LogicPutsBitwiseResult
  intro m s i r hi h
  simp only [List.mem_cons, Prod.mk.injEq, List.not_mem_nil, or_false] at hi
  obtain ⟨rfl, rfl⟩ | ⟨rfl, rfl⟩ | ⟨rfl, rfl⟩ := hi
  · exact exec_eq_of_performLoad (Eq.refl (execAnd m s)) h (markNZ_eq _ _)
  · exact exec_eq_of_performLoad (Eq.refl (execOra m s)) h (markNZ_eq _ _)
  · exact exec_eq_of_performLoad (Eq.refl (execEor m s)) h (markNZ_eq _ _)

/-! ### Addition and subtraction -/

theorem b2n_eq_toNat (b : Bool) : b2n b = b.toNat := by cases b <;> rfl

theorem testBit_seven_of_and (v : Byte) : ((v &&& 0x80) != 0) = v.getLsbD 7 := by
  revert v
  decide

theorem setAlu_eq (r : Alu) (s : State) : setAlu r s =
    { s with a := r.value, flags := Claims.nz r.value { s.flags with c := r.carry, v := r.overflow } } := by
  rw [setAlu, aluFlags, setNZ_eq_nz]
  rfl

theorem addWithCarry_value (a m : Byte) (c : Bool) :
    (addWithCarry a m c).value.toNat = (a.toNat + m.toNat + c.toNat) % 256 := by
  rw [← b2n_eq_toNat]
  exact BitVec.toNat_ofNat _ _

theorem addWithCarry_carry (a m : Byte) (c : Bool) :
    (addWithCarry a m c).carry = true ↔ 255 < a.toNat + m.toNat + c.toNat := by
  rw [← b2n_eq_toNat]
  exact decide_eq_true_iff

/-- The overflow test in bits: the result's sign is neither operand's. -/
theorem addWithCarry_overflow_eq (a m : Byte) (c : Bool) :
    (addWithCarry a m c).overflow =
      ((a.getLsbD 7 ^^ (addWithCarry a m c).value.getLsbD 7) &&
        (m.getLsbD 7 ^^ (addWithCarry a m c).value.getLsbD 7)) := by
  rw [← BitVec.getLsbD_xor, ← BitVec.getLsbD_xor, ← BitVec.getLsbD_and, ← testBit_seven_of_and]
  rfl

/-- The overflow test of R180 is the signed range test. -/
theorem addWithCarry_overflow (a m : Byte) (c : Bool) :
    (addWithCarry a m c).overflow = true ↔
      (a.toInt + m.toInt + (c.toNat : Int) < -128 ∨ 127 < a.toInt + m.toInt + (c.toNat : Int)) := by
  have ha := a.isLt
  have hm := m.isLt
  have hc := c.toNat_le
  have hvalue := addWithCarry_value a m c
  rw [addWithCarry_overflow_eq, getLsbD_seven, getLsbD_seven, getLsbD_seven, hvalue, BitVec.toInt_eq_toNat_cond,
    BitVec.toInt_eq_toNat_cond]
  simp only [Bool.and_eq_true, bne_iff_ne, ne_eq, decide_eq_decide]
  split <;> split <;> omega

/-- Settles O28: ADC is the plain operation `setAlu` of the sum, whose fields are the three lemmas before. -/
theorem adcMatchesReferenceArithmetic : Obligations.AdcMatchesReferenceArithmetic := by
  unfold Obligations.AdcMatchesReferenceArithmetic
  intro m s h
  refine ⟨_, _, _, ?_, addWithCarry_value _ _ _, addWithCarry_carry _ _ _, addWithCarry_overflow _ _ _⟩
  exact exec_eq_of_performLoad (Eq.refl (execAdc m s)) h (setAlu_eq _ _)

theorem toNat_xor_ff (m : Byte) : (m ^^^ 0xFF).toNat = 255 - m.toNat := by
  revert m
  decide

theorem toInt_xor_ff (m : Byte) : (m ^^^ 0xFF).toInt = -1 - m.toInt := by
  revert m
  decide

/-- The subtraction of R181 as exact arithmetic: adding the complement and the carry subtracts the operand and the
borrow. -/
theorem subWithBorrow_spec (a m : Byte) (c : Bool) :
    let d : Int := (a.toNat : Int) - m.toNat - (1 - (c.toNat : Int))
    let e : Int := a.toInt - m.toInt - (1 - (c.toNat : Int))
    ((subWithBorrow a m c).value.toNat : Int) = d % 256 ∧ ((subWithBorrow a m c).carry = true ↔ 0 ≤ d) ∧
      ((subWithBorrow a m c).overflow = true ↔ (e < -128 ∨ 127 < e)) := by
  have hm := m.isLt
  rw [subWithBorrow, addWithCarry_value, addWithCarry_carry, addWithCarry_overflow, toNat_xor_ff, toInt_xor_ff]
  dsimp only
  refine ⟨?_, ?_, ?_⟩ <;> omega

/-- Settles O29: SBC is the plain operation `setAlu` of the difference, by `subWithBorrow_spec`. -/
theorem sbcMatchesReferenceArithmetic : Obligations.SbcMatchesReferenceArithmetic := by
  unfold Obligations.SbcMatchesReferenceArithmetic
  intro m s h
  refine ⟨_, _, _, ?_, subWithBorrow_spec _ _ _⟩
  exact exec_eq_of_performLoad (Eq.refl (execSbc m s)) h (setAlu_eq _ _)

/-! ### Compares and BIT -/

theorem compareFlags_eq (reg v : Byte) (f : Flags) : compareFlags reg v f =
    { f with
      c := decide (v.toNat ≤ reg.toNat)
      z := decide (reg = v)
      n := decide (128 ≤ (reg.toNat + 256 - v.toNat) % 256) } := by
  have hsub : (reg - v).toNat = (reg.toNat + 256 - v.toNat) % 256 := by
    have := reg.isLt
    have := v.isLt
    rw [BitVec.toNat_sub]
    omega
  rw [compareFlags, testBit, getLsbD_seven, hsub]
  rfl

/-- Settles O31: a compare is a plain operation with the flags of `compareFlags_eq`; BIT's are its definition. -/
theorem comparesAndBitTest : Obligations.ComparesAndBitTest := by
  unfold Obligations.ComparesAndBitTest
  intro m s
  refine ⟨fun i reg hi h => ?_, fun h => ?_⟩
  · rw [← compareFlags_eq]
    simp only [List.mem_cons, Prod.mk.injEq, List.not_mem_nil, or_false] at hi
    obtain ⟨rfl, rfl⟩ | ⟨rfl, rfl⟩ | ⟨rfl, rfl⟩ := hi
    · exact exec_eq_of_performLoad (Eq.refl (execCmp m s)) h rfl
    · exact exec_eq_of_performLoad (Eq.refl (execCpx m s)) h rfl
    · exact exec_eq_of_performLoad (Eq.refl (execCpy m s)) h rfl
  · exact exec_eq_of_performLoad (Eq.refl (execBit m s)) h rfl

/-! ### Shifts, rotates, increments, decrements -/

/-- `Store` is the statements' `stored` for every form but the immediate one, which no storing instruction has. -/
theorem store_resolve {m : Operand} (h : m.mode ≠ .imm) (v : Byte) (s : State) :
    store (resolve m s) v s = Claims.stored m v s := by
  cases m <;> first | rfl | exact absurd rfl h

theorem plain_applyShift (f : Byte → Bool → Shifted) (o : Resolved) : Plain (applyShift f o) where
  setPC w t := by
    simp only [applyShift, load_setPC, store_setPC]
    rfl
  cyc t := applyShift_cyc f o t

theorem plain_applyStep (f : Byte → Byte) (o : Resolved) : Plain (applyStep f o) where
  setPC w t := by
    simp only [applyStep, load_setPC, store_setPC]
    rfl
  cyc t := applyStep_cyc f o t

/-- A shift in the statements' words. -/
theorem applyShift_eq {m : Operand} (h : m.mode ≠ .imm) {f : Byte → Bool → Shifted} {s : State} {r : Nat} {c : Bool}
    (hf : f (Claims.operand m s) s.flags.c = ⟨BitVec.ofNat 8 r, c⟩) :
    applyShift f (resolve m s) s = { Claims.stored m (BitVec.ofNat 8 r) s with
      flags := Claims.nz (BitVec.ofNat 8 r) { s.flags with c := c } } := by
  have hload : load (resolve m s) s = Claims.operand m s := rfl
  simp only [applyShift, hload, hf, store_resolve h, shiftFlags, setNZ_eq_nz]
  rfl

/-- An increment or decrement in the statements' words. -/
theorem applyStep_eq {m : Operand} (h : m.mode ≠ .imm) (f : Byte → Byte) (s : State) :
    applyStep f (resolve m s) s = { Claims.stored m (f (Claims.operand m s)) s with
      flags := Claims.nz (f (Claims.operand m s)) s.flags } := by
  have hflags : (Claims.stored m (f (Claims.operand m s)) s).flags = s.flags := by
    rw [← store_resolve h, store_flags]
  have hload : load (resolve m s) s = Claims.operand m s := rfl
  simp only [applyStep, hload, store_resolve h, markNZ_eq, hflags]

theorem carry_of_double (v : Byte) (c : Bool) : decide (255 < v.toNat * 2 + b2n c) = decide (128 ≤ v.toNat) := by
  have hc := c.toNat_le
  rw [b2n_eq_toNat, decide_eq_decide]
  omega

theorem ofNat_mod_256 (n : Nat) : BitVec.ofNat 8 (n % 256) = BitVec.ofNat 8 n := by
  apply BitVec.eq_of_toNat_eq
  simp

theorem shiftLeft_eq (v : Byte) (c : Bool) :
    shiftLeft v c = ⟨BitVec.ofNat 8 (2 * v.toNat % 256), decide (128 ≤ v.toNat)⟩ := by
  rw [shiftLeft, ofNat_mod_256, Nat.mul_comm, ← carry_of_double v false, Nat.mul_comm v.toNat 2]
  rfl

theorem rotateLeft_eq (v : Byte) (c : Bool) :
    rotateLeft v c = ⟨BitVec.ofNat 8 ((2 * v.toNat + c.toNat) % 256), decide (128 ≤ v.toNat)⟩ := by
  rw [rotateLeft, carry_of_double, b2n_eq_toNat, Nat.mul_comm, ofNat_mod_256]

theorem testBit_zero (v : Byte) : testBit v 0 = decide (v.toNat % 2 = 1) := by
  simp [testBit, BitVec.getLsbD, Nat.testBit_zero]

theorem shiftRight_eq (v : Byte) (c : Bool) :
    shiftRight v c = ⟨BitVec.ofNat 8 (v.toNat / 2), decide (v.toNat % 2 = 1)⟩ := by
  rw [shiftRight, testBit_zero]
  congr 1
  apply BitVec.eq_of_toNat_eq
  have := v.isLt
  simp [Nat.shiftRight_eq_div_pow]
  omega

theorem rotateRight_eq (v : Byte) (c : Bool) :
    rotateRight v c = ⟨BitVec.ofNat 8 (v.toNat / 2 + 128 * c.toNat), decide (v.toNat % 2 = 1)⟩ := by
  rw [rotateRight, testBit_zero, b2n_eq_toNat]
  congr 1
  revert v c
  decide

/-- Settles O32: each is `applyShift` of a shift with the exact result, and a shift has no immediate form. -/
theorem shiftsAndRotates : Obligations.ShiftsAndRotates := by
  unfold Obligations.ShiftsAndRotates
  intro m s i r c hi h
  simp only [Claims.shiftResults, List.mem_cons, Prod.mk.injEq, List.not_mem_nil, or_false] at hi
  obtain ⟨rfl, rfl, rfl⟩ | ⟨rfl, rfl, rfl⟩ | ⟨rfl, rfl, rfl⟩ | ⟨rfl, rfl, rfl⟩ := hi
  · exact exec_eq_of_performData rfl h (plain_applyShift _)
      (applyShift_eq (mode_ne_of_wf (mn := .asl) h rfl (by decide)) (shiftLeft_eq _ _))
  · exact exec_eq_of_performData rfl h (plain_applyShift _)
      (applyShift_eq (mode_ne_of_wf (mn := .lsr) h rfl (by decide)) (shiftRight_eq _ _))
  · exact exec_eq_of_performData rfl h (plain_applyShift _)
      (applyShift_eq (mode_ne_of_wf (mn := .rol) h rfl (by decide)) (rotateLeft_eq _ _))
  · exact exec_eq_of_performData rfl h (plain_applyShift _)
      (applyShift_eq (mode_ne_of_wf (mn := .ror) h rfl (by decide)) (rotateRight_eq _ _))

/-- Settles O33: each is `applyStep`, and neither has an immediate form. -/
theorem incrementsAndDecrementsOfMemory : Obligations.IncrementsAndDecrementsOfMemory := by
  unfold Obligations.IncrementsAndDecrementsOfMemory
  intro m s i r hi h
  simp only [List.mem_cons, Prod.mk.injEq, List.not_mem_nil, or_false] at hi
  obtain ⟨rfl, rfl⟩ | ⟨rfl, rfl⟩ := hi
  · exact exec_eq_of_performData rfl h (plain_applyStep _)
      (applyStep_eq (mode_ne_of_wf (mn := .inc) h rfl (by decide)) _ s)
  · exact exec_eq_of_performData rfl h (plain_applyStep _)
      (applyStep_eq (mode_ne_of_wf (mn := .dec) h rfl (by decide)) _ s)

end Sys2Proof.Machine
end

section
/-! PROOFS. The results of the implied instructions and the branches, as equations between whole states: transfers,
register steps, flag instructions, PLA, PHP, PLP, RTI, BRK (R166 to R171, R216 to R219, R233 to R243, R261 to R271). -/

namespace Sys2Proof.Machine

/-! ### Implied instructions -/

/-- An implied instruction answers the result of its operation on the advanced state, at its entry's cost. -/
theorem exec_eq_of_performImplied {i : Instr} {e : Entry} {op : State → State} {s t : State}
    (harm : exec i s = performImplied i op s) (h : i.entry? = some e)
    (ht : Claims.costing e.cycles (op (advancePC e.length s)) = t) : exec i s = .next t := by
  rw [harm, performImplied_of_entry h, ht]

/-- Settles O27: each instruction by its definition, with Z and N in the statements' words by `setNZ_eq_nz`. -/
theorem transfersAndRegisterSteps : Obligations.TransfersAndRegisterSteps := by
  unfold Obligations.TransfersAndRegisterSteps
  intro s
  refine ⟨?_, exec_eq_of_performImplied (Eq.refl (execTxs s)) rfl rfl⟩
  simp only [Claims.registerResults, List.forall_mem_cons, List.not_mem_nil, false_implies, implies_true, and_true,
    ← setNZ_eq_nz]
  exact ⟨exec_eq_of_performImplied (Eq.refl (execTax s)) rfl rfl,
    exec_eq_of_performImplied (Eq.refl (execTay s)) rfl rfl,
    exec_eq_of_performImplied (Eq.refl (execTxa s)) rfl rfl,
    exec_eq_of_performImplied (Eq.refl (execTya s)) rfl rfl,
    exec_eq_of_performImplied (Eq.refl (execTsx s)) rfl rfl,
    exec_eq_of_performImplied (Eq.refl (execInx s)) rfl rfl,
    exec_eq_of_performImplied (Eq.refl (execIny s)) rfl rfl,
    exec_eq_of_performImplied (Eq.refl (execDex s)) rfl rfl,
    exec_eq_of_performImplied (Eq.refl (execDey s)) rfl rfl⟩

/-- Settles O41: each instruction by its definition. -/
theorem flagInstructionsAndNop : Obligations.FlagInstructionsAndNop := by
  unfold Obligations.FlagInstructionsAndNop
  intro s
  refine ⟨?_, exec_eq_of_performImplied (Eq.refl (execNop s)) rfl rfl⟩
  simp only [Claims.flagSetters, List.forall_mem_cons, List.not_mem_nil, false_implies, implies_true, and_true]
  exact ⟨exec_eq_of_performImplied (Eq.refl (execClc s)) rfl rfl,
    exec_eq_of_performImplied (Eq.refl (execSec s)) rfl rfl,
    exec_eq_of_performImplied (Eq.refl (execCli s)) rfl rfl,
    exec_eq_of_performImplied (Eq.refl (execSei s)) rfl rfl,
    exec_cld s, exec_sed s,
    exec_eq_of_performImplied (Eq.refl (execClv s)) rfl rfl⟩

/-! ### The stack -/

/-- The flag byte of R26 written bit by bit is the model's sum. -/
theorem flagByte_eq_pack (f : Flags) : Claims.flagByte f = pack f := by
  obtain ⟨c, z, i, d, b, v, n⟩ := f
  revert c z i d b v n
  decide

/-- A return address and a byte pushed, as three writes from the cell of `SP` down. -/
theorem push_pushWord_eq_memWrite (v : Byte) (w : Word) (s : State) :
    push v (pushWord w s) =
      setSP (s.sp - 3) (memWrite (stackAddr (s.sp - 2)) v
        (memWrite (stackAddr (s.sp - 1)) (lo8 w) (memWrite (stackAddr s.sp) (hi8 w) s))) := by
  have hsp : s.sp - 2 - 1 = s.sp - 3 := by bv_omega
  rw [push, pushWord_sp, hsp, pushWord_eq_memWrite, memWrite_setSP]
  rfl

/-- Settles O39: PLA and PLP by the pull's definition, PHP as a write by the push's. -/
theorem plaPhpPlpMoveBytesThroughTheStack : Obligations.PlaPhpPlpMoveBytesThroughTheStack := by
  unfold Obligations.PlaPhpPlpMoveBytesThroughTheStack
  intro s
  refine ⟨⟨?_, exec_plp s⟩, ?_⟩
  · rw [exec_pla, markNZ_eq]
    rfl
  · rw [exec_php, flagByte_eq_pack, advancePC, push_pc]
    rfl

/-- Settles O35: `exec_rti`, with the three pulls in one update. -/
theorem rtiRestoresFlagsAndAddsOne : Obligations.RtiRestoresFlagsAndAddsOne := by
  unfold Obligations.RtiRestoresFlagsAndAddsOne
  intro s
  rw [exec_rti, returnFromInterrupt_eq]
  rfl

/-- Settles O36: `exec_brk`, with the three pushes as writes; the return address is the opcode's own because `PC` has
advanced by one and one is taken off again. -/
theorem brkEntersThroughVector : Obligations.BrkEntersThroughVector := by
  unfold Obligations.BrkEntersThroughVector
  intro s
  have hpc : (advancePC 1 s).pc - 1 = s.pc := BitVec.add_sub_cancel s.pc 1
  rw [exec_brk, enterSoftwareInterrupt_eq, ← pushWord_eq, hpc, pushWord_advancePC, push_advancePC,
    push_pushWord_eq_memWrite, ← flagByte_eq_pack]
  rfl

/-! ### Branches -/

/-- A branch takes the two cycles and two bytes of its entry, and one or two cycles more when it is taken (R235). -/
theorem exec_eq_of_branch {i : Instr} {e : Entry} {cond : State → Bool} {d : Byte} {s : State}
    (harm : exec i s = perform i false (fun t => branch (cond t) d t) s) (h : i.entry? = some e)
    (he : e.length = 2 ∧ e.cycles = 2) (hcond : cond (advancePC 2 s) = cond s) :
    exec i s = .next (
      if cond s then
        Claims.costing (if (s.pc + 2).toNat / 256 = (s.pc + 2 + d.signExtend 16).toNat / 256 then 3 else 4)
          { s with pc := s.pc + 2 + d.signExtend 16 }
      else Claims.costing 2 { s with pc := s.pc + 2 }) := by
  have hpage : b2n (hi8 (s.pc + 2) != hi8 (s.pc + 2 + d.signExtend 16)) =
      if (s.pc + 2).toNat / 256 = (s.pc + 2 + d.signExtend 16).toNat / 256 then 0 else 1 := by
    rw [← toNat_hi8, ← toNat_hi8, b2n]
    simp only [bne_iff_ne, ne_eq, ← BitVec.toNat_inj, ite_not]
  have hpc : (advancePC 2 s).pc = s.pc + 2 := rfl
  rw [harm, perform_of_entry h, he.1, hcond, totalCost, he.2, Bool.and_false, branch]
  cases cond s
  · rfl
  · simp only [if_true, hpc, branchTarget_eq, hpage]
    split <;> rfl

/-- Settles O37: each branch is `exec_eq_of_branch` with its flag. -/
theorem branchesTestTheirFlag : Obligations.BranchesTestTheirFlag := by
  unfold Obligations.BranchesTestTheirFlag
  intro s d i taken hi
  simp only [Claims.branches, List.mem_cons, Prod.mk.injEq, List.not_mem_nil, or_false] at hi
  obtain ⟨rfl, rfl⟩ | ⟨rfl, rfl⟩ | ⟨rfl, rfl⟩ | ⟨rfl, rfl⟩ | ⟨rfl, rfl⟩ | ⟨rfl, rfl⟩ | ⟨rfl, rfl⟩ | ⟨rfl, rfl⟩ := hi
  · exact exec_eq_of_branch (i := .bcc d) (cond := fun t => !t.flags.c) rfl rfl ⟨rfl, rfl⟩ rfl
  · exact exec_eq_of_branch (i := .bcs d) (cond := fun t => t.flags.c) rfl rfl ⟨rfl, rfl⟩ rfl
  · exact exec_eq_of_branch (i := .beq d) (cond := fun t => t.flags.z) rfl rfl ⟨rfl, rfl⟩ rfl
  · exact exec_eq_of_branch (i := .bne d) (cond := fun t => !t.flags.z) rfl rfl ⟨rfl, rfl⟩ rfl
  · exact exec_eq_of_branch (i := .bmi d) (cond := fun t => t.flags.n) rfl rfl ⟨rfl, rfl⟩ rfl
  · exact exec_eq_of_branch (i := .bpl d) (cond := fun t => !t.flags.n) rfl rfl ⟨rfl, rfl⟩ rfl
  · exact exec_eq_of_branch (i := .bvc d) (cond := fun t => !t.flags.v) rfl rfl ⟨rfl, rfl⟩ rfl
  · exact exec_eq_of_branch (i := .bvs d) (cond := fun t => t.flags.v) rfl rfl ⟨rfl, rfl⟩ rfl

end Sys2Proof.Machine
end

section
/-! PROOFS. The memory: the Processor's filtered write, and the canonical form (R30, R71, R75). -/

namespace Sys2Proof.Machine

/-! ### The Processor's write -/

theorem inVideo_iff (a : Addr) : inVideo a = true ↔ a.toNat ≤ 0x2C := by simp [inVideo]

theorem inTimer_iff (a : Addr) : inTimer a = true ↔ 0x0280 ≤ a.toNat ∧ a.toNat ≤ 0x0297 := by simp [inTimer]

/-- The signals after a write that is not discarded (R28, R75). -/
theorem memWrite_signals {w : Word} (h : maskAddr w ≠ Config.inputPort) (v : Byte) (s : State) :
    (memWrite w v s).vidPending = (if (maskAddr w).toNat ≤ 0x2C then some ⟨maskAddr w, v⟩ else s.vidPending) ∧
      (memWrite w v s).timPending =
        (if 0x0280 ≤ (maskAddr w).toNat ∧ (maskAddr w).toNat ≤ 0x0297 then some ⟨maskAddr w, v⟩ else s.timPending) := by
  rw [memWrite_of_ne_port v s h]
  exact ⟨if_congr (inVideo_iff _) rfl rfl, if_congr (inTimer_iff _) rfl rfl⟩

/-- Settles O42: the port by `memWrite_of_port`, any other cell by `readCell_memWrite`, `memWrite_signals` and
`memWrite_eq_with`. -/
theorem processorWritesAreFiltered : Obligations.ProcessorWritesAreFiltered := by
  unfold Obligations.ProcessorWritesAreFiltered
  intro s w v a ha
  obtain rfl : a = maskAddr w := BitVec.eq_of_toNat_eq (ha.trans (toNat_maskAddr w).symm)
  by_cases hport : maskAddr w = Config.inputPort
  · rw [if_pos hport]
    exact memWrite_of_port v s hport
  · rw [if_neg hport]
    obtain ⟨hvideo, htimer⟩ := memWrite_signals hport v s
    refine ⟨?_, fun k hk => ?_, hvideo, htimer, memWrite_eq_with w v s⟩
    · rw [readCell_memWrite, if_pos ⟨rfl, hport⟩]
    · exact readCell_memWrite_of_ne v s fun h => hk (List.mem_singleton.2 h)

/-! ### The canonical form -/

/-- Of two memories in canonical form that read alike neither starts before the other: the first entry is the least
address that reads as anything but an unlisted cell. -/
theorem Memory.head_le_of_read_eq {lo i j : Nat} {u v : Byte} {rest rest' : Memory}
    (hm : Memory.wfFrom lo ((i, u) :: rest) = true) (hk : Memory.wfFrom lo ((j, v) :: rest') = true)
    (h : ∀ a, Memory.read ((i, u) :: rest) a = Memory.read ((j, v) :: rest') a) : j ≤ i := by
  rw [Memory.wfFrom_cons] at hm hk
  obtain ⟨-, -, hu, -⟩ := hm
  obtain ⟨-, hj, hv, hrest⟩ := hk
  by_contra hlt
  have hfrom : Memory.wfFrom j ((j, v) :: rest') = true := (Memory.wfFrom_cons _ _ _ _).2 ⟨le_rfl, hj, hv, hrest⟩
  have hi := h i
  rw [Memory.read_of_lt hfrom (by omega), Memory.read, if_pos rfl] at hi
  exact hu hi

/-- Memories in canonical form that read alike are equal (R30). -/
theorem Memory.eq_of_read_eq {lo : Nat} {m k : Memory} (hm : Memory.wfFrom lo m = true)
    (hk : Memory.wfFrom lo k = true) (h : ∀ a, m.read a = k.read a) : m = k := by
  induction m generalizing lo k with
  | nil =>
    cases k with
    | nil => rfl
    | cons e rest' =>
      obtain ⟨j, v⟩ := e
      obtain ⟨-, -, hv, -⟩ := (Memory.wfFrom_cons _ _ _ _).1 hk
      exact absurd (by simpa [Memory.read] using (h j).symm) hv
  | cons e rest ih =>
    obtain ⟨i, u⟩ := e
    cases k with
    | nil =>
      obtain ⟨-, -, hu, -⟩ := (Memory.wfFrom_cons _ _ _ _).1 hm
      exact absurd (by simpa [Memory.read] using h i) hu
    | cons e' rest' =>
      obtain ⟨j, v⟩ := e'
      have hle := Memory.head_le_of_read_eq hm hk h
      have hge := Memory.head_le_of_read_eq hk hm fun a => (h a).symm
      obtain rfl : i = j := by omega
      obtain rfl : u = v := by simpa [Memory.read] using h i
      obtain ⟨-, -, -, hrest⟩ := (Memory.wfFrom_cons _ _ _ _).1 hm
      obtain ⟨-, -, -, hrest'⟩ := (Memory.wfFrom_cons _ _ _ _).1 hk
      have htail : rest = rest' := by
        refine ih hrest hrest' fun a => ?_
        by_cases ha : i = a
        · rw [Memory.read_of_lt hrest (by omega), Memory.read_of_lt hrest' (by omega)]
        · simpa [Memory.read, ha] using h a
      rw [htail]

/-- Settles O43: `Memory.read_write`, `Memory.wf_write` and `Memory.eq_of_read_eq`. -/
theorem memoryIsCanonical : Obligations.MemoryIsCanonical := by
  unfold Obligations.MemoryIsCanonical
  exact ⟨Memory.read_write, fun _ _ _ hm ha => Memory.wf_write ha hm, fun _ _ => Memory.eq_of_read_eq⟩

end Sys2Proof.Machine
end

section
/-! PROOFS. What an instruction can do to memory and signals: nothing, one write, or pushes; and the frames that follow
(R20 to R28, R81). -/

namespace Sys2Proof.Machine

/-! ### The answered state, by the frame of the meaning -/

theorem performImplied_next {i : Instr} {op : State → State} {s t : State} (h : performImplied i op s = .next t) :
    ∃ n k, t = charge n (op (advancePC k s)) := by
  obtain ⟨e, -, ht⟩ := perform_next h
  exact ⟨_, e.length, ht⟩

theorem performData_next {i : Instr} {m : Operand} {op : Resolved → State → State} {s t : State}
    (h : performData i m op s = .next t) : ∃ n k, t = charge n (op (resolve m s) (advancePC k s)) := by
  obtain ⟨e, -, ht⟩ := perform_next h
  exact ⟨_, e.length, ht⟩

theorem performLoad_next {i : Instr} {m : Operand} {op : Byte → State → State} {s t : State}
    (h : performLoad i m op s = .next t) : ∃ n k, t = charge n (op (Claims.operand m s) (advancePC k s)) := by
  obtain ⟨n, k, ht⟩ := performData_next h
  rw [load_advancePC] at ht
  exact ⟨n, k, ht⟩

theorem perform_branch_next {i : Instr} {cond : State → Bool} {d : Byte} {s t : State}
    (h : perform i false (fun u => branch (cond u) d u) s = .next t) :
    ∃ n w, t = charge n (setPC w s) := by
  obtain ⟨e, -, ht⟩ := perform_next h
  rw [(branch_eq _ d _).2] at ht
  exact ⟨_, _, ht⟩

/-! ### Forms that store nothing -/

/-- Memory and both signals are the same. -/
def SameBus (s t : State) : Prop := t.mem = s.mem ∧ t.vidPending = s.vidPending ∧ t.timPending = s.timPending

theorem SameBus.readCell {s t : State} (h : SameBus s t) (a : Addr) : readCell a t = readCell a s :=
  readCell_congr h.1 a

/-- The operand of a form that stores nothing is the accumulator where the mnemonic is a shift's. -/
theorem eq_acc_of_mode {m : Operand} (h : (m.mode == .acc) = true) : m = .acc := by
  cases m with
  | acc => rfl
  | _ => exact absurd h Bool.false_ne_true

theorem sameBus_of_storesNothing {i : Instr} {s t : State} (h : exec i s = .next t)
    (hi : Claims.storesNothing i = true) : SameBus s t := by
  cases i
  case sta | stx | sty | inc | dec | jsr | brk | pha | php => exact absurd hi Bool.false_ne_true
  case ill op =>
    cases h
    exact ⟨rfl, rfl, rfl⟩
  case rti =>
    rw [exec_rti, returnFromInterrupt_eq] at h
    cases h
    exact ⟨rfl, rfl, rfl⟩
  all_goals simp only [exec] at h
  case asl m | lsr m | rol m | ror m =>
    obtain rfl := eq_acc_of_mode hi
    obtain ⟨n, k, rfl⟩ := performData_next h
    exact ⟨rfl, rfl, rfl⟩
  case lda m | ldx m | ldy m | adc m | sbc m | and m | ora m | eor m | cmp m | cpx m | cpy m | bit m =>
    obtain ⟨n, k, rfl⟩ := performLoad_next h
    exact ⟨rfl, rfl, rfl⟩
  case bcc d | bcs d | beq d | bne d | bmi d | bpl d | bvc d | bvs d =>
    obtain ⟨n, w, rfl⟩ := perform_branch_next h
    exact ⟨rfl, rfl, rfl⟩
  all_goals
    obtain ⟨n, k, rfl⟩ := performImplied_next h
    exact ⟨rfl, rfl, rfl⟩

/-- Settles O15: `sameBus_of_storesNothing`, and the same memory reads alike. -/
theorem formsThatStoreNothingKeepMemory : Obligations.FormsThatStoreNothingKeepMemory := by
  unfold Obligations.FormsThatStoreNothingKeepMemory
  intro i s t h hi
  have hbus := sameBus_of_storesNothing h hi
  exact ⟨hbus.1, fun a _ => hbus.readCell a, hbus.2⟩

end Sys2Proof.Machine
end

section
/-! PROOFS. The frames of the storing and pushing forms, the signals of changed cells, and a store to WSYNC over a whole
iteration (R20 to R28, R81, R303). -/

namespace Sys2Proof.Machine

/-! ### Storing forms: one write, and flags from the result -/

/-- The flags of a storing form: I, D, B and V are kept. -/
def KeepsIDBV (f g : Flags) : Prop := g.i = f.i ∧ g.d = f.d ∧ g.b = f.b ∧ g.v = f.v

/-- An operation that stores once to a resolved operand, with flags set. -/
def StoresOnce (o : Resolved) (op : State → State) : Prop :=
  ∀ t, ∃ v f, op t = setFlags f (store o v t) ∧ KeepsIDBV t.flags f

theorem storesOnce_store (r : State → Byte) (o : Resolved) : StoresOnce o fun t => store o (r t) t := fun t => by
  refine ⟨r t, (store o (r t) t).flags, rfl, ?_⟩
  rw [store_flags]
  exact ⟨rfl, rfl, rfl, rfl⟩

theorem storesOnce_applyShift (g : Byte → Bool → Shifted) (o : Resolved) : StoresOnce o (applyShift g o) :=
  fun _ => ⟨_, _, rfl, rfl, rfl, rfl, rfl⟩

theorem storesOnce_applyStep (g : Byte → Byte) (o : Resolved) : StoresOnce o (applyStep g o) := fun t => by
  refine ⟨_, _, rfl, ?_⟩
  rw [store_flags]
  exact ⟨rfl, rfl, rfl, rfl⟩

/-- The states that a storing form with operand form `m` can answer: one store, with flags set and the cost charged. -/
def StoredNext (m : Operand) (s t : State) : Prop :=
  ∃ n k v f, t = charge n (setFlags f (store (resolve m s) v (advancePC k s))) ∧ KeepsIDBV s.flags f

theorem performData_storesOnce {i : Instr} {m : Operand} {op : Resolved → State → State} {s t : State}
    (h : performData i m op s = .next t) (hop : ∀ o, StoresOnce o (op o)) : StoredNext m s t := by
  obtain ⟨n, k, rfl⟩ := performData_next h
  obtain ⟨v, f, heq, hf⟩ := hop (resolve m s) (advancePC k s)
  exact ⟨n, k, v, f, by rw [heq], hf⟩

theorem exec_storedNext {m : Operand} {s t : State} {i : Instr}
    (hi : i ∈ [.sta m, .stx m, .sty m, .inc m, .dec m, .asl m, .lsr m, .rol m, .ror m]) (h : exec i s = .next t) :
    StoredNext m s t := by
  simp only [List.mem_cons, List.not_mem_nil, or_false] at hi
  obtain rfl | rfl | rfl | rfl | rfl | rfl | rfl | rfl | rfl := hi
  all_goals simp only [exec] at h
  · exact performData_storesOnce h (storesOnce_store (·.a))
  · exact performData_storesOnce h (storesOnce_store (·.x))
  · exact performData_storesOnce h (storesOnce_store (·.y))
  · exact performData_storesOnce h (storesOnce_applyStep _)
  · exact performData_storesOnce h (storesOnce_applyStep _)
  · exact performData_storesOnce h (storesOnce_applyShift _)
  · exact performData_storesOnce h (storesOnce_applyShift _)
  · exact performData_storesOnce h (storesOnce_applyShift _)
  · exact performData_storesOnce h (storesOnce_applyShift _)

/-- With an operand that resolves to an address the store is a Processor write there. -/
theorem StoredNext.memWrite {m : Operand} {s t : State} (h : StoredNext m s t) {ea : Word}
    (hea : resolve m s = .addr ea) :
    ∃ n k v f, t = charge n (setFlags f (memWrite ea v (advancePC k s))) ∧ KeepsIDBV s.flags f := by
  obtain ⟨n, k, v, f, rfl, hf⟩ := h
  exact ⟨n, k, v, f, by rw [hea]; rfl, hf⟩

/-- Settles O16: the one write of `exec_storedNext` touches the masked address only. -/
theorem storingFormsChangeOneCell : Obligations.StoringFormsChangeOneCell := by
  unfold Obligations.StoringFormsChangeOneCell
  intro m s t ea i hi h hea
  obtain ⟨n, k, v, f, rfl, hflags⟩ := (exec_storedNext hi h).memWrite hea
  refine ⟨fun a ha => ?_, memWrite_a ea v _, memWrite_x ea v _, memWrite_y ea v _, memWrite_sp ea v _,
    memWrite_halted ea v _, hflags⟩
  exact readCell_memWrite_of_ne v (advancePC k s) fun h => ha (List.mem_singleton.2 h)

/-! ### Pushing forms: the stack cells from `SP` down -/

/-- The `n` stack cells from `SP` down. -/
def stackWindow (sp : Byte) (n : Nat) : List Addr :=
  (List.range n).map fun k => maskAddr (Claims.stackCell (sp - BitVec.ofNat 8 k))

theorem mem_stackWindow {sp : Byte} {n k : Nat} (hk : k < n) :
    maskAddr (stackAddr (sp - BitVec.ofNat 8 k)) ∈ stackWindow sp n :=
  List.mem_map.2 ⟨k, List.mem_range.2 hk, rfl⟩

/-- A push at a pointer of the window stays in the window. -/
theorem sameMemoryOutside_push {sp : Byte} {n k : Nat} (hk : k < n) {s t : State} (hsp : t.sp = sp - BitVec.ofNat 8 k)
    (h : Claims.SameMemoryOutside (stackWindow sp n) s t) (v : Byte) :
    Claims.SameMemoryOutside (stackWindow sp n) s (push v t) := by
  intro a ha
  have hne : a ≠ maskAddr (stackAddr t.sp) := by
    rintro rfl
    exact ha (hsp ▸ mem_stackWindow hk)
  rw [readCell_push, if_neg hne, h a ha]

theorem sameMemoryOutside_pushWord {n : Nat} (hn : 2 ≤ n) (w : Word) (s : State) :
    Claims.SameMemoryOutside (stackWindow s.sp n) s (pushWord w s) := by
  have h0 := sameMemoryOutside_push (k := 0) (n := n) (by omega) (BitVec.sub_zero s.sp).symm (fun _ _ => rfl) (hi8 w)
  exact sameMemoryOutside_push (k := 1) (by omega) (push_sp _ _) h0 (lo8 w)

/-- Settles O17: the pushes of each instruction stay in its window by `sameMemoryOutside_push`; the rest is what a push
keeps. -/
theorem pushesChangeOnlyTheirStackCells : Obligations.PushesChangeOnlyTheirStackCells := by
  unfold Obligations.PushesChangeOnlyTheirStackCells
  intro i s t n w hi h
  simp only [List.mem_cons, Prod.mk.injEq, List.not_mem_nil, or_false] at hi
  obtain ⟨rfl, rfl⟩ | ⟨rfl, rfl⟩ | ⟨rfl, rfl⟩ | ⟨rfl, rfl⟩ := hi
  · rw [exec_pha] at h
    cases h
    refine ⟨sameMemoryOutside_push (k := 0) (by omega) (BitVec.sub_zero s.sp).symm (fun _ _ => rfl) s.a, ?_⟩
    simp [Claims.costing]
  · rw [exec_php] at h
    cases h
    refine ⟨sameMemoryOutside_push (k := 0) (by omega) (BitVec.sub_zero s.sp).symm (fun _ _ => rfl) _, ?_⟩
    simp [Claims.costing]
  · rw [exec_jsr] at h
    cases h
    refine ⟨sameMemoryOutside_pushWord le_rfl _ s, ?_⟩
    simp [Claims.costing]
  · rw [exec_brk] at h
    cases h
    have hword := sameMemoryOutside_pushWord (n := 3) (by omega) ((advancePC 1 s).pc - 1) (advancePC 1 s)
    have hflags := sameMemoryOutside_push (k := 2) (by omega) (pushWord_sp _ _) hword
      (pack { (advancePC 1 s).flags with b := true })
    refine ⟨fun a ha => (readCell_congr (enterSoftwareInterrupt_mem (advancePC 1 s)) a).trans (hflags a ha),
      enterSoftwareInterrupt_sp (advancePC 1 s), ?_⟩
    simp [Claims.costing, enterSoftwareInterrupt_eq]

/-! ### What any instruction can do to memory and signals -/

/-- A stack cell is none of the registers' and not the port. -/
theorem stackWindow_range {sp : Byte} {n : Nat} {a : Addr} (h : a ∈ stackWindow sp n) :
    0x0100 ≤ a.toNat ∧ a.toNat < 0x0200 := by
  obtain ⟨k, -, rfl⟩ := List.mem_map.1 h
  have hcell : (maskAddr (Claims.stackCell (sp - BitVec.ofNat 8 k))).toNat = 256 + (sp - BitVec.ofNat 8 k).toNat :=
    stackAddr_toNat _
  have := (sp - BitVec.ofNat 8 k).isLt
  omega

/-- A write does not depend on where `PC` stands. -/
theorem sameBus_memWrite_advancePC (ea : Word) (v : Byte) (k : Nat) (s : State) :
    SameBus (memWrite ea v s) (memWrite ea v (advancePC k s)) := by
  rw [advancePC, memWrite_setPC]
  exact ⟨rfl, rfl, rfl⟩

/-- One store is nothing on the bus, or one Processor write. -/
theorem StoredNext.bus {m : Operand} {s t : State} (h : StoredNext m s t) :
    SameBus s t ∨ ∃ ea v, SameBus (Machine.memWrite ea v s) t := by
  cases hm : resolve m s with
  | addr ea =>
    obtain ⟨n, k, v, f, rfl, -⟩ := h.memWrite hm
    exact .inr ⟨ea, v, sameBus_memWrite_advancePC ea v k s⟩
  | acc =>
    obtain ⟨n, k, v, f, rfl, -⟩ := h
    rw [hm]
    exact .inl ⟨rfl, rfl, rfl⟩
  | imm b =>
    obtain ⟨n, k, v, f, rfl, -⟩ := h
    rw [hm]
    exact .inl ⟨rfl, rfl, rfl⟩

/-- An instruction leaves memory and signals, makes one Processor write, or changes stack cells only. -/
theorem exec_bus {i : Instr} {s t : State} (h : exec i s = .next t) :
    (SameBus s t ∨ ∃ ea v, SameBus (memWrite ea v s) t) ∨
      ∃ n, Claims.SameMemoryOutside (stackWindow s.sp n) s t := by
  by_cases hn : Claims.storesNothing i = true
  · exact .inl (.inl (sameBus_of_storesNothing h hn))
  · have hpush := pushesChangeOnlyTheirStackCells i s t
    cases i
    case sta m | stx m | sty m | inc m | dec m | asl m | lsr m | rol m | ror m =>
      exact .inl (exec_storedNext (m := m) (by simp) h).bus
    case pha => exact .inr ⟨1, (hpush 1 0 (by simp) h).1⟩
    case php => exact .inr ⟨1, (hpush 1 0 (by simp) h).1⟩
    case jsr w => exact .inr ⟨2, (hpush 2 w (by simp) h).1⟩
    case brk => exact .inr ⟨3, (hpush 3 0 (by simp) h).1⟩
    all_goals exact absurd rfl hn

/-- A cell that a Processor write changes is the masked one and not the port, and has left its signal. -/
theorem memWrite_changed_cell {w : Word} {v : Byte} {s : State} {a : Addr}
    (h : readCell a (memWrite w v s) ≠ readCell a s) :
    a ≠ 0x0282 ∧ (a.toNat ≤ 0x2C → (memWrite w v s).vidPending = some ⟨a, readCell a (memWrite w v s)⟩) ∧
      (0x0280 ≤ a.toNat ∧ a.toNat ≤ 0x0297 →
        (memWrite w v s).timPending = some ⟨a, readCell a (memWrite w v s)⟩) := by
  rw [readCell_memWrite] at h ⊢
  split at h
  · rename_i hcell
    obtain ⟨rfl, hport⟩ := hcell
    obtain ⟨hvideo, htimer⟩ := memWrite_signals hport v s
    rw [if_pos ⟨rfl, hport⟩, hvideo, htimer]
    exact ⟨hport, fun hr => if_pos hr, fun hr => if_pos hr⟩
  · exact absurd rfl h

/-- Settles O18: by `exec_bus`; a changed cell is that of the one write, by `memWrite_changed_cell`, or a stack cell,
which lies in no range. -/
theorem everyChangedRegisterCellIsSignalled : Obligations.EveryChangedRegisterCellIsSignalled := by
  unfold Obligations.EveryChangedRegisterCellIsSignalled
  intro i s t a h hchange
  rcases exec_bus h with (hbus | ⟨ea, v, hbus⟩) | ⟨n, hstack⟩
  · exact absurd (hbus.readCell a) hchange
  · rw [hbus.readCell a] at hchange ⊢
    rw [hbus.2.1, hbus.2.2]
    exact memWrite_changed_cell hchange
  · obtain ⟨hlo, hhi⟩ := stackWindow_range (by_contra fun ha => hchange (hstack a ha))
    refine ⟨?_, fun hr => ?_, fun hr => ?_⟩
    · rintro rfl
      exact absurd hhi (by decide)
    · omega
    · omega

/-! ### A store to WSYNC -/

/-- The handler of WSYNC, dispatched. -/
theorem dispatchVideo_wsync {s : State} {v : Byte} (h : s.vidPending = some ⟨0x02, v⟩) :
    dispatchVideo s = { s with vidPending := none, cyc := 228 } := by
  rw [dispatchVideo_eq_elim, h]
  exact videoWrite_vregAddr .wsync _

/-- With WSYNC pending the Arbiter's sequence ends the line. -/
theorem arbitrate_wsync {s : State} {v : Byte} (h : s.vidPending = some ⟨0x02, v⟩) (n : Nat) :
    (arbitrate n s).cyc = 0 ∧ (arbitrate n s).video.line = s.video.line + 1 := by
  obtain ⟨m, tm, hp, hshape, -⟩ := beforeLineCheck_shape n s
  rw [dispatchVideo_wsync h] at hshape
  have hend : Config.lineCycles ≤ (beforeLineCheck n s).cyc := by rw [hshape]
  obtain ⟨hcyc, hline, -⟩ := lineUpdate_counters (beforeLineCheck n s)
  rw [arbitrate_eq, checkLine, if_pos hend, hcyc, hline, hshape]
  exact ⟨Nat.mod_self 228, rfl⟩

/-- A storing form whose address masks to WSYNC's cell leaves the video signal for it. -/
theorem StoredNext.vidPending_wsync {m : Operand} {s t : State} (h : StoredNext m s t) {ea : Word}
    (hea : resolve m s = .addr ea) (hmask : ea.toNat % 8192 = 2) : ∃ v, t.vidPending = some ⟨0x02, v⟩ := by
  obtain ⟨n, k, v, f, rfl, -⟩ := h.memWrite hea
  have hcell : maskAddr ea = 0x02 := BitVec.eq_of_toNat_eq (by rw [toNat_maskAddr, hmask]; rfl)
  have hport : maskAddr ea ≠ Config.inputPort := by
    rw [hcell]
    decide
  have hsignal := (memWrite_signals hport v (advancePC k s)).1
  rw [hcell, if_pos (by decide)] at hsignal
  exact ⟨v, hsignal⟩

/-- Settles O60: the storing form leaves WSYNC's signal, and with it pending the Arbiter's sequence ends the line. -/
theorem wsyncEndsTheLine : Obligations.WsyncEndsTheLine := by
  unfold Obligations.WsyncEndsTheLine
  intro s m ea i _ hrun hi hfetch hea hmask
  obtain ⟨t, hstep⟩ := exists_step_of_not_halted hrun
  refine ⟨t, hstep, ?_⟩
  rcases step_next_cases hstep with ⟨op, hill, -⟩ | ⟨u, hu, hkeeps, -, rfl⟩
  · rw [hfetch] at hill
    simp [hill] at hi
  · rw [hfetch] at hu
    obtain ⟨v, hv⟩ := (exec_storedNext hi hu).vidPending_wsync hea hmask
    rw [← hkeeps.video]
    exact arbitrate_wsync hv u.stepCost

end Sys2Proof.Machine
end

section
/-! PROOFS. What the Processor's step does not read or write: the chips and the host (R137), registers and flags outside
an instruction's own (R20 to R25), and the flags I and B (R423). -/

namespace Sys2Proof.Machine

/-! ### The chips and the host replaced -/

section
variable (v : Video) (tm : Timer) (hp : HostPort)

/-- The state with VideoChip, TimerChip and host port replaced. -/
def withChips (s : State) : State := { s with video := v, timer := tm, hostPort := hp }

theorem resolve_withChips (m : Operand) (s : State) : resolve m (withChips v tm hp s) = resolve m s := by
  cases m <;> rfl

theorem crossed_withChips (m : Operand) (s : State) : crossed m (withChips v tm hp s) = crossed m s := by
  cases m <;> rfl

theorem load_withChips (o : Resolved) (s : State) : load o (withChips v tm hp s) = load o s := load_congr rfl rfl o

theorem memWrite_withChips (w : Word) (b : Byte) (s : State) :
    memWrite w b (withChips v tm hp s) = withChips v tm hp (memWrite w b s) := by
  unfold memWrite
  split <;> rfl

theorem store_withChips (o : Resolved) (b : Byte) (s : State) :
    store o b (withChips v tm hp s) = withChips v tm hp (store o b s) := by
  cases o with
  | acc => rfl
  | imm _ => rfl
  | addr ea => exact memWrite_withChips v tm hp ea b s

theorem push_withChips (b : Byte) (s : State) : push b (withChips v tm hp s) = withChips v tm hp (push b s) := by
  rw [push, memWrite_withChips]
  rfl

/-- The operation neither reads nor writes chips and host. -/
def ChipBlind (op : State → State) : Prop := ∀ t, op (withChips v tm hp t) = withChips v tm hp (op t)

variable {v tm hp}

theorem perform_withChips {op : State → Nat × State} (i : Instr) (c : Bool) (s : State)
    (hop : ∀ t, op (withChips v tm hp t) = ((op t).1, withChips v tm hp (op t).2)) :
    perform i c op (withChips v tm hp s) = Claims.mapNext (withChips v tm hp) (perform i c op s) := by
  unfold perform
  cases i.entry? with
  | none => rfl
  | some e =>
    have hadv : advancePC e.length (withChips v tm hp s) = withChips v tm hp (advancePC e.length s) := rfl
    simp only [hadv, hop]
    rfl

theorem performImplied_withChips {op : State → State} (i : Instr) (s : State) (hop : ChipBlind v tm hp op) :
    performImplied i op (withChips v tm hp s) = Claims.mapNext (withChips v tm hp) (performImplied i op s) :=
  perform_withChips i false s fun t => by rw [hop t]

theorem performData_withChips {op : Resolved → State → State} (i : Instr) (m : Operand) (s : State)
    (hop : ∀ o, ChipBlind v tm hp (op o)) :
    performData i m op (withChips v tm hp s) = Claims.mapNext (withChips v tm hp) (performData i m op s) := by
  rw [performData, resolve_withChips, crossed_withChips]
  exact perform_withChips i (crossed m s) s fun t => by rw [hop _ t]

theorem performLoad_withChips {op : Byte → State → State} (i : Instr) (m : Operand) (s : State)
    (hop : ∀ b, ChipBlind v tm hp (op b)) :
    performLoad i m op (withChips v tm hp s) = Claims.mapNext (withChips v tm hp) (performLoad i m op s) :=
  performData_withChips i m s fun o t => by rw [load_withChips, hop _ t]

theorem branch_withChips (c : Bool) (d : Byte) (s : State) :
    branch c d (withChips v tm hp s) = ((branch c d s).1, withChips v tm hp (branch c d s).2) := by
  cases c <;> rfl

theorem chipBlind_store {r : State → Byte} (hr : ∀ t, r (withChips v tm hp t) = r t) (o : Resolved) :
    ChipBlind v tm hp fun t => store o (r t) t := fun t => by
  simp only [hr, store_withChips]

theorem chipBlind_applyShift (g : Byte → Bool → Shifted) (o : Resolved) : ChipBlind v tm hp (applyShift g o) :=
  fun t => by
    simp only [applyShift, load_withChips, store_withChips]
    rfl

theorem chipBlind_applyStep (g : Byte → Byte) (o : Resolved) : ChipBlind v tm hp (applyStep g o) := fun t => by
  simp only [applyStep, load_withChips, store_withChips]
  rfl

theorem chipBlind_push {r : State → Byte} (hr : ∀ t, r (withChips v tm hp t) = r t) :
    ChipBlind v tm hp fun t => push (r t) t := fun t => by
  simp only [hr, push_withChips]

theorem chipBlind_jsr (w : Word) : ChipBlind v tm hp fun t => setPC w (pushWord (t.pc - 1) t) := fun t => by
  simp only [pushWord_eq, push_withChips]
  rfl

theorem chipBlind_enterSoftwareInterrupt : ChipBlind v tm hp enterSoftwareInterrupt := fun t => by
  simp only [enterSoftwareInterrupt_eq, push_eq]
  rfl

/-- With chips and host replaced an instruction gives the same outcome with them replaced. -/
theorem exec_withChips (i : Instr) (s : State) :
    exec i (withChips v tm hp s) = Claims.mapNext (withChips v tm hp) (exec i s) := by
  cases i
  case ill op => rfl
  all_goals simp only [exec]
  case lda m | ldx m | ldy m | adc m | sbc m | and m | ora m | eor m | cmp m | cpx m | cpy m | bit m =>
    exact performLoad_withChips _ m s fun _ _ => by rfl
  case sta m | stx m | sty m => exact performData_withChips _ m s (chipBlind_store fun _ => rfl)
  case asl m | lsr m | rol m | ror m => exact performData_withChips _ m s (chipBlind_applyShift _)
  case inc m | dec m => exact performData_withChips _ m s (chipBlind_applyStep _)
  case bcc d | bcs d | beq d | bne d | bmi d | bpl d | bvc d | bvs d =>
    exact perform_withChips _ false s fun t => branch_withChips _ d t
  case pha | php => exact performImplied_withChips _ s (chipBlind_push fun _ => rfl)
  case jsr w => exact performImplied_withChips _ s (chipBlind_jsr w)
  case brk => exact performImplied_withChips _ s chipBlind_enterSoftwareInterrupt
  all_goals exact performImplied_withChips _ s fun _ => by rfl

end

/-- Settles O13: `exec_withChips`. -/
theorem processorNeverTouchesChips : Obligations.ProcessorNeverTouchesChips := by
  unfold Obligations.ProcessorNeverTouchesChips
  exact fun i s _ _ _ => exec_withChips i s

/-! ### The writers of each register and flag -/

/-- What differs between two states is a register or flag that lists the mnemonic as a writer (R20 to R25). -/
def ChangedByWriters (mn : Mnemonic) (s t : State) : Prop :=
  (t.a ≠ s.a → mn ∈ [.lda, .txa, .tya, .adc, .sbc, .and, .ora, .eor, .asl, .lsr, .rol, .ror, .pla]) ∧
    (t.x ≠ s.x → mn ∈ [.ldx, .tax, .tsx, .inx, .dex]) ∧
    (t.y ≠ s.y → mn ∈ [.ldy, .tay, .iny, .dey]) ∧
    (t.sp ≠ s.sp → mn ∈ [.txs, .jsr, .rts, .rti, .brk, .pha, .pla, .php, .plp]) ∧
    (t.flags.c ≠ s.flags.c → mn ∈ [.adc, .sbc, .cmp, .cpx, .cpy, .asl, .lsr, .rol, .ror, .clc, .sec, .plp, .rti]) ∧
    (t.flags.v ≠ s.flags.v → mn ∈ [.adc, .sbc, .bit, .clv, .plp, .rti]) ∧
    (t.flags.i ≠ s.flags.i → mn ∈ [.sei, .cli, .brk, .plp, .rti]) ∧
    (t.flags.d ≠ s.flags.d → mn ∈ [.sed, .cld, .plp, .rti]) ∧
    (t.flags.b ≠ s.flags.b → mn ∈ [.brk, .plp, .rti]) ∧
    (t.flags.z ≠ s.flags.z ∨ t.flags.n ≠ s.flags.n →
      mn ∈ [.lda, .ldx, .ldy, .tax, .tay, .txa, .tya, .tsx, .adc, .sbc, .and, .ora, .eor, .cmp, .cpx, .cpy,
        .bit, .asl, .lsr, .rol, .ror, .inc, .dec, .inx, .iny, .dex, .dey, .pla, .plp, .rti])

@[simp] theorem setAlu_flags (r : Alu) (s : State) : (setAlu r s).flags = aluFlags r s.flags := rfl

/-- An instruction that answers, of a mnemonic with neither accumulator nor immediate form, resolves to an address. -/
theorem resolve_addr_of_next {i : Instr} {mn : Mnemonic} {m : Operand} {op : Resolved → State → State} {s t : State}
    (h : performData i m op s = .next t) (hi : i.mnemonic = mn ∧ i.mode = m.mode)
    (hmn : Mode.acc ∉ modesOf mn ∧ Mode.imm ∉ modesOf mn) : ∃ ea, resolve m s = .addr ea := by
  obtain ⟨e, he, -⟩ := perform_next h
  rw [Instr.entry?, hi.1, hi.2] at he
  exact resolve_addr_of_entry? he hmn.1 hmn.2 s

theorem exec_changedByWriters {i : Instr} {s t : State} (h : exec i s = .next t) :
    ChangedByWriters i.mnemonic s t := by
  cases i
  case ill op =>
    cases h
    simp [ChangedByWriters]
  case rti =>
    rw [exec_rti, returnFromInterrupt_eq] at h
    cases h
    simp [ChangedByWriters, Claims.costing, Instr.mnemonic]
  case rts =>
    rw [exec_rts, pullReturn_eq] at h
    cases h
    simp [ChangedByWriters, Claims.costing, Instr.mnemonic]
  case brk =>
    rw [exec_brk, enterSoftwareInterrupt_eq] at h
    cases h
    simp [ChangedByWriters, Claims.costing, Instr.mnemonic]
  all_goals simp only [exec] at h
  case lda m | ldx m | ldy m | adc m | sbc m | and m | ora m | eor m | cmp m | cpx m | cpy m | bit m =>
    obtain ⟨n, k, rfl⟩ := performLoad_next h
    simp [ChangedByWriters, Instr.mnemonic, setNZ, aluFlags, compareFlags, bitFlags]
  case asl m | lsr m | rol m | ror m =>
    obtain ⟨n, k, rfl⟩ := performData_next h
    simp [ChangedByWriters, Instr.mnemonic, applyShift, shiftFlags, setNZ]
  case sta m | stx m | sty m | inc m | dec m =>
    obtain ⟨ea, hea⟩ := resolve_addr_of_next h ⟨rfl, rfl⟩ (by simp [Instr.mnemonic, modesOf])
    obtain ⟨n, k, rfl⟩ := performData_next h
    rw [hea]
    simp [ChangedByWriters, Instr.mnemonic, applyStep, store, setNZ]
  case bcc d | bcs d | beq d | bne d | bmi d | bpl d | bvc d | bvs d =>
    obtain ⟨n, w, rfl⟩ := perform_branch_next h
    simp [ChangedByWriters]
  all_goals
    obtain ⟨n, k, rfl⟩ := performImplied_next h
    simp [ChangedByWriters, Instr.mnemonic, setNZ]

/-- Settles O14: `exec_changedByWriters`. -/
theorem registersChangeOnlyByTheirWriters : Obligations.RegistersChangeOnlyByTheirWriters := by
  unfold Obligations.RegistersChangeOnlyByTheirWriters
  exact fun _ _ _ h => exec_changedByWriters h

/-! ### I and B replaced -/

/-- The flags I and B replaced. -/
def setIB (fi fb : Bool) (f : Flags) : Flags := { f with i := fi, b := fb }

theorem withIB_eq_onFlags (fi fb : Bool) : Claims.withIB fi fb = onFlags (setIB fi fb) := rfl

/-- Every instruction but PHP and BRK gives the same outcome, up to I and B, whatever they were before it: no flag
computation and no branch condition reads them. -/
theorem exec_withIB {i : Instr} (hphp : i ≠ .php) (hbrk : i ≠ .brk) (s : State) (fi fb : Bool) :
    Claims.mapNext (Claims.withIB false false) (exec i (Claims.withIB fi fb s)) =
      Claims.mapNext (Claims.withIB false false) (exec i s) := by
  have hset : ∀ f, setIB false false (setIB fi fb f) = setIB false false f := fun _ => rfl
  have hcarry : ∀ f, (setIB fi fb f).c = f.c := fun _ => rfl
  have hshift : ∀ r f, setIB false false (shiftFlags r (setIB fi fb f)) = setIB false false (shiftFlags r f) :=
    fun _ _ => rfl
  have hstep : ∀ v f, setIB false false (setNZ v (setIB fi fb f)) = setIB false false (setNZ v f) := fun _ _ => rfl
  rw [withIB_eq_onFlags, withIB_eq_onFlags]
  cases i
  case php => exact absurd rfl hphp
  case brk => exact absurd rfl hbrk
  case ill op => rfl
  all_goals simp only [exec]
  case lda m | ldx m | ldy m | adc m | sbc m | and m | ora m | eor m | cmp m | cpx m | cpy m | bit m =>
    exact mapNext_performLoad_onFlags _ m s fun _ _ => by rfl
  case sta m | stx m | sty m => exact mapNext_performData_onFlags _ m s (ignores_store hset fun _ => rfl)
  case asl m | lsr m | rol m | ror m =>
    exact mapNext_performData_onFlags _ m s (ignores_applyShift hcarry hshift _)
  case inc m | dec m => exact mapNext_performData_onFlags _ m s (ignores_applyStep hstep _)
  case bcc k | bcs k | beq k | bne k | bmi k | bpl k | bvc k | bvs k =>
    exact mapNext_perform_branch_onFlags hset (fun _ => rfl) _ false k s
  case pha => exact mapNext_performImplied_onFlags _ s (ignores_push hset fun _ => rfl)
  case jsr w => exact mapNext_performImplied_onFlags _ s (ignores_jsr hset w)
  all_goals exact mapNext_performImplied_onFlags _ s fun _ => by rfl

/-- Settles O20: `exec_withIB`. -/
theorem interruptAndBreakFlagsHaveNoOtherEffect : Obligations.InterruptAndBreakFlagsHaveNoOtherEffect := by
  unfold Obligations.InterruptAndBreakFlagsHaveNoOtherEffect
  exact fun i s fi fb hphp hbrk => exec_withIB hphp hbrk s fi fb

end Sys2Proof.Machine
end

section
/-! PROOFS. The VideoChip's register-write handlers: positions, playfield, sync, collision clear, the registers without
effect, and the graphics registers (R300 to R337). -/

namespace Sys2Proof.Machine

/-! ### Positions -/

/-- The reduction modulo the line width as an integer (R10). -/
theorem wrapPos_coe (x : Int) : ((wrapPos x).val : Int) = x % 160 :=
  Int.toNat_of_nonneg (Int.emod_nonneg x (by decide))

/-- A position set modulo 160 in the words of the statements. -/
theorem exists_setPos (o : Obj) (x : Int) (s : State) : ∃ p : Fin 160, (p.val : Int) = x % 160 ∧
    setPos o x s = { s with video := { s.video with pos := s.video.pos.set o p } } :=
  ⟨wrapPos x, wrapPos_coe x, rfl⟩

/-- Settles O44: each reset register's handler sets its object's position. -/
theorem resetRegistersLatchPosition : Obligations.ResetRegistersLatchPosition := by
  unfold Obligations.ResetRegistersLatchPosition
  intro s r o adj hr
  rw [videoWrite_vregAddr]
  simp only [Claims.resetRegs, List.mem_cons, Prod.mk.injEq, List.not_mem_nil, or_false] at hr
  obtain ⟨rfl, rfl, rfl⟩ | ⟨rfl, rfl, rfl⟩ | ⟨rfl, rfl, rfl⟩ | ⟨rfl, rfl, rfl⟩ | ⟨rfl, rfl, rfl⟩ := hr
  · exact exists_setPos .p0 _ s
  · exact exists_setPos .p1 _ s
  · exact exists_setPos .m0 _ s
  · exact exists_setPos .m1 _ s
  · exact exists_setPos .bl _ s

/-- The signed high nibble of R335. -/
theorem snibHi_eq_toInt (b : Byte) : snibHi b = (b.extractLsb' 4 4).toInt := by
  revert b
  decide

/-- An object's position after HMOVE (R335). -/
def movedPos (o : Obj) (r : VReg) (s : State) : Fin Config.width :=
  wrapPos ((s.video.pos.get o).val + Config.hmoveSign * snibHi (readReg r s))

theorem movedPos_coe (o : Obj) (r : VReg) (s : State) : ((movedPos o r s).val : Int) =
    ((s.video.pos.get o).val + ((readReg r s).extractLsb' 4 4).toInt) % 160 := by
  rw [movedPos, wrapPos_coe, Config.hmoveSign, one_mul, snibHi_eq_toInt]

theorem Positions.get_set_of_ne (p : Positions) (x : Fin Config.width) {o o' : Obj} (h : o' ≠ o) :
    (p.set o x).get o' = p.get o' := by
  cases o <;> cases o' <;> first | rfl | exact absurd rfl h

/-- One object's position set. -/
def withPos (o : Obj) (p : Fin Config.width) (s : State) : State :=
  onVideo (fun v => { v with pos := v.pos.set o p }) s

theorem moveObj_eq (o : Obj) (r : VReg) (s : State) : moveObj o r s = withPos o (movedPos o r s) s := rfl

/-- A move does not read another object's position. -/
theorem movedPos_withPos {o o' : Obj} (h : o' ≠ o) (r : VReg) (p : Fin Config.width) (s : State) :
    movedPos o' r (withPos o p s) = movedPos o' r s := by
  have hpos : (withPos o p s).video.pos.get o' = s.video.pos.get o' := Positions.get_set_of_ne _ p h
  have hreg : readReg r (withPos o p s) = readReg r s := rfl
  rw [movedPos, hpos, hreg, movedPos]

/-- All positions set. -/
def withPositions (ps : Positions) (s : State) : State := { s with video := { s.video with pos := ps } }

theorem withPos_eq (o : Obj) (p : Fin Config.width) (s : State) :
    withPos o p s = withPositions (s.video.pos.set o p) s := rfl

theorem withPos_withPositions (o : Obj) (p : Fin Config.width) (ps : Positions) (s : State) :
    withPos o p (withPositions ps s) = withPositions (ps.set o p) s := rfl

/-- The positions set one after the other are all set. -/
theorem withPos_all (a b c d e : Fin Config.width) (s : State) :
    withPos .bl e (withPos .m1 d (withPos .m0 c (withPos .p1 b (withPos .p0 a s)))) =
      withPositions ⟨a, b, c, d, e⟩ s := by
  rw [withPos_eq .p0, withPos_withPositions, withPos_withPositions, withPos_withPositions, withPos_withPositions]
  rfl

/-- HMOVE moves the five objects at once. -/
theorem handleHmove_eq (s : State) : handleHmove s =
    withPositions ⟨movedPos .p0 .hmp0 s, movedPos .p1 .hmp1 s, movedPos .m0 .hmm0 s, movedPos .m1 .hmm1 s,
      movedPos .bl .hmbl s⟩ s := by
  simp only [handleHmove, moveObj_eq, movedPos_withPos, ne_eq, reduceCtorEq, not_false_eq_true, withPos_all]

/-- Settles O49: the positions by `handleHmove_eq`, each in the statement's words by `movedPos_coe`. -/
theorem hmoveAddsSignedNibbles : Obligations.HmoveAddsSignedNibbles := by
  unfold Obligations.HmoveAddsSignedNibbles
  intro s
  have hmove : videoWrite 0x2A s = handleHmove s := videoWrite_vregAddr .hmove s
  rw [hmove, handleHmove_eq]
  refine ⟨fun r o hr => ?_, rfl⟩
  simp only [Claims.motionRegs, List.mem_cons, Prod.mk.injEq, List.not_mem_nil, or_false] at hr
  obtain ⟨rfl, rfl⟩ | ⟨rfl, rfl⟩ | ⟨rfl, rfl⟩ | ⟨rfl, rfl⟩ | ⟨rfl, rfl⟩ := hr
  · exact movedPos_coe .p0 .hmp0 s
  · exact movedPos_coe .p1 .hmp1 s
  · exact movedPos_coe .m0 .hmm0 s
  · exact movedPos_coe .m1 .hmm1 s
  · exact movedPos_coe .bl .hmbl s

/-! ### Playfield and mirror -/

/-- R313 with a register's two thresholds: the left half takes the byte below the first, the right half below the
second. -/
theorem handlePlayfield_eq {k lo hi : Nat} (hlo : Config.pfTLeft.getD k 0 = lo) (hhi : Config.pfTRight.getD k 0 = hi)
    (hlt : lo < hi) (v : Byte) (s : State) : handlePlayfield k v s = { s with video := { s.video with
      pfLeft := if s.cyc < lo then s.video.pfLeft.set k v else s.video.pfLeft
      pfRight := if s.cyc < hi then s.video.pfRight.set k v else s.video.pfRight } } := by
  rw [handlePlayfield, hlo, hhi]
  by_cases hleft : s.cyc < lo
  · rw [if_pos hleft, if_pos hleft, if_pos (hleft.trans hlt)]
    rfl
  · rw [if_neg hleft, if_neg hleft]
    split <;> rfl

/-- Settles O46: the thresholds by `handlePlayfield_eq`, the mirror bit by the two cases of CTRLPF. -/
theorem playfieldAndMirrorObeyThresholds : Obligations.PlayfieldAndMirrorObeyThresholds := by
  unfold Obligations.PlayfieldAndMirrorObeyThresholds
  intro s
  constructor
  · intro r k lo hi hr
    rw [videoWrite_vregAddr]
    simp only [Claims.playfieldRegs, List.mem_cons, Prod.mk.injEq, List.not_mem_nil, or_false] at hr
    obtain ⟨rfl, rfl, rfl, rfl⟩ | ⟨rfl, rfl, rfl, rfl⟩ | ⟨rfl, rfl, rfl, rfl⟩ := hr
    · exact handlePlayfield_eq rfl rfl (by decide) _ s
    · exact handlePlayfield_eq rfl rfl (by decide) _ s
    · exact handlePlayfield_eq rfl rfl (by decide) _ s
  · have hwrite : videoWrite 0x0A s = handleCtrlpf (readCell 0x0A s) s := videoWrite_vregAddr .ctrlpf s
    rw [hwrite, handleCtrlpf]
    by_cases hmirror : s.cyc < 148
    · rw [if_pos hmirror, if_pos hmirror]
      rfl
    · rw [if_neg hmirror, if_neg hmirror]

/-! ### Sync, clear, and the registers without effect -/

/-- Settles O48: the two cases of VSYNC, and WSYNC's handler. -/
theorem syncRegisters : Obligations.SyncRegisters := by
  unfold Obligations.SyncRegisters
  intro s
  have hwrite : videoWrite 0x00 s = handleVsync (readCell 0x00 s) s := videoWrite_vregAddr .vsync s
  refine ⟨?_, videoWrite_vregAddr .wsync s⟩
  rw [hwrite, handleVsync, onVideo]
  by_cases hedge : s.video.vsyncPrev ≠ 0 ∧ readCell 0x00 s = 0
  · rw [if_pos hedge, if_pos hedge, hedge.2]
  · rw [if_neg hedge, if_neg hedge]

/-- R45: the collision latches are the cells 0x30 to 0x37. -/
theorem mem_latchCells (a : Addr) : a ∈ latchCells ↔ 0x30 ≤ a.toNat ∧ a.toNat ≤ 0x37 := by
  have hcells : latchCells = [0x30, 0x31, 0x32, 0x33, 0x34, 0x35, 0x36, 0x37] := rfl
  simp only [hcells, List.mem_cons, List.not_mem_nil, or_false]
  bv_omega

/-- Settles O51: the handler zeroes the latch cells, by `readCell_zeroCells`, and nothing but memory, by
`zeroCells_shape`. -/
theorem cxclrZeroesCollisionLatches : Obligations.CxclrZeroesCollisionLatches := by
  unfold Obligations.CxclrZeroesCollisionLatches
  intro s
  have hclear : videoWrite 0x2C s = zeroCells latchCells s := videoWrite_vregAddr .cxclr s
  rw [hclear]
  refine ⟨fun a => ?_, ?_⟩
  · simp only [readCell_zeroCells, mem_latchCells]
  · obtain ⟨m, hm⟩ := zeroCells_shape latchCells s
    rw [hm]

/-- R302, R304, R312: the registers without handler. -/
theorem handleReg_of_inert {r : VReg} (hr : r ∈ Claims.inertRegs) (v : Byte) (s : State) : handleReg r v s = s := by
  cases r
  case vblank | audc0 | audc1 | audf0 | audf1 | audv0 | audv1 | vdelp0 | vdelp1 | vdelbl | rsync | nusiz0 | nusiz1 |
      colup0 | colup1 | colupf | refp0 | refp1 | hmp0 | hmp1 | hmm0 | hmm1 | hmbl => rfl
  all_goals exact absurd hr (by decide)

/-- R333 and R334 for a missile and its player. -/
theorem exists_handleResmp (mi pl : Obj) (v : Byte) (s : State) :
    ∃ p : Fin 160, (p.val : Int) = ((s.video.pos.get pl).val + Config.resmpOffset) % 160 ∧
      handleResmp mi pl v s =
        if v.getLsbD 1 then { s with video := { s.video with pos := s.video.pos.set mi p } } else s := by
  obtain ⟨p, hp, hset⟩ := exists_setPos mi ((s.video.pos.get pl).val + Config.resmpOffset) s
  exact ⟨p, hp, by rw [handleResmp, hset, testBit]⟩

/-- Settles O52: `handleReg_of_inert`, and `exists_handleResmp` for both missiles. -/
theorem inertRegistersAndResmp : Obligations.InertRegistersAndResmp := by
  unfold Obligations.InertRegistersAndResmp
  refine ⟨fun s r hr => ?_, fun s r mi pl hr => ?_⟩
  · rw [videoWrite_vregAddr, handleReg_of_inert hr]
  · rw [videoWrite_vregAddr]
    simp only [List.mem_cons, Prod.mk.injEq, List.not_mem_nil, or_false] at hr
    obtain ⟨rfl, rfl, rfl⟩ | ⟨rfl, rfl, rfl⟩ := hr
    · exact exists_handleResmp .m0 .p0 _ s
    · exact exists_handleResmp .m1 .p1 _ s

/-! ### The copy table -/

/-- A row of the copy table (R305) in the model's two functions. -/
theorem copyTable_getD {mode : Nat} (h : mode < 8) :
    Claims.copyTable.getD mode ([0], 1) = (copyOffsets mode, playerScale mode) := by
  interval_cases mode <;> rfl

theorem copyRow_eq (a : Addr) (s : State) :
    Claims.copyRow a s = (copyOffsets (copyMode (readCell a s)), playerScale (copyMode (readCell a s))) :=
  copyTable_getD (Nat.mod_lt _ (by decide))

/-- The copies the table gives an object are the model's. -/
theorem copiesOf_eq (s : State) (o : Obj) : Claims.copiesOf s o = offsetsOf o s := by
  cases o with
  | bl => rfl
  | _ =>
    rw [Claims.copiesOf, copyRow_eq]
    rfl

theorem copyOffsets_length_le (mode : Nat) : (copyOffsets mode).length ≤ 3 := by
  unfold copyOffsets
  split <;> decide

/-- An object has at most three copies, and the ball one. -/
theorem offsetsOf_length_le (o : Obj) (s : State) :
    (offsetsOf o s).length ≤ 3 ∧ (o = .bl → (offsetsOf o s).length ≤ 1) := by
  cases o with
  | bl => exact ⟨Nat.le_add_left 1 2, fun _ => le_rfl⟩
  | _ => exact ⟨copyOffsets_length_le _, nofun⟩

/-! ### Copy slots -/

/-- The slot indexes an object has (R37). -/
def ValidSlot (o : Obj) (k : Nat) : Prop := k < 3 ∧ (o = .bl → k = 0)

theorem Triple.get_set {α : Type} (t : Triple α) (v : α) {k n : Nat} (hk : k < 3) (hn : n < 3) :
    (t.set k v).get n = if n = k then v else t.get n := by
  interval_cases k <;> interval_cases n <;> rfl

theorem Slots.get_set (t : Slots) (v : Byte) {o : Obj} {k n : Nat} (hk : ValidSlot o k) (hn : ValidSlot o n) :
    (t.set o k v).get o n = if n = k then v else t.get o n := by
  cases o with
  | bl =>
    obtain rfl := hk.2 rfl
    obtain rfl := hn.2 rfl
    rfl
  | _ => exact Triple.get_set _ v hk.1 hn.1

theorem Slots.get_set_of_ne (t : Slots) (v : Byte) {o o' : Obj} (h : o' ≠ o) (k n : Nat) :
    (t.set o k v).get o' n = t.get o' n := by
  cases o with
  | bl =>
    have hset : t.set .bl k v = if k = 0 then { t with bl := v } else t := rfl
    rw [hset]
    split
    · cases o' <;> first | rfl | exact absurd rfl h
    · rfl
  | _ => cases o' <;> first | rfl | exact absurd rfl h

/-! ### Graphics writes -/

/-- A latch of graphics touches the slots only. -/
theorem latchFrom_shape (o : Obj) (b : Byte) (s : State) (k : Nat) (offs : List Nat) (t : State) :
    ∃ sl, latchFrom o b s k offs t = { t with video := { t.video with slots := sl } } := by
  induction offs generalizing k t with
  | nil => exact ⟨t.video.slots, rfl⟩
  | cons off offs ih =>
    unfold latchFrom
    split
    · exact ih (k + 1) (setSlot o k b t)
    · exact ih (k + 1) t

/-- No other object's slot is touched. -/
theorem latchFrom_get_of_ne {o o' : Obj} (h : o' ≠ o) (b : Byte) (s : State) (k n : Nat) (offs : List Nat) (t : State) :
    (latchFrom o b s k offs t).video.slots.get o' n = t.video.slots.get o' n := by
  induction offs generalizing k t with
  | nil => rfl
  | cons off offs ih =>
    rw [latchFrom, ih]
    split
    · exact Slots.get_set_of_ne _ b h k n
    · rfl

/-- R325 for the copies `offs` from slot `k` on: a slot takes the byte when it is among them and the beam has not passed
its copy's start pixel. -/
theorem latchFrom_get {o : Obj} (b : Byte) (s : State) {k n : Nat} {offs : List Nat} (t : State)
    (hoffs : ∀ i < offs.length, ValidSlot o (k + i)) (hn : ValidSlot o n) :
    (latchFrom o b s k offs t).video.slots.get o n =
      if k ≤ n ∧ n < k + offs.length ∧ beam s ≤ (copyStart o (offs.getD (n - k) 0) s : Int) then b
      else t.video.slots.get o n := by
  induction offs generalizing k t with
  | nil =>
    rw [latchFrom, if_neg]
    rintro ⟨h1, h2, -⟩
    rw [List.length_nil] at h2
    omega
  | cons off offs ih =>
    have hk : ValidSlot o k := hoffs 0 (by simp)
    have hrest : ∀ i < offs.length, ValidSlot o (k + 1 + i) := fun i hi => by
      rw [Nat.add_right_comm]
      exact hoffs (i + 1) (by simpa using hi)
    have hslot : (if beam s ≤ (copyStart o off s : Int) then setSlot o k b t else t).video.slots.get o n =
        if n = k ∧ beam s ≤ (copyStart o off s : Int) then b else t.video.slots.get o n := by
      by_cases hbeam : beam s ≤ (copyStart o off s : Int)
      · simp only [hbeam, and_true]
        exact Slots.get_set _ b hk hn
      · simp only [hbeam, and_false, if_false]
    rw [latchFrom, ih _ hrest, hslot, List.length_cons]
    by_cases hnk : n = k
    · subst hnk
      rw [if_neg (by omega), Nat.sub_self, List.getD_cons_zero]
      exact if_congr (by omega) rfl rfl
    · have hlow : ¬(n = k ∧ beam s ≤ (copyStart o off s : Int)) := fun h => hnk h.1
      rw [if_neg hlow]
      by_cases hge : k + 1 ≤ n
      · rw [show n - k = n - (k + 1) + 1 by omega, List.getD_cons_succ]
        exact if_congr (by omega) rfl rfl
      · rw [if_neg (by omega), if_neg (by omega)]

/-- R320 to R324: the graphics registers run the latch of their object. -/
theorem videoWrite_graphics {r : Addr} {o : Obj} (h : (r, o) ∈ Claims.graphicsRegs) (s : State) :
    videoWrite r s = latchFrom o (readCell r s) s 0 (offsetsOf o s) s := by
  simp only [Claims.graphicsRegs, List.mem_cons, Prod.mk.injEq, List.not_mem_nil, or_false] at h
  obtain ⟨rfl, rfl⟩ | ⟨rfl, rfl⟩ | ⟨rfl, rfl⟩ | ⟨rfl, rfl⟩ | ⟨rfl, rfl⟩ := h
  · exact videoWrite_vregAddr .grp0 s
  · exact videoWrite_vregAddr .grp1 s
  · exact videoWrite_vregAddr .enam0 s
  · exact videoWrite_vregAddr .enam1 s
  · exact videoWrite_vregAddr .enabl s

/-- Settles O45: the slots of the object by `latchFrom_get`, the others by `latchFrom_get_of_ne`, the rest by
`latchFrom_shape`. -/
theorem graphicsWritesReachUndrawnCopies : Obligations.GraphicsWritesReachUndrawnCopies := by
  unfold Obligations.GraphicsWritesReachUndrawnCopies
  intro s r o hr
  obtain ⟨hlen, hball⟩ := offsetsOf_length_le o s
  have hvalid : ∀ i < (offsetsOf o s).length, ValidSlot o (0 + i) := fun i hi =>
    ⟨by omega, fun ho => by have := hball ho; omega⟩
  rw [videoWrite_graphics hr, copiesOf_eq]
  refine ⟨fun k hk => ?_, fun k hk hk3 ho => ?_, fun o' ho' k => latchFrom_get_of_ne ho' _ s 0 k _ s, ?_⟩
  · have hslot : ValidSlot o k := Nat.zero_add k ▸ hvalid k hk
    rw [latchFrom_get _ s s hvalid hslot]
    refine if_congr ?_ rfl rfl
    simp only [Nat.zero_le, Nat.zero_add, hk, Nat.sub_zero, true_and]
    rfl
  · rw [latchFrom_get _ s s hvalid ⟨hk3, fun h => absurd h ho⟩, if_neg (by omega)]
  · obtain ⟨sl, hsl⟩ := latchFrom_shape o (readCell r s) s 0 (offsetsOf o s) s
    rw [hsl]

end Sys2Proof.Machine
end

section
/-! PROOFS. The commit: re-latch, masks, painting, and the collision latches (R350 to R362). -/

namespace Sys2Proof.Machine

/-! ### The re-latch -/

/-- The commit keeps every register of the video range (R361 reads them after it). -/
theorem readReg_lineUpdate {r : VReg} (hr : Config.chipCell (vregAddr r) = false) (s : State) :
    readReg r (lineUpdate s) = readReg r s := readCell_lineUpdate s hr

theorem lineUpdate_pos (s : State) : (lineUpdate s).video.pos = s.video.pos := by
  unfold lineUpdate
  split
  · obtain ⟨m, f, h⟩ := renderLine_shape s
    rw [h]
    rfl
  · rfl

/-- The playfield halves after the commit. -/
theorem lineUpdate_playfield (s : State) :
    (lineUpdate s).video.pfLeft = ⟨readReg .pf0 s, readReg .pf1 s, readReg .pf2 s⟩ ∧
      (lineUpdate s).video.pfRight = ⟨readReg .pf0 s, readReg .pf1 s, readReg .pf2 s⟩ := by
  have h0 : readReg .pf0 (lineUpdate s) = readReg .pf0 s := readReg_lineUpdate rfl s
  have h1 : readReg .pf1 (lineUpdate s) = readReg .pf1 s := readReg_lineUpdate rfl s
  have h2 : readReg .pf2 (lineUpdate s) = readReg .pf2 s := readReg_lineUpdate rfl s
  rw [← h0, ← h1, ← h2]
  exact ⟨rfl, rfl⟩

theorem lineUpdate_mirror (s : State) : (lineUpdate s).video.mirror = testBit (readReg .ctrlpf s) 0 :=
  congrArg (testBit · 0) (readReg_lineUpdate (r := .ctrlpf) rfl s)

/-- The copy slots after the commit. -/
theorem lineUpdate_slots (s : State) : (lineUpdate s).video.slots =
    { p0 := Triple.const (readReg .grp0 s), p1 := Triple.const (readReg .grp1 s)
      m0 := Triple.const (readReg .enam0 s), m1 := Triple.const (readReg .enam1 s), bl := readReg .enabl s } := by
  have h0 : readReg .grp0 (lineUpdate s) = readReg .grp0 s := readReg_lineUpdate rfl s
  have h1 : readReg .grp1 (lineUpdate s) = readReg .grp1 s := readReg_lineUpdate rfl s
  have h2 : readReg .enam0 (lineUpdate s) = readReg .enam0 s := readReg_lineUpdate rfl s
  have h3 : readReg .enam1 (lineUpdate s) = readReg .enam1 s := readReg_lineUpdate rfl s
  have h4 : readReg .enabl (lineUpdate s) = readReg .enabl s := readReg_lineUpdate rfl s
  rw [← h0, ← h1, ← h2, ← h3, ← h4]
  rfl

theorem Triple.get_const {α : Type} (v : α) (k : Nat) : (Triple.const v).get k = v := by
  unfold Triple.get
  split <;> rfl

/-- Settles O54: one lemma per descriptor. -/
theorem commitRelatchesDescriptors : Obligations.CommitRelatchesDescriptors := by
  unfold Obligations.CommitRelatchesDescriptors
  intro s
  obtain ⟨hleft, hright⟩ := lineUpdate_playfield s
  refine ⟨hleft, hright, lineUpdate_mirror s, fun k => ?_, lineUpdate_bg s, lineUpdate_pos s⟩
  rw [lineUpdate_slots]
  exact ⟨Triple.get_const _ k, Triple.get_const _ k, Triple.get_const _ k, Triple.get_const _ k, rfl⟩

/-! ### The masks -/

/-- The 20 bits of a half in the order of R351. -/
theorem playfieldAt_eq (t : Triple Byte) {n : Nat} (hn : n < 20) : Claims.playfieldAt t n = playfieldBit t n := by
  interval_cases n <;> rfl

theorem playfieldMask_iff (v : Video) {x : Nat} (hx : x < 160) :
    playfieldMask v x = true ↔ Claims.PlayfieldCovers v x := by
  unfold playfieldMask Claims.PlayfieldCovers
  by_cases hleft : x < 80
  · rw [if_pos hleft, if_pos hleft, playfieldAt_eq _ (by omega)]
  · rw [if_neg hleft, if_neg hleft]
    cases v.mirror
    · rw [playfieldAt_eq _ (by simp only [Bool.false_eq_true, if_false]; omega)]
      rfl
    · rw [playfieldAt_eq _ (by simp only [if_true]; omega)]
      rfl

/-- The width of an object's pixels in the statements' words. -/
theorem pixelWidth_eq (o : Obj) (s : State) : pixelWidth o s = Claims.bitPixels s o := by
  cases o with
  | p0 | p1 =>
    rw [Claims.bitPixels, copyRow_eq]
    rfl
  | m0 | m1 | bl => rfl

theorem playerBits_getD (g : Byte) (reflected : Bool) {i : Nat} (hi : i < 8) :
    (playerBits g reflected).getD i false = g.getLsbD (if reflected then i else 7 - i) := by
  rw [playerBits, List.getD_eq_getElem _ _ (by simpa using hi), List.getElem_map, List.getElem_range]
  cases reflected <;> rfl

/-- The bits an object draws for a byte, in the statements' words. -/
theorem slotBits_getD (o : Obj) (g : Byte) (s : State) {i : Nat} (hi : i < 8) :
    (slotBits o g s).getD i false = Claims.drawnBit s o g i := by
  cases o with
  | p0 | p1 => exact playerBits_getD g _ hi
  | m0 | m1 | bl =>
    cases i with
    | zero => rfl
    | succ i => rfl

theorem slotBits_length_le (o : Obj) (g : Byte) (s : State) : (slotBits o g s).length ≤ 8 := by
  cases o with
  | p0 | p1 => simp [slotBits, playerBits]
  | m0 | m1 | bl => exact Nat.le_add_left 1 7

/-- A stamped copy (R352) in the statements' words. -/
theorem stamp_slotBits_iff (o : Obj) (g : Byte) (s : State) (start w x : Nat) :
    stamp start (slotBits o g s) w x = true ↔
      ∃ i < 8, ∃ j < w, Claims.drawnBit s o g i = true ∧ x = (start + i * w + j) % 160 := by
  rw [stamp_eq_true]
  constructor
  · rintro ⟨i, hi, hbit, j, hj, rfl⟩
    have hi8 : i < 8 := hi.trans_le (slotBits_length_le o g s)
    exact ⟨i, hi8, j, hj, (slotBits_getD o g s hi8) ▸ hbit, rfl⟩
  · rintro ⟨i, hi8, j, hj, hbit, rfl⟩
    rw [← slotBits_getD o g s hi8] at hbit
    refine ⟨i, ?_, hbit, j, hj, rfl⟩
    by_contra hi
    rw [List.getD_eq_default _ _ (by omega)] at hbit
    cases hbit

theorem objectMask_iff (o : Obj) (s : State) (x : Nat) :
    objectMask o s x = true ↔ Claims.ObjectCovers s o x := by
  have hstart (n i j w : Nat) : (copyStart o n s + i * w + j) % 160 =
      ((s.video.pos.get o).val + n + i * w + j) % 160 := by
    simp only [copyStart, Config.width]
    omega
  simp only [objectMask, copiesMask_eq_true, stamp_slotBits_iff, hstart, Nat.zero_add, Claims.ObjectCovers,
    copiesOf_eq, pixelWidth_eq]

/-- R351 to R356: every layer's mask holds where the layer covers. -/
theorem masks_iff (s : State) (l : Layer) {x : Nat} (hx : x < 160) : masks s l x = true ↔ Claims.Covers s l x := by
  cases l with
  | pf => exact playfieldMask_iff s.video hx
  | p0 => exact objectMask_iff .p0 s x
  | p1 => exact objectMask_iff .p1 s x
  | m0 => exact objectMask_iff .m0 s x
  | m1 => exact objectMask_iff .m1 s x
  | bl => exact objectMask_iff .bl s x

/-! ### Painting -/

/-- The background by the last entry that starts at or before the pixel (R358). -/
theorem backgroundAt_eq (bg : Timeline) (x : Nat) : backgroundAt bg x = Claims.backgroundColour bg x := by
  obtain ⟨first, later⟩ := bg
  induction later using List.reverseRecOn with
  | nil => rfl
  | append_singleton later e ih =>
    have happ := backgroundAt_append ⟨first, later⟩ e x
    simp only at happ
    rw [happ, ih, Claims.backgroundColour, Claims.backgroundColour, List.filter_append]
    by_cases he : e.off ≤ x + 68
    · simp [he]
    · simp [he]

/-- The layers from the top down give the colour that painting them bottom up leaves (R358). -/
theorem colourAt_latchCollisions (s : State) (x : Nat) :
    colourAt (masks s) (latchCollisions (masks s) s) x = Claims.topColour s x := by
  have hbg : (latchCollisions (masks s) s).video.bg = s.video.bg := by
    obtain ⟨m, hm⟩ := latchCollisions_shape (masks s) s
    rw [hm]
  simp only [colourAt, playfieldColour, readReg_latchCollisions, hbg, backgroundAt_eq]
  rfl

theorem visible_iff (v : Video) : visible v = true ↔ 40 ≤ v.line ∧ v.line < 232 := by simp [visible]

/-- R359: every row but that of a visible line stays. -/
theorem lineUpdate_row_of_ne {s : State} {row : Nat} (hr : row < 192)
    (h : ¬(40 ≤ s.video.line ∧ s.video.line < 232 ∧ row = s.video.line - 40)) :
    (lineUpdate s).video.frame[row] = s.video.frame[row] := by
  simp only [lineUpdate_frame]
  split
  · rename_i hvis
    rw [visible_iff] at hvis
    have hne : s.video.line - Config.visFirst ≠ row := by
      simp only [Config.visFirst]
      omega
    exact Vector.getElem_setIfInBounds_ne _ hne
  · rfl

/-- Settles O56: the masks by `masks_iff`; the delivered row by `lineUpdate_pixel` and `colourAt_latchCollisions`, every
other row by `lineUpdate_row_of_ne`. -/
theorem commitPaintsTopmostLayer : Obligations.CommitPaintsTopmostLayer := by
  unfold Obligations.CommitPaintsTopmostLayer
  refine ⟨fun s l x hx => masks_iff s l hx, fun s row hr x hx => ?_⟩
  by_cases hrow : 40 ≤ s.video.line ∧ s.video.line < 232 ∧ row = s.video.line - 40
  · rw [if_pos hrow, lineUpdate_pixel hr hx (by omega), colourAt_latchCollisions, col]
  · rw [if_neg hrow, lineUpdate_row_of_ne hr hrow]

/-! ### The collision latches -/

/-- The latch table of R357 is the model's list of pairs. -/
theorem latchTable_eq : Claims.latchTable = pairs.map fun p => (p.a, p.b, pairCell p, p.bit) := rfl

/-- A bit after another bit was set. -/
theorem getLsbD_or_bit (v : Byte) {b k : Nat} (hk : k < 8) :
    (v ||| BitVec.ofNat 8 (2 ^ b)).getLsbD k = true ↔ v.getLsbD k = true ∨ b = k := by
  rw [BitVec.getLsbD_or, BitVec.getLsbD_ofNat, Nat.testBit_two_pow]
  simp [hk]

/-- One pair of the collision step (R357). -/
theorem latchPair_bit (ms : Layer → Mask) (s : State) (p : Pair) (a : Addr) {k : Nat} (hk : k < 8) :
    (readCell a (latchPair ms s p)).getLsbD k = true ↔
      (readCell a s).getLsbD k = true ∨ (pairCell p = a ∧ p.bit = k ∧ overlaps (ms p.a) (ms p.b) = true) := by
  unfold latchPair
  split
  · rename_i hoverlap
    rw [readCell_writeCell]
    split
    · rename_i ha
      subst ha
      simp only [getLsbD_or_bit _ hk, hoverlap, true_and, and_true]
    · rename_i ha
      simp only [Ne.symm ha, false_and, or_false]
  · rename_i hoverlap
    simp [hoverlap]

/-- The collision step over a list of pairs. -/
theorem foldl_latchPair_bit (ms : Layer → Mask) (s : State) (ps : List Pair) (a : Addr) {k : Nat} (hk : k < 8) :
    (readCell a (ps.foldl (latchPair ms) s)).getLsbD k = true ↔
      (readCell a s).getLsbD k = true ∨
        ∃ p ∈ ps, pairCell p = a ∧ p.bit = k ∧ overlaps (ms p.a) (ms p.b) = true := by
  induction ps generalizing s with
  | nil => simp
  | cons p ps ih => simp only [List.foldl_cons, ih, latchPair_bit ms s p a hk, or_assoc, List.exists_mem_cons_iff]

/-- The pairs that overlap on the line, in the statements' words. -/
theorem exists_overlapping_pair_iff (s : State) (a : Addr) (k : Nat) :
    (∃ p ∈ pairs, pairCell p = a ∧ p.bit = k ∧ overlaps (masks s p.a) (masks s p.b) = true) ↔
      ∃ l m, (l, m, a, k) ∈ Claims.latchTable ∧ ∃ x < 160, Claims.Covers s l x ∧ Claims.Covers s m x := by
  have hcovers (l m : Layer) : overlaps (masks s l) (masks s m) = true ↔
      ∃ x < 160, Claims.Covers s l x ∧ Claims.Covers s m x := by
    rw [overlaps_eq_true]
    exact exists_congr fun x => and_congr_right fun hx => and_congr (masks_iff s l hx) (masks_iff s m hx)
  simp only [latchTable_eq, List.mem_map, Prod.mk.injEq]
  constructor
  · rintro ⟨p, hp, rfl, rfl, hov⟩
    exact ⟨p.a, p.b, ⟨p, hp, rfl, rfl, rfl, rfl⟩, (hcovers _ _).1 hov⟩
  · rintro ⟨l, m, ⟨p, hp, rfl, rfl, rfl, rfl⟩, hx⟩
    exact ⟨p, hp, rfl, rfl, (hcovers _ _).2 hx⟩

/-- Settles O55: the collision step over all pairs on a visible line, and unchanged memory on any other. -/
theorem commitLatchesCollisions : Obligations.CommitLatchesCollisions := by
  unfold Obligations.CommitLatchesCollisions
  intro s a k hk
  rw [← exists_overlapping_pair_iff]
  have hmem := lineUpdate_mem s
  by_cases hvis : visible s.video = true
  · rw [if_pos hvis] at hmem
    obtain ⟨hfirst, hlast⟩ := (visible_iff s.video).1 hvis
    rw [readCell_congr hmem, latchCollisions, foldl_latchPair_bit _ s pairs a hk]
    simp only [hfirst, hlast, true_and]
  · rw [if_neg hvis] at hmem
    rw [readCell_congr hmem]
    have hline : ¬(40 ≤ s.video.line ∧ s.video.line < 232) := fun h => hvis ((visible_iff s.video).2 h)
    exact ⟨.inl, fun h => h.resolve_right fun ⟨hfirst, hlast, _⟩ => hline ⟨hfirst, hlast⟩⟩

end Sys2Proof.Machine
end

section
/-! PROOFS. The TimerChip's tick and trigger writes, and the host's frame service (R392, R400, R401, R412). -/

namespace Sys2Proof.Machine

/-! ### The timer -/

theorem ne_of_notMem_singleton {a b : Addr} (h : a ∉ [b]) : a ≠ b := fun hab => h (List.mem_singleton.2 hab)

/-- A tick takes the quotient off the countdown and keeps the remainder (R401). -/
theorem timerTick_counts (n : Nat) (s : State) :
    readCell Config.intim (timerTick n s) =
        readCell Config.intim s - BitVec.ofNat 8 ((s.timer.acc + n) / s.timer.pre.cycles) ∧
      (timerTick n s).timer.acc + (s.timer.acc + n) / s.timer.pre.cycles * s.timer.pre.cycles = s.timer.acc + n ∧
      (timerTick n s).timer.acc < s.timer.pre.cycles ∧ (timerTick n s).timer.pre = s.timer.pre :=
  ⟨readCell_writeCell_self _ _ _, Nat.mod_add_div' _ _, Nat.mod_lt _ (Prescaler.cycles_pos _), rfl⟩

/-- A write to a trigger cell loads its byte, selects its interval and clears the remainder (R400). -/
theorem timerWrite_trigger {a : Addr} {p : Prescaler} (h : timerTrigger a = some p) (s : State) :
    readCell Config.intim (timerWrite a s) = readCell a s ∧ (timerWrite a s).timer = ⟨p, 0⟩ := by
  simp only [timerWrite, h]
  exact ⟨readCell_writeCell_self _ _ _, rfl⟩

/-- A write to any other cell is ignored (R400). -/
theorem timerWrite_of_not_trigger {a : Addr} (h : timerTrigger a = none) (s : State) : timerWrite a s = s := by
  simp only [timerWrite, h]

/-- `TIMER_TRIG` (R400): no other cell is a trigger. -/
theorem timerTrigger_eq_none {a : Addr} (h : a ∉ ([0x0294, 0x0295, 0x0296, 0x0297] : List Addr)) :
    timerTrigger a = none := by
  simp only [List.mem_cons, List.not_mem_nil, or_false, not_or] at h
  obtain ⟨h1, h8, h64, h1024⟩ := h
  rw [timerTrigger, if_neg h1, if_neg h8, if_neg h64, if_neg h1024]

/-- Settles O57: the tick by `timerTick_counts`, the trigger cells by `timerWrite_trigger`, every other cell by
`timerWrite_of_not_trigger`; both store to the countdown cell only. -/
theorem timerCountsWholeIntervals : Obligations.TimerCountsWholeIntervals := by
  unfold Obligations.TimerCountsWholeIntervals
  refine ⟨fun n s => ?_, fun a s => ⟨fun p hp => ?_, fun ha => ?_⟩⟩
  · obtain ⟨hcell, hacc, hlt, hpre⟩ := timerTick_counts n s
    exact ⟨_, hcell, hacc, hlt, hpre, fun k hk => readCell_timerTick n s (ne_of_notMem_singleton hk)⟩
  · have htrigger : timerTrigger a = some p := by
      simp only [List.mem_cons, Prod.mk.injEq, List.not_mem_nil, or_false] at hp
      obtain ⟨rfl, rfl⟩ | ⟨rfl, rfl⟩ | ⟨rfl, rfl⟩ | ⟨rfl, rfl⟩ := hp <;> rfl
    obtain ⟨hcell, htimer⟩ := timerWrite_trigger htrigger s
    exact ⟨hcell, htimer, fun k hk => readCell_timerWrite a s (ne_of_notMem_singleton hk)⟩
  · exact timerWrite_of_not_trigger (timerTrigger_eq_none ha) s

/-! ### The host -/

theorem serveFrame_of_incomplete {s : State} (h : s.video.frameComplete = false) : serveFrame s = s := by
  rw [serveFrame, h]
  rfl

theorem serveFrame_of_complete {s : State} (h : s.video.frameComplete = true) :
    serveFrame s = onVideo (fun v => { v with frameComplete := false }) (hostFrame s) := by
  rw [serveFrame, if_pos h]

/-- One call of the host: its next answer's stores, and the script and the quit flag of after it (R392, log 8). -/
theorem hostFrame_eq (s : State) : hostFrame s =
    { hostStores ((s.hostPort.script.head?.map (·.stores)).getD []) s with
      hostPort :=
        { script := s.hostPort.script.tail, quit := (s.hostPort.script.head?.map (·.quit)).getD false } } := by
  unfold hostFrame
  cases s.hostPort.script <;> rfl

/-- The host leaves every cell but its input cells and the port (R392). -/
theorem readCell_hostFrame {k : Addr} (hport : k ≠ Config.inputPort) (hinput : ∀ r, Config.inputRegs r ≠ k)
    (s : State) : readCell k (hostFrame s) = readCell k s := by
  rw [hostFrame_eq]
  exact readCell_hostStores _ s hport hinput

/-- An input cell is not the countdown cell (R412). -/
theorem inputRegs_ne_intim (r : Config.InputReg) : Config.inputRegs r ≠ Config.intim := by
  intro h
  have hquiet := chipCell_inputRegs r
  rw [h] at hquiet
  exact absurd hquiet (by decide)

/-- Settles O59: a frame served is one call of the host by `hostFrame_eq`; the chips leave the input cells because those
are no cells of theirs, by `chipCell_inputRegs`. -/
theorem hostStoresOnlyToInputCells : Obligations.HostStoresOnlyToInputCells := by
  unfold Obligations.HostStoresOnlyToInputCells
  intro s
  refine ⟨serveFrame_of_incomplete, fun hframe => ?_, fun r a n => ?_⟩
  · rw [serveFrame_of_complete hframe]
    have hcell (a : Addr) (hport : a ≠ 0x0282) (hinput : ∀ r, Config.inputRegs r ≠ a) :
        readCell a (onVideo (fun v => { v with frameComplete := false }) (hostFrame s)) = readCell a s :=
      readCell_hostFrame hport hinput s
    refine ⟨hcell, ?_⟩
    obtain ⟨m, hm⟩ := hostStores_shape ((s.hostPort.script.head?.map (·.stores)).getD []) s
    rw [hostFrame_eq, hm]
    exact ⟨rfl, rfl, rfl, rfl⟩
  · have hquiet := chipCell_inputRegs r
    have hintim := inputRegs_ne_intim r
    exact ⟨readCell_videoWrite a s hquiet, readCell_lineUpdate s hquiet, readCell_timerTick n s hintim,
      readCell_timerWrite a s hintim⟩

end Sys2Proof.Machine
end
